-- ==== Sys2Proof/Config.lean ====
section
/-! DEFINITION. Config: what an implementation of the block fixes (its operand width) and the reset contents the spec leaves open. -/

namespace Sys2Proof

/-- The legal operand widths (00_scope.md R8): "Its legal values are 64 and 256". -/
inductive Width where
  | w64
  | w256
  deriving DecidableEq, Repr

/-- `W` as a number of bits (00_scope.md R8); `max_bits = W`. -/
def Width.bits : Width → Nat
  | .w64 => 64
  | .w256 => 256

namespace Config

/-- The width of the one state `State.reset` (DESIGN CHOICE, log 1). Every definition of the machine is for both widths;
the vectors of 95_test_vectors.md use 64 unless they say otherwise (00_scope.md R8). -/
def resetWidth : Width := .w64

/-- The contents of F and P after a reset, which the spec leaves unspecified (93_implementation_defined.md U1), one for each draw:
nothing is known of them (DESIGN CHOICE, log 2). The free values that depend on the state, `Config.latency` and `Config.busyRead`,
stand beside the state in Machine/State.lean. -/
opaque freeValue : Nat → Nat

end Config

end Sys2Proof
end

