-- ==== Sys2Proof/Word.lean ====
section
/-! DEFINITION. Word: the W-bit word of the block and the narrowing of a number to it. -/

namespace Sys2Proof

/-- A W-bit value (00_scope.md R8, R10). -/
abbrev Word (w : Width) := BitVec w.bits

/-- The W-bit word of a number. Numbers of the pseudocode are unbounded (00_scope.md R10); this is the one place where a result
is narrowed, and a canonical result loses nothing by it (log 10). -/
abbrev Word.ofNat (w : Width) (n : Nat) : Word w := BitVec.ofNat w.bits n

/-- A one-bit field read zero-extended (20_memory.md R65). -/
abbrev Word.ofBit (w : Width) (b : Bool) : Word w := Word.ofNat w b.toNat

end Sys2Proof
end

