-- ==== Sys2Proof/Syntax.lean ====
section
/-! DEFINITION. Syntax: the 35 commands of spec/opcode_table.json, one constructor each, with the operands their format names. -/

namespace Sys2Proof

/-- A field register number, 0 to 15, all legal (30_encoding.md R81). -/
abbrev FReg := Fin 16

/-- A point register number as the 4-bit field of a command word gives it: 0 to 3 are legal, 4 to 15 illegal
(30_encoding.md R81); `Instr.wf` checks it. -/
abbrev PReg := Fin 16

/-- The unsigned 12-bit immediate of format FI (30_encoding.md R83). -/
abbrev Imm := BitVec 12

/-- The commands (30_encoding.md R84). Operands stand in the order RD, RA, RB or RD, RA, IMM (30_encoding.md R88). -/
inductive Instr where
  -- control (40_control.md)
  | nop
  | cfgcommit
  | fmov (rd ra : FReg)
  | pmov (rd ra : PReg)
  -- field_adder_subtracter (41_field_add_sub.md)
  | fadd (rd ra rb : FReg)
  | fsub (rd ra rb : FReg)
  | fneg (rd ra : FReg)
  | fred (rd ra : FReg)
  | fzero (rd : FReg)
  | fone (rd : FReg)
  -- montgomery_multiplier (42_multiplier.md)
  | fmul (rd ra rb : FReg)
  | fsqr (rd ra : FReg)
  | fmuli (rd ra : FReg) (imm : Imm)
  | fpow (rd ra rb : FReg)
  | mmul (rd ra rb : FReg)
  | msqr (rd ra : FReg)
  | tomont (rd ra : FReg)
  | frommont (rd ra : FReg)
  | mone (rd : FReg)
  | mpow (rd ra rb : FReg)
  -- modular_inverse_engine (43_inverse.md)
  | finv (rd ra : FReg)
  | fdiv (rd ra rb : FReg)
  | minv (rd ra : FReg)
  | mdiv (rd ra rb : FReg)
  -- affine_point_add_double_unit (44_affine.md)
  | ainf (rd : PReg)
  | agen (rd : PReg)
  | aadd (rd ra rb : PReg)
  | adbl (rd ra : PReg)
  | atoj (rd ra : PReg)
  | jtoa (rd ra : PReg)
  -- jacobian_point_add_double_unit (45_jacobian.md)
  | jinf (rd : PReg)
  | jadd (rd ra rb : PReg)
  | jdbl (rd ra : PReg)
  -- scalar_multiplier_engine (46_scalar_mult.md)
  | amul (rd ra : PReg) (rb : FReg)
  | jmul (rd ra : PReg) (rb : FReg)
  deriving DecidableEq, Repr

end Sys2Proof
end

