-- ==== Sys2Proof/WellFormed.lean ====
section
/-! DEFINITION. WellFormed: which commands are legal. The one check on operands is that a point register number is 0 to 3. -/

namespace Sys2Proof

/-- "a point register (`P`, value 0 to 3 legal, 4 to 15 illegal)" (30_encoding.md R81). -/
def legalPoint (r : PReg) : Bool := decide (r.val ≤ 3)

/-- A command is well formed when every point register number it names is legal (30_encoding.md R81, R86). Field register
numbers and the immediate have no illegal value (R81, R83). -/
def Instr.wf : Instr → Bool
  | .nop => true
  | .cfgcommit => true
  | .fmov _ _ => true
  | .pmov rd ra => legalPoint rd && legalPoint ra
  | .fadd _ _ _ => true
  | .fsub _ _ _ => true
  | .fneg _ _ => true
  | .fred _ _ => true
  | .fzero _ => true
  | .fone _ => true
  | .fmul _ _ _ => true
  | .fsqr _ _ => true
  | .fmuli _ _ _ => true
  | .fpow _ _ _ => true
  | .mmul _ _ _ => true
  | .msqr _ _ => true
  | .tomont _ _ => true
  | .frommont _ _ => true
  | .mone _ => true
  | .mpow _ _ _ => true
  | .finv _ _ => true
  | .fdiv _ _ _ => true
  | .minv _ _ => true
  | .mdiv _ _ _ => true
  | .ainf rd => legalPoint rd
  | .agen rd => legalPoint rd
  | .aadd rd ra rb => legalPoint rd && legalPoint ra && legalPoint rb
  | .adbl rd ra => legalPoint rd && legalPoint ra
  | .atoj rd ra => legalPoint rd && legalPoint ra
  | .jtoa rd ra => legalPoint rd && legalPoint ra
  | .jinf rd => legalPoint rd
  | .jadd rd ra rb => legalPoint rd && legalPoint ra && legalPoint rb
  | .jdbl rd ra => legalPoint rd && legalPoint ra
  | .amul rd ra _ => legalPoint rd && legalPoint ra
  | .jmul rd ra _ => legalPoint rd && legalPoint ra

end Sys2Proof
end

