-- ==== Sys2Proof/Decode.lean ====
section
/-! DEFINITION. Decode: the fields of a command word, the formats, the predicate of a legal word, the decoder (total, rejecting by
name), and the encoder written from the same tables (30_encoding.md R80 to R89). -/

namespace Sys2Proof

/-- `v[hi:lo]`, "(v >> lo) mod 2^(hi-lo+1)" (00_scope.md R10). -/
def bitField (v hi lo : Nat) : Nat := (v >>> lo) % 2 ^ (hi - lo + 1)

/-! ### The fields of a command word (30_encoding.md R80) -/

def opcOf (w : BitVec 32) : BitVec 8 := BitVec.ofNat 8 (bitField w.toNat 31 24)
def rdOf (w : BitVec 32) : Fin 16 := Fin.ofNat 16 (bitField w.toNat 23 20)
def raOf (w : BitVec 32) : Fin 16 := Fin.ofNat 16 (bitField w.toNat 19 16)
def rbOf (w : BitVec 32) : Fin 16 := Fin.ofNat 16 (bitField w.toNat 15 12)
def immOf (w : BitVec 32) : Imm := BitVec.ofNat 12 (bitField w.toNat 11 0)

/-- "The word is formed as `OPC*2^24 + RD*2^20 + RA*2^16 + RB*2^12 + IMM`" (30_encoding.md R80); each product is a shift. -/
def commandWord (opc : BitVec 8) (rd ra rb : Fin 16) (imm : Imm) : BitVec 32 :=
  BitVec.ofNat 32 (opc.toNat <<< 24 + rd.val <<< 20 + ra.val <<< 16 + rb.val <<< 12 + imm.toNat)

/-! ### Formats and legality (30_encoding.md R82, R84, R86) -/

/-- The nine formats of 30_encoding.md R82. -/
inductive Format where
  | N
  | F1
  | F2
  | F3
  | FI
  | P1
  | P2
  | P3
  | PK
  deriving DecidableEq, Repr

/-- What a format says of one field: it must be zero, it names a field register, it names a point register, or it is the
immediate (30_encoding.md R82). -/
inductive FieldKind where
  | zero
  | fieldReg
  | pointReg
  | imm12
  deriving DecidableEq, Repr

/-- The RD column of the table of 30_encoding.md R82. -/
def Format.rd : Format → FieldKind
  | .N => .zero
  | .F1 | .F2 | .F3 | .FI => .fieldReg
  | .P1 | .P2 | .P3 | .PK => .pointReg

/-- The RA column of the table of 30_encoding.md R82. -/
def Format.ra : Format → FieldKind
  | .N | .F1 | .P1 => .zero
  | .F2 | .F3 | .FI => .fieldReg
  | .P2 | .P3 | .PK => .pointReg

/-- The RB column of the table of 30_encoding.md R82. In format PK it names the field register that holds the scalar. -/
def Format.rb : Format → FieldKind
  | .N | .F1 | .F2 | .FI | .P1 | .P2 => .zero
  | .F3 | .PK => .fieldReg
  | .P3 => .pointReg

/-- The IMM column of the table of 30_encoding.md R82. -/
def Format.imm : Format → FieldKind
  | .FI => .imm12
  | .N | .F1 | .F2 | .F3 | .P1 | .P2 | .P3 | .PK => .zero

/-- The opcode map of 30_encoding.md R84: the format of an opcode, none for the reserved ones (R85). -/
def formatOf (opc : BitVec 8) : Option Format :=
  match opc with
  | 0x00#8 | 0x01#8 => some .N
  | 0x14#8 | 0x15#8 | 0x2C#8 => some .F1
  | 0x02#8 | 0x12#8 | 0x13#8 | 0x21#8 | 0x29#8 | 0x2A#8 | 0x2B#8 | 0x30#8 | 0x38#8 => some .F2
  | 0x10#8 | 0x11#8 | 0x20#8 | 0x23#8 | 0x28#8 | 0x2D#8 | 0x31#8 | 0x39#8 => some .F3
  | 0x22#8 => some .FI
  | 0x40#8 | 0x41#8 | 0x50#8 => some .P1
  | 0x03#8 | 0x43#8 | 0x44#8 | 0x45#8 | 0x52#8 => some .P2
  | 0x42#8 | 0x51#8 => some .P3
  | 0x60#8 | 0x61#8 => some .PK
  | _ => none

/-- One field against what its format says of it (30_encoding.md R86). -/
def legalField (k : FieldKind) (v : Nat) : Bool :=
  match k with
  | .zero => v == 0
  | .pointReg => decide (v ≤ 3)
  | .fieldReg | .imm12 => true

/-- `legal(cmd)` of 30_encoding.md R86. -/
def legal (w : BitVec 32) : Bool :=
  match formatOf (opcOf w) with
  | none => false
  | some fmt =>
    legalField fmt.rd (rdOf w).val && legalField fmt.ra (raOf w).val && legalField fmt.rb (rbOf w).val
      && legalField fmt.imm (immOf w).toNat

/-! ### The decoder -/

/-- The four operand fields of a word, for naming the one at fault. -/
inductive WordField where
  | rd
  | ra
  | rb
  | imm
  deriving DecidableEq, Repr

/-- Why a word is no command. All three complete with ILLEGAL_COMMAND (30_encoding.md R85, R86). -/
inductive DecodeError where
  /-- the opcode is one of the 221 reserved values (R85) -/
  | reservedOpcode
  /-- a field that the format marks 0 is not 0 (R82, R86) -/
  | nonzeroField (field : WordField)
  /-- a field that the format marks P is above 3 (R81, R86) -/
  | pointNumber (field : WordField)
  deriving DecidableEq, Repr

def zeroRd (w : BitVec 32) : Except DecodeError Unit := if rdOf w = 0 then .ok () else .error (.nonzeroField .rd)
def zeroRa (w : BitVec 32) : Except DecodeError Unit := if raOf w = 0 then .ok () else .error (.nonzeroField .ra)
def zeroRb (w : BitVec 32) : Except DecodeError Unit := if rbOf w = 0 then .ok () else .error (.nonzeroField .rb)
def zeroImm (w : BitVec 32) : Except DecodeError Unit := if immOf w = 0 then .ok () else .error (.nonzeroField .imm)
def pointRd (w : BitVec 32) : Except DecodeError Unit := if legalPoint (rdOf w) then .ok () else .error (.pointNumber .rd)
def pointRa (w : BitVec 32) : Except DecodeError Unit := if legalPoint (raOf w) then .ok () else .error (.pointNumber .ra)
def pointRb (w : BitVec 32) : Except DecodeError Unit := if legalPoint (rbOf w) then .ok () else .error (.pointNumber .rb)

/-! One definition per format: the checks of its row in 30_encoding.md R82, then the command from its fields. -/

def decodeN (w : BitVec 32) (k : Instr) : Except DecodeError Instr := do
  zeroRd w; zeroRa w; zeroRb w; zeroImm w
  return k

def decodeF1 (w : BitVec 32) (k : FReg → Instr) : Except DecodeError Instr := do
  zeroRa w; zeroRb w; zeroImm w
  return k (rdOf w)

def decodeF2 (w : BitVec 32) (k : FReg → FReg → Instr) : Except DecodeError Instr := do
  zeroRb w; zeroImm w
  return k (rdOf w) (raOf w)

def decodeF3 (w : BitVec 32) (k : FReg → FReg → FReg → Instr) : Except DecodeError Instr := do
  zeroImm w
  return k (rdOf w) (raOf w) (rbOf w)

def decodeFI (w : BitVec 32) (k : FReg → FReg → Imm → Instr) : Except DecodeError Instr := do
  zeroRb w
  return k (rdOf w) (raOf w) (immOf w)

def decodeP1 (w : BitVec 32) (k : PReg → Instr) : Except DecodeError Instr := do
  pointRd w; zeroRa w; zeroRb w; zeroImm w
  return k (rdOf w)

def decodeP2 (w : BitVec 32) (k : PReg → PReg → Instr) : Except DecodeError Instr := do
  pointRd w; pointRa w; zeroRb w; zeroImm w
  return k (rdOf w) (raOf w)

def decodeP3 (w : BitVec 32) (k : PReg → PReg → PReg → Instr) : Except DecodeError Instr := do
  pointRd w; pointRa w; pointRb w; zeroImm w
  return k (rdOf w) (raOf w) (rbOf w)

def decodePK (w : BitVec 32) (k : PReg → PReg → FReg → Instr) : Except DecodeError Instr := do
  pointRd w; pointRa w; zeroImm w
  return k (rdOf w) (raOf w) (rbOf w)

/-- The command a word stands for, or why it is none (30_encoding.md R80 to R87). -/
def decode (w : BitVec 32) : Except DecodeError Instr :=
  match opcOf w with
  | 0x00#8 => decodeN w .nop
  | 0x01#8 => decodeN w .cfgcommit
  | 0x02#8 => decodeF2 w .fmov
  | 0x03#8 => decodeP2 w .pmov
  | 0x10#8 => decodeF3 w .fadd
  | 0x11#8 => decodeF3 w .fsub
  | 0x12#8 => decodeF2 w .fneg
  | 0x13#8 => decodeF2 w .fred
  | 0x14#8 => decodeF1 w .fzero
  | 0x15#8 => decodeF1 w .fone
  | 0x20#8 => decodeF3 w .fmul
  | 0x21#8 => decodeF2 w .fsqr
  | 0x22#8 => decodeFI w .fmuli
  | 0x23#8 => decodeF3 w .fpow
  | 0x28#8 => decodeF3 w .mmul
  | 0x29#8 => decodeF2 w .msqr
  | 0x2A#8 => decodeF2 w .tomont
  | 0x2B#8 => decodeF2 w .frommont
  | 0x2C#8 => decodeF1 w .mone
  | 0x2D#8 => decodeF3 w .mpow
  | 0x30#8 => decodeF2 w .finv
  | 0x31#8 => decodeF3 w .fdiv
  | 0x38#8 => decodeF2 w .minv
  | 0x39#8 => decodeF3 w .mdiv
  | 0x40#8 => decodeP1 w .ainf
  | 0x41#8 => decodeP1 w .agen
  | 0x42#8 => decodeP3 w .aadd
  | 0x43#8 => decodeP2 w .adbl
  | 0x44#8 => decodeP2 w .atoj
  | 0x45#8 => decodeP2 w .jtoa
  | 0x50#8 => decodeP1 w .jinf
  | 0x51#8 => decodeP3 w .jadd
  | 0x52#8 => decodeP2 w .jdbl
  | 0x60#8 => decodePK w .amul
  | 0x61#8 => decodePK w .jmul
  | _ => .error .reservedOpcode

/-- The instruction the decoder reads from a word of spec/opcode_table.json, whose bit 0 is the least significant bit of the
32-bit command word; every bit at or above `nbits` is 0. -/
def decodeTableWord (nbits w : Nat) : Option Instr :=
  match decode (BitVec.ofNat 32 (w % 2 ^ nbits)) with
  | .ok i => some i
  | .error _ => none

/-! ### The encoder -/

/-- The word of a command (30_encoding.md R80, R82, R84); a field the format marks 0 is 0. -/
def encode : Instr → BitVec 32
  | .nop => commandWord 0x00#8 0 0 0 0
  | .cfgcommit => commandWord 0x01#8 0 0 0 0
  | .fmov rd ra => commandWord 0x02#8 rd ra 0 0
  | .pmov rd ra => commandWord 0x03#8 rd ra 0 0
  | .fadd rd ra rb => commandWord 0x10#8 rd ra rb 0
  | .fsub rd ra rb => commandWord 0x11#8 rd ra rb 0
  | .fneg rd ra => commandWord 0x12#8 rd ra 0 0
  | .fred rd ra => commandWord 0x13#8 rd ra 0 0
  | .fzero rd => commandWord 0x14#8 rd 0 0 0
  | .fone rd => commandWord 0x15#8 rd 0 0 0
  | .fmul rd ra rb => commandWord 0x20#8 rd ra rb 0
  | .fsqr rd ra => commandWord 0x21#8 rd ra 0 0
  | .fmuli rd ra imm => commandWord 0x22#8 rd ra 0 imm
  | .fpow rd ra rb => commandWord 0x23#8 rd ra rb 0
  | .mmul rd ra rb => commandWord 0x28#8 rd ra rb 0
  | .msqr rd ra => commandWord 0x29#8 rd ra 0 0
  | .tomont rd ra => commandWord 0x2A#8 rd ra 0 0
  | .frommont rd ra => commandWord 0x2B#8 rd ra 0 0
  | .mone rd => commandWord 0x2C#8 rd 0 0 0
  | .mpow rd ra rb => commandWord 0x2D#8 rd ra rb 0
  | .finv rd ra => commandWord 0x30#8 rd ra 0 0
  | .fdiv rd ra rb => commandWord 0x31#8 rd ra rb 0
  | .minv rd ra => commandWord 0x38#8 rd ra 0 0
  | .mdiv rd ra rb => commandWord 0x39#8 rd ra rb 0
  | .ainf rd => commandWord 0x40#8 rd 0 0 0
  | .agen rd => commandWord 0x41#8 rd 0 0 0
  | .aadd rd ra rb => commandWord 0x42#8 rd ra rb 0
  | .adbl rd ra => commandWord 0x43#8 rd ra 0 0
  | .atoj rd ra => commandWord 0x44#8 rd ra 0 0
  | .jtoa rd ra => commandWord 0x45#8 rd ra 0 0
  | .jinf rd => commandWord 0x50#8 rd 0 0 0
  | .jadd rd ra rb => commandWord 0x51#8 rd ra rb 0
  | .jdbl rd ra => commandWord 0x52#8 rd ra 0 0
  | .amul rd ra rb => commandWord 0x60#8 rd ra rb 0
  | .jmul rd ra rb => commandWord 0x61#8 rd ra rb 0

/-! ### Pseudo-instructions (30_encoding.md R89): each is another name of one command -/

def pseudoMadd (rd ra rb : FReg) : Instr := .fadd rd ra rb
def pseudoMsub (rd ra rb : FReg) : Instr := .fsub rd ra rb
def pseudoMneg (rd ra : FReg) : Instr := .fneg rd ra
def pseudoMzero (rd : FReg) : Instr := .fzero rd
def pseudoMmuli (rd ra : FReg) (imm : Imm) : Instr := .fmuli rd ra imm
def pseudoFdbl (rd ra : FReg) : Instr := .fmuli rd ra 2

end Sys2Proof
end

