-- ==== Sys2Proof/Machine/State.lean ====
section
/-! DEFINITION. Machine/State: the state of the block as plain data (10_state.md R20), the values the spec leaves open that depend
on it, the reasons a step can stop, and the state after reset. -/

namespace Sys2Proof.Machine

/-- The status codes of 60_exceptions.md R251. The reserved codes 7 to 15 are "never produced" (R251), so no value stands for one. -/
inductive StatusCode where
  /-- NONE, 0: the command completed -/
  | noError
  /-- INVERSE_OF_ZERO, 1 -/
  | inverseOfZero
  /-- NOT_INVERTIBLE, 2 -/
  | notInvertible
  /-- CONFIG_INVALID, 3 -/
  | configInvalid
  /-- NOT_CONFIGURED, 4 -/
  | notConfigured
  /-- MONT_NOT_CONFIGURED, 5 -/
  | montNotConfigured
  /-- ILLEGAL_COMMAND, 6 -/
  | illegalCommand
  deriving DecidableEq, Repr

/-- One point register (10_state.md R23): three W-bit coordinates and the 1-bit affine infinity tag. -/
structure Point (w : Width) where
  x : Word w
  y : Word w
  z : Word w
  inf : Bool
  deriving DecidableEq, Repr

/-- What the host does next (00_scope.md R12, R17): one transaction, or the WAIT of 30_encoding.md R90, which repeats
`HostRead(0x51)` until BUSY is 0. The value of a write is a number of which W bits are transferred (log 11). -/
inductive HostOp where
  | read (idx : BitVec 8)
  | write (idx : BitVec 8) (v : Nat)
  | wait
  | reset
  deriving DecidableEq, Repr

/-- What a HostRead returned to the host. -/
structure HostRead where
  idx : BitVec 8
  value : Nat
  deriving DecidableEq, Repr

/-- The state of the block, "and is only" (10_state.md R20), with its width W (log 1); after it the model's own fields. -/
structure State where
  /-- the operand width W (00_scope.md R8); no step changes it -/
  width : Width
  /-- the field registers F0 to F15 (R21) -/
  f : Vector (Word width) 16
  /-- the point registers P0 to P3 (R23) -/
  p : Vector (Point width) 4
  /-- CFG.MODULUS (R27) -/
  modulus : Word width
  /-- CFG.RCONST (R28) -/
  rconst : Word width
  /-- CFG.RINV (R28) -/
  rinv : Word width
  /-- CFG.CURVE_A (R29) -/
  curveA : Word width
  /-- CFG.CURVE_GX (R29) -/
  curveGx : Word width
  /-- CFG.CURVE_GY (R29) -/
  curveGy : Word width
  /-- CTRL.VTYPE (R30): false the standard domain, true the Montgomery domain -/
  vtype : Bool
  /-- STATUS.ERR (R31) -/
  err : StatusCode
  /-- STATUS.STICKY (R31) -/
  sticky : Bool
  /-- STATUS.FIELD_OK (R31, R36) -/
  fieldOk : Bool
  /-- STATUS.MONT_OK (R31, R36) -/
  montOk : Bool
  /-- STATUS.BUSYWR (R31) -/
  busyWr : Bool
  /-- LASTCMD (R34) -/
  lastCmd : BitVec 32
  /-- INFLIGHT (R33); STATUS.BUSY is 1 exactly when it is not none -/
  inflight : Option (BitVec 32)
  /-- the model's own: the host transactions still to come before the command in flight completes (log 3) -/
  delay : Nat
  /-- the model's own: counts the draws of free values, so that no two draws are made in one state (logs 2, 3, 5) -/
  draws : Nat
  /-- the model's own: the host's transactions still to come, in program order (log 4) -/
  hostOps : List HostOp
  /-- the model's own: what HostRead has returned, oldest first (log 4) -/
  hostReads : List HostRead
  deriving DecidableEq, Repr

end Sys2Proof.Machine

namespace Sys2Proof.Config

open Sys2Proof.Machine (State)

/-- The parameter `LATENCY(cmd, state)` of 92_eei_decisions.md D20, for a command word and the state that accepts it: how many host
transactions are performed between the acceptance of the command and its completion. Finite, and nothing else is known of it: it may
depend on the operands as on all else (70_reset_and_hazards.md R295; 93_implementation_defined.md U22; DESIGN CHOICE, log 3). -/
opaque latency : BitVec 32 → State → Nat

/-- What a HostRead of a destination of the command in flight returns, for the index and the state of the read: nothing is known of
it (70_reset_and_hazards.md R287; 93_implementation_defined.md U2; DESIGN CHOICE, log 5). -/
opaque busyRead : BitVec 8 → State → Nat

end Sys2Proof.Config

namespace Sys2Proof.Machine

/-- The reasons the machine stops with a fault: there are none. "No behaviour of the block is undefined in the sense of 'anything
may happen'" (93_implementation_defined.md), and an error is a status code, not a stop (60_exceptions.md R250; log 8). Safe: the
model never stops. -/
inductive Fault where
  deriving DecidableEq, Repr

/-- The reasons the model gives no meaning. -/
inductive Refusal where
  /-- An instruction the model has not reached, by its mnemonic: raised by an arm of `exec` alone. Safe: nothing is claimed of it.
  No arm raises it at present. -/
  | notModelled (mnemonic : String)
  deriving DecidableEq, Repr

/-- The unknown word of a draw (log 2). -/
def freeWord (w : Width) (n : Nat) : Word w := Word.ofNat w (Config.freeValue n)

/-- The unknown bit of a draw (log 2). -/
def freeBit (n : Nat) : Bool := (Config.freeValue n).testBit 0

/-- The unknown content of a point register: four draws from `n` on (log 2). -/
def freePoint (w : Width) (n : Nat) : Point w :=
  { x := freeWord w n, y := freeWord w (n + 1), z := freeWord w (n + 2), inf := freeBit (n + 3) }

/-- How many free values a reset draws: one for each field register and four for each point register. -/
def resetDraws : Nat := 32

/-- Every piece of the block's state at its reset value (10_state.md R37): configuration, CTRL, STATUS and LASTCMD 0, INFLIGHT
none, F and P unknown: draws `d` to `d + 31` (log 2). The host's side is given. -/
def State.resetAt (w : Width) (d : Nat) (ops : List HostOp) (reads : List HostRead) : State where
  width := w
  f := Vector.ofFn fun i => freeWord w (d + i.val)
  p := Vector.ofFn fun i => freePoint w (d + 16 + 4 * i.val)
  modulus := 0
  rconst := 0
  rinv := 0
  curveA := 0
  curveGx := 0
  curveGy := 0
  vtype := false
  err := .noError
  sticky := false
  fieldOk := false
  montOk := false
  busyWr := false
  lastCmd := 0
  inflight := none
  delay := 0
  draws := d + resetDraws
  hostOps := ops
  hostReads := reads

/-- The machine right after reset, at the width of `Config.resetWidth` (10_state.md R37; logs 1, 2, 4). -/
def State.reset : State := State.resetAt Config.resetWidth 0 [] []

end Sys2Proof.Machine
end

