-- ==== Sys2Proof/Machine/Arith.lean ====
section
/-! DEFINITION. Machine/Arith: the arithmetic primitives of the rules, on canonical residues as unbounded numbers (00_scope.md
R10): reduction, addition, multiplication, the two domains, exponentiation, inverse and division. -/

namespace Sys2Proof.Machine

/-! ### Adder primitives (41_field_add_sub.md R120 to R123) -/

/-- `red(v) = v mod M` (R120). It is used only with FIELD_OK = 1, where `M >= 2` (log 10). -/
def red (M v : Nat) : Nat := v % M

/-- `modAdd(a, b) = (a + b) mod M` (R121). -/
def modAdd (M a b : Nat) : Nat := (a + b) % M

/-- `modSub(a, b)`: "a - b if a >= b, else a - b + M" (R122). -/
def modSub (M a b : Nat) : Nat := if b ≤ a then a - b else a + M - b

/-- `modNeg(a) = (M - a) mod M` (R123). -/
def modNeg (M a : Nat) : Nat := (M - a) % M

/-! ### Multiplier primitives (42_multiplier.md R140 to R147) -/

/-- `modMul(a, b) = (a * b) mod M` (R140), from the exact product. -/
def modMul (M a b : Nat) : Nat := (a * b) % M

/-- `modMulSmall(k, a) = (k * a) mod M` (R141). -/
def modMulSmall (M k a : Nat) : Nat := (k * a) % M

/-- `mulReduce(a, b, c) = modMul(modMul(a, b), c)` (R142). -/
def mulReduce (M a b c : Nat) : Nat := modMul M (modMul M a b) c

/-- What a command computes with: the modulus, `R' = red(CFG.RCONST)`, `RI' = red(CFG.RINV)` (10_state.md R28) and the domain
`d` (42_multiplier.md R143; false is d = 0, standard; true is d = 1, Montgomery). -/
structure Domain where
  M : Nat
  R : Nat
  RI : Nat
  mont : Bool
  deriving DecidableEq, Repr

/-- `enc_d(x)` (R143). -/
def encD (D : Domain) (x : Nat) : Nat := if D.mont then modMul D.M x D.R else x

/-- `dec_d(y)` (R143). -/
def decD (D : Domain) (y : Nat) : Nat := if D.mont then modMul D.M y D.RI else y

/-- `one_d`: 1 in the standard domain, `R'` in the Montgomery domain (R144). -/
def oneD (D : Domain) : Nat := if D.mont then D.R else 1

/-- `mul_d(a, b)` (R145). -/
def mulD (D : Domain) (a b : Nat) : Nat := if D.mont then mulReduce D.M a b D.RI else modMul D.M a b

/-- The loop of `powd` (R147) for the exponent's bits `i - 1` down to 0. -/
def powLoop (D : Domain) (b e : Nat) : Nat → Nat → Nat
  | 0, acc => acc
  | i + 1, acc =>
    let sq := mulD D acc acc
    powLoop D b e i (if e.testBit i then mulD D sq b else sq)

/-- `powd(b, e, d)`: square and multiply over the `W` bits of the raw exponent, most significant first (R147). -/
def powD (D : Domain) (W b e : Nat) : Nat := powLoop D b e W (oneD D)

/-! ### Inverse and division (43_inverse.md R170, R171) -/

/-- The while loop of `modInv` (R170), from `(r0, r1)` and `(x0, x1)`, for at most `fuel` turns; it answers the last `(r0, x0)`.
`r1` strictly decreases, so `fuel = r1` is enough (log 9). -/
def modInvLoop (M : Nat) : Nat → Nat → Nat → Nat → Nat → Nat × Nat
  | 0, r0, _, x0, _ => (r0, x0)
  | fuel + 1, r0, r1, x0, x1 =>
    if r1 = 0 then (r0, x0)
    else
      let q := r0 / r1
      let t := (q * x1) % M
      let xn := if t ≤ x0 then x0 - t else x0 + M - t
      modInvLoop M fuel r1 (r0 - q * r1) x1 xn

/-- `modInv(a)` (R170): INVERSE_OF_ZERO is tested before NOT_INVERTIBLE (60_exceptions.md R254). -/
def modInv (M a : Nat) : Except StatusCode Nat :=
  if a = 0 then .error .inverseOfZero
  else
    match modInvLoop M a M a 0 1 with
    | (r0, x0) => if r0 = 1 then .ok x0 else .error .notInvertible

/-- `div_d(a, b)` (R171): in the Montgomery domain the rescale constant is `R'`, not `RI'`. -/
def divD (D : Domain) (a b : Nat) : Except StatusCode Nat := do
  let i ← modInv D.M b
  return if D.mont then mulReduce D.M a i D.R else modMul D.M a i

end Sys2Proof.Machine
end

