-- ==== Sys2Proof/Machine/Curve.lean ====
section
/-! DEFINITION. Machine/Curve: the group law of the curve on affine and on Jacobian values, the conversions between them, and
scalar multiplication, as the pseudocode of 44_affine.md, 45_jacobian.md and 46_scalar_mult.md gives them. -/

namespace Sys2Proof.Machine

/-- An affine value: `Inf` or a pair of canonical coordinates (44_affine.md R190). -/
inductive Affine where
  | inf
  | pt (x y : Nat)
  deriving DecidableEq, Repr

/-- A Jacobian value: a triple of canonical coordinates, infinity exactly when `Z = 0` (45_jacobian.md R215). -/
structure Jacobian where
  x : Nat
  y : Nat
  z : Nat
  deriving DecidableEq, Repr

/-! ### Affine (44_affine.md) -/

/-- The last lines of `affAdd` (R191): the third point of the line of slope `l` through `(x1, y1)` and a point with the
abscissa `x2`, reflected. -/
def affChord (D : Domain) (l x1 y1 x2 : Nat) : Affine :=
  let x3 := modSub D.M (modSub D.M (mulD D l l) x1) x2
  .pt x3 (modSub D.M (mulD D l (modSub D.M x1 x3)) y1)

/-- The tangent's end: as `affChord`, with `x3 = L² − 2·x1` (R191). -/
def affTangent (D : Domain) (l x1 y1 : Nat) : Affine :=
  let x3 := modSub D.M (mulD D l l) (modMulSmall D.M 2 x1)
  .pt x3 (modSub D.M (mulD D l (modSub D.M x1 x3)) y1)

/-- `affAdd(P, Q, d)` with `A = red(CFG.CURVE_A)` (R191). -/
def affAdd (D : Domain) (A : Nat) (P Q : Affine) : Except StatusCode Affine :=
  match P, Q with
  | .inf, .inf => .ok .inf
  | .inf, .pt x2 y2 => .ok (.pt x2 y2)
  | .pt x1 y1, .inf => .ok (.pt x1 y1)
  | .pt x1 y1, .pt x2 y2 =>
    if x1 = x2 then
      if y1 ≠ y2 then .ok .inf
      else if y1 = 0 then .ok .inf
      else do
        let l ← divD D (modAdd D.M (modMulSmall D.M 3 (mulD D x1 x1)) A) (modMulSmall D.M 2 y1)
        return affTangent D l x1 y1
    else do
      let l ← divD D (modSub D.M y2 y1) (modSub D.M x2 x1)
      return affChord D l x1 y1 x2

/-- `JInf_d = (0, one_d, 0)` (45_jacobian.md R215). -/
def jacInf (D : Domain) : Jacobian := { x := 0, y := oneD D, z := 0 }

/-- `toJac(P, d)` (R192). -/
def toJac (D : Domain) : Affine → Jacobian
  | .inf => jacInf D
  | .pt x y => { x := x, y := y, z := oneD D }

/-- `toAff((X, Y, Z), d)` (R193): one inversion. -/
def toAff (D : Domain) (J : Jacobian) : Except StatusCode Affine :=
  if J.z = 0 then .ok .inf
  else do
    let zi ← divD D (oneD D) J.z
    let zi2 := mulD D zi zi
    return .pt (mulD D J.x zi2) (mulD D J.y (mulD D zi2 zi))

/-! ### Jacobian (45_jacobian.md R216) -/

/-- The doubling branch of `jacAdd` (R216); `z1s` is `Z1²`. -/
def jacDouble (D : Domain) (A : Nat) (P : Jacobian) (z1s : Nat) : Jacobian :=
  let y1s := mulD D P.y P.y
  let s := modMulSmall D.M 4 (mulD D P.x y1s)
  let mv := modAdd D.M (modMulSmall D.M 3 (mulD D P.x P.x)) (mulD D A (mulD D z1s z1s))
  let x3 := modSub D.M (mulD D mv mv) (modMulSmall D.M 2 s)
  let y3 := modSub D.M (mulD D mv (modSub D.M s x3)) (modMulSmall D.M 8 (mulD D y1s y1s))
  let z3 := modMulSmall D.M 2 (mulD D P.y P.z)
  { x := x3, y := y3, z := z3 }

/-- The general branch of `jacAdd` (R216), from `U1, U2, S1, S2, Z1, Z2`. -/
def jacChord (D : Domain) (u1 u2 s1 s2 z1 z2 : Nat) : Jacobian :=
  let h := modSub D.M u2 u1
  let rv := modSub D.M s2 s1
  let h2 := mulD D h h
  let h3 := mulD D h2 h
  let x3 := modSub D.M (modSub D.M (mulD D rv rv) h3) (modMulSmall D.M 2 (mulD D u1 h2))
  let y3 := modSub D.M (mulD D rv (modSub D.M (mulD D u1 h2) x3)) (mulD D s1 h3)
  let z3 := mulD D h (mulD D z1 z2)
  { x := x3, y := y3, z := z3 }

/-- `jacAdd(P, Q, d)` with the three infinity cases first (R216; 90_conflicts.md C5). -/
def jacAdd (D : Domain) (A : Nat) (P Q : Jacobian) : Jacobian :=
  if P.z = 0 ∧ Q.z = 0 then jacInf D
  else if P.z = 0 then Q
  else if Q.z = 0 then P
  else
    let z1s := mulD D P.z P.z
    let z2s := mulD D Q.z Q.z
    let u1 := mulD D P.x z2s
    let u2 := mulD D Q.x z1s
    let s1 := mulD D P.y (mulD D z2s Q.z)
    let s2 := mulD D Q.y (mulD D z1s P.z)
    if u1 = u2 then
      if s1 ≠ s2 then jacInf D else jacDouble D A P z1s
    else jacChord D u1 u2 s1 s2 P.z Q.z

/-! ### Scalar multiplication (46_scalar_mult.md) -/

/-- "if k[i] = 1: R0 <- affAdd(R0, R1, d)" (R230). -/
def affAddIf (D : Domain) (A : Nat) (b : Bool) (r0 r1 : Affine) : Except StatusCode Affine :=
  if b then affAdd D A r0 r1 else .ok r0

/-- The loop of `affMul` (R230): `n` bits of `k` from bit `i` up; within a bit the addition to `R0` comes before the doubling of
`R1`, and every doubling is performed, the last one too (92_eei_decisions.md D23). -/
def affMulLoop (D : Domain) (A k : Nat) : Nat → Nat → Affine → Affine → Except StatusCode Affine
  | 0, _, r0, _ => .ok r0
  | n + 1, i, r0, r1 => do
    let r0' ← affAddIf D A (k.testBit i) r0 r1
    let r1' ← affAdd D A r1 r1
    affMulLoop D A k n (i + 1) r0' r1'

/-- `affMul(P, k, d)`: bits 0 to W - 1 of the raw scalar (R230). -/
def affMul (D : Domain) (A W : Nat) (P : Affine) (k : Nat) : Except StatusCode Affine := affMulLoop D A k W 0 .inf P

/-- The loop of `jacMul` (R231). -/
def jacMulLoop (D : Domain) (A k : Nat) : Nat → Nat → Jacobian → Jacobian → Jacobian
  | 0, _, r0, _ => r0
  | n + 1, i, r0, r1 =>
    let r0' := if k.testBit i then jacAdd D A r0 r1 else r0
    let r1' := jacAdd D A r1 r1
    jacMulLoop D A k n (i + 1) r0' r1'

/-- `jacMul(P, k, d)`: bits 0 to W - 1 of the raw scalar, staying in Jacobian form (R231). -/
def jacMul (D : Domain) (A W : Nat) (P : Jacobian) (k : Nat) : Jacobian := jacMulLoop D A k W 0 (jacInf D) P

end Sys2Proof.Machine
end

