-- ==== Sys2Proof/Machine/Operands.lean ====
section
/-! DEFINITION. Machine/Operands: how a command reads its operands: field registers raw or reduced, point registers in the affine
or the Jacobian view, the configuration values, and the check of a point register number. -/

namespace Sys2Proof.Machine

/-! ### Registers as numbers (00_scope.md R10, R11) -/

/-- `F[i]` (00_scope.md R11), raw. -/
def State.F (s : State) (i : FReg) : Nat := (s.f.get i).toNat

/-- `P[i].X`. -/
def State.PX (s : State) (i : Fin 4) : Nat := (s.p.get i).x.toNat

/-- `P[i].Y`. -/
def State.PY (s : State) (i : Fin 4) : Nat := (s.p.get i).y.toNat

/-- `P[i].Z`. -/
def State.PZ (s : State) (i : Fin 4) : Nat := (s.p.get i).z.toNat

/-- `P[i].INF`. -/
def State.PINF (s : State) (i : Fin 4) : Bool := (s.p.get i).inf

/-- `M`, that is `CFG.MODULUS` (00_scope.md R11). -/
def State.M (s : State) : Nat := s.modulus.toNat

/-- `R' = red(CFG.RCONST)` (10_state.md R28). -/
def State.R' (s : State) : Nat := red s.M s.rconst.toNat

/-- `RI' = red(CFG.RINV)` (10_state.md R28). -/
def State.RI' (s : State) : Nat := red s.M s.rinv.toNat

/-- `A = red(CFG.CURVE_A)` (44_affine.md R191). -/
def State.A (s : State) : Nat := red s.M s.curveA.toNat

/-- What a command of domain `d` computes with (42_multiplier.md R143). -/
def State.domain (s : State) (d : Bool) : Domain := { M := s.M, R := s.R', RI := s.RI', mont := d }

/-- The curve's domain, `d = CTRL.VTYPE` (10_state.md R30). -/
def State.curve (s : State) : Domain := s.domain s.vtype

/-! ### Operands -/

/-- A field register read as a field element: `red(F[i])` (10_state.md R22, 41_field_add_sub.md R120). -/
def State.elem (s : State) (i : FReg) : Nat := red s.M (s.F i)

/-- A point register number: 0 to 3, else ILLEGAL_COMMAND (30_encoding.md R81, R86). -/
def pointNumber (r : PReg) : Except StatusCode (Fin 4) :=
  if h : r.val < 4 then .ok ⟨r.val, h⟩ else .error .illegalCommand

/-- `readAff(i)` (44_affine.md R190): infinity when INF is 1, whatever X and Y hold; Z is ignored (10_state.md R24). -/
def State.readAff (s : State) (i : Fin 4) : Affine :=
  if s.PINF i then .inf else .pt (red s.M (s.PX i)) (red s.M (s.PY i))

/-- `readJac(i)` (45_jacobian.md R215): INF is ignored (10_state.md R24). -/
def State.readJac (s : State) (i : Fin 4) : Jacobian :=
  { x := red s.M (s.PX i), y := red s.M (s.PY i), z := red s.M (s.PZ i) }

/-- The generator, `(red(CFG.CURVE_GX), red(CFG.CURVE_GY))` (44_affine.md R195). -/
def State.generator (s : State) : Affine := .pt (red s.M s.curveGx.toNat) (red s.M s.curveGy.toNat)

end Sys2Proof.Machine
end

