-- ==== Sys2Proof/Machine/Flags.lean ====
section
/-! DEFINITION. Machine/Flags: the STATUS register: the number of each status code, the word HostRead returns, the bits a write
clears, and the configuration flags. The block has no condition codes (10_state.md R31). -/

namespace Sys2Proof.Machine

/-- The number of a status code in STATUS.ERR (60_exceptions.md R251). -/
def StatusCode.code : StatusCode → Nat
  | .noError => 0
  | .inverseOfZero => 1
  | .notInvertible => 2
  | .configInvalid => 3
  | .notConfigured => 4
  | .montNotConfigured => 5
  | .illegalCommand => 6

/-- STATUS.BUSY: "`STATUS.BUSY = 1` exactly when `INFLIGHT != none`" (10_state.md R33). -/
def State.busy (s : State) : Bool := s.inflight.isSome

/-- "BUSY + ERR*2^4 + STICKY*2^8 + FIELD_OK*2^9 + MONT_OK*2^10 + BUSYWR*2^11" (20_memory.md R63). -/
def State.statusWord (s : State) : Nat :=
  s.busy.toNat + s.err.code * 2 ^ 4 + s.sticky.toNat * 2 ^ 8 + s.fieldOk.toNat * 2 ^ 9 + s.montOk.toNat * 2 ^ 10
    + s.busyWr.toNat * 2 ^ 11

/-- A write of STATUS while idle: bit 8 clears STICKY, bit 11 clears BUSYWR, and nothing else changes (10_state.md R31). -/
def State.clearStatus (s : State) (v : Word s.width) : State :=
  { s with sticky := s.sticky && !v.getLsbD 8, busyWr := s.busyWr && !v.getLsbD 11 }

/-- `FIELD_OK <- (CFG.MODULUS >= 2)` (10_state.md R36). -/
def State.fieldUsable (s : State) : Bool := decide (2 ≤ s.M)

/-- `MONT_OK <- FIELD_OK and ((red(CFG.RCONST) * red(CFG.RINV)) mod M = 1)` (10_state.md R36). -/
def State.montUsable (s : State) : Bool := s.fieldUsable && decide ((s.R' * s.RI') % s.M = 1)

end Sys2Proof.Machine
end

