-- ==== Sys2Proof/Machine/Ops.lean ====
section
/-! DEFINITION. Machine/Ops: the named operations over the state: writing registers, raising an error and completing a command
(the block's "taking an exception"), the configuration check, the register index map and the three host primitives. -/

namespace Sys2Proof.Machine

/-! ### Writing registers -/

/-- `F[i] <- v` (00_scope.md R11). No field register is hardwired (10_state.md R21). -/
def State.setF (s : State) (i : FReg) (v : Word s.width) : State := { s with f := s.f.set i v }

/-- `F[i] <- n` for the number a rule computes. -/
def State.writeF (s : State) (i : FReg) (n : Nat) : State := s.setF i (Word.ofNat s.width n)

/-- `P[i] <- (x, y, z, inf)`, all four fields at once (00_scope.md R11). -/
def State.setP (s : State) (i : Fin 4) (v : Point s.width) : State := { s with p := s.p.set i v }

/-- `P[i] <- (x, y, z, inf)` for the numbers a rule computes. -/
def State.writeP (s : State) (i : Fin 4) (x y z : Nat) (inf : Bool) : State :=
  s.setP i { x := Word.ofNat s.width x, y := Word.ofNat s.width y, z := Word.ofNat s.width z, inf := inf }

/-- `writeAff(i, ·)` (44_affine.md R190): infinity is written `(0, 0, 0, 1)`, a finite point `(x, y, 0, 0)` (10_state.md R25). -/
def State.writeAff (s : State) (i : Fin 4) : Affine → State
  | .inf => s.writeP i 0 0 0 true
  | .pt x y => s.writeP i x y 0 false

/-- `writeJac(i, (X, Y, Z))`: `P[i] <- (X, Y, Z, 0)` (45_jacobian.md R215, 10_state.md R25). -/
def State.writeJac (s : State) (i : Fin 4) (J : Jacobian) : State := s.writeP i J.x J.y J.z false

/-! ### The end of a command (70_reset_and_hazards.md R285; 60_exceptions.md R250) -/

/-- A command that ends without `raise`: `ERR <- 0`, and INFLIGHT none last (00_scope.md R13, 70_reset_and_hazards.md R285). -/
def State.complete (s : State) : State := { s with err := .noError, inflight := none, delay := 0 }

/-- `raise Error(code)`: "It writes none of its destinations, sets `STATUS.ERR <- code` and `STATUS.STICKY <- 1`, and leaves the
block idle" (60_exceptions.md R250). There is no trap entry, so nothing is saved, and no return (R258, R259). -/
def State.raise (s : State) (c : StatusCode) : State := { s with err := c, sticky := true, inflight := none, delay := 0 }

/-- The end of a command on `s`: the state with its destinations written, or the error it raised. -/
def finish (s : State) (r : Except StatusCode State) : Host.Outcome State Fault Refusal :=
  match r with
  | .ok t => .next t.complete
  | .error c => .next (s.raise c)

/-! ### The configuration check (60_exceptions.md R253, R254) -/

/-- The requirement classes of 60_exceptions.md R253. -/
inductive ConfigClass where
  | none
  | field
  | mont
  | curve
  deriving DecidableEq, Repr

/-- The class of each command (60_exceptions.md R253). -/
def classOf : Instr → ConfigClass
  | .nop | .cfgcommit | .fmov _ _ | .pmov _ _ => .none
  | .fadd _ _ _ | .fsub _ _ _ | .fneg _ _ | .fred _ _ | .fzero _ | .fone _ => .field
  | .fmul _ _ _ | .fsqr _ _ | .fmuli _ _ _ | .fpow _ _ _ => .field
  | .mmul _ _ _ | .msqr _ _ | .tomont _ _ | .frommont _ _ | .mone _ | .mpow _ _ _ => .mont
  | .finv _ _ | .fdiv _ _ _ => .field
  | .minv _ _ | .mdiv _ _ _ => .mont
  | .ainf _ | .agen _ | .aadd _ _ _ | .adbl _ _ | .atoj _ _ | .jtoa _ _ => .curve
  | .jinf _ | .jadd _ _ _ | .jdbl _ _ => .curve
  | .amul _ _ _ | .jmul _ _ _ => .curve

/-- The part of `Prologue(cmd)` after the legality check: the configuration the class needs (60_exceptions.md R254). -/
def requireConfig (c : ConfigClass) (s : State) : Except StatusCode Unit :=
  if c ≠ .none ∧ s.fieldOk = false then .error .notConfigured
  else if c = .mont ∧ s.montOk = false then .error .montNotConfigured
  else if c = .curve ∧ s.vtype = true ∧ s.montOk = false then .error .montNotConfigured
  else .ok ()

/-! ### Destinations (00_scope.md R16: "a register a command writes"; the RD field of 30_encoding.md R82) -/

/-- The field register a command writes, if it writes one. -/
def destF : Instr → Option FReg
  | .nop | .cfgcommit | .pmov _ _ => none
  | .fmov rd _ | .fadd rd _ _ | .fsub rd _ _ | .fneg rd _ | .fred rd _ | .fzero rd | .fone rd => some rd
  | .fmul rd _ _ | .fsqr rd _ | .fmuli rd _ _ | .fpow rd _ _ => some rd
  | .mmul rd _ _ | .msqr rd _ | .tomont rd _ | .frommont rd _ | .mone rd | .mpow rd _ _ => some rd
  | .finv rd _ | .fdiv rd _ _ | .minv rd _ | .mdiv rd _ _ => some rd
  | .ainf _ | .agen _ | .aadd _ _ _ | .adbl _ _ | .atoj _ _ | .jtoa _ _ => none
  | .jinf _ | .jadd _ _ _ | .jdbl _ _ | .amul _ _ _ | .jmul _ _ _ => none

/-- The point register number a command writes to, if it writes one. -/
def destP : Instr → Option PReg
  | .nop | .cfgcommit | .fmov _ _ => none
  | .fadd _ _ _ | .fsub _ _ _ | .fneg _ _ | .fred _ _ | .fzero _ | .fone _ => none
  | .fmul _ _ _ | .fsqr _ _ | .fmuli _ _ _ | .fpow _ _ _ => none
  | .mmul _ _ _ | .msqr _ _ | .tomont _ _ | .frommont _ _ | .mone _ | .mpow _ _ _ => none
  | .finv _ _ | .fdiv _ _ _ | .minv _ _ | .mdiv _ _ _ => none
  | .pmov rd _ | .ainf rd | .agen rd | .aadd rd _ _ | .adbl rd _ | .atoj rd _ | .jtoa rd _ => some rd
  | .jinf rd | .jadd rd _ _ | .jdbl rd _ | .amul rd _ _ | .jmul rd _ _ => some rd

/-! ### The register index space (20_memory.md R60, R61) -/

/-- The four fields of a point register, in the order of their indices (10_state.md R23). -/
inductive PointField where
  | x
  | y
  | z
  | inf
  deriving DecidableEq, Repr

/-- The field of `f` in `0x20 + 4*i + f` (20_memory.md R61): 0 X, 1 Y, 2 Z, 3 INF. -/
def PointField.ofFin : Fin 4 → PointField
  | 0 => .x
  | 1 => .y
  | 2 => .z
  | 3 => .inf

/-- What a register index names (20_memory.md R61). -/
inductive Index where
  | field (i : FReg)
  | point (i : Fin 4) (f : PointField)
  | modulus
  | rconst
  | rinv
  | curveA
  | curveGx
  | curveGy
  | ctrl
  | cmd
  | status
  | unmapped
  deriving DecidableEq, Repr

/-- The register index map (20_memory.md R61). -/
def indexOf (idx : BitVec 8) : Index :=
  if idx.toNat < 0x10 then .field (Fin.ofNat 16 idx.toNat)
  else if 0x20 ≤ idx.toNat ∧ idx.toNat < 0x30 then
    .point (Fin.ofNat 4 ((idx.toNat - 0x20) / 4)) (PointField.ofFin (Fin.ofNat 4 (idx.toNat - 0x20)))
  else
    match idx with
    | 0x40#8 => .modulus
    | 0x41#8 => .rconst
    | 0x42#8 => .rinv
    | 0x43#8 => .curveA
    | 0x44#8 => .curveGx
    | 0x45#8 => .curveGy
    | 0x46#8 => .ctrl
    | 0x50#8 => .cmd
    | 0x51#8 => .status
    | _ => .unmapped

/-- The value a register holds now, as HostRead returns it (20_memory.md R63). -/
def State.current (s : State) : Index → Word s.width
  | .field i => s.f.get i
  | .point i .x => (s.p.get i).x
  | .point i .y => (s.p.get i).y
  | .point i .z => (s.p.get i).z
  | .point i .inf => Word.ofBit s.width (s.p.get i).inf
  | .modulus => s.modulus
  | .rconst => s.rconst
  | .rinv => s.rinv
  | .curveA => s.curveA
  | .curveGx => s.curveGx
  | .curveGy => s.curveGy
  | .ctrl => Word.ofBit s.width s.vtype
  | .cmd => Word.ofNat s.width s.lastCmd.toNat
  | .status => Word.ofNat s.width s.statusWord
  | .unmapped => 0

/-- The registers a command word in flight names as its destination, "fixed by the format of `INFLIGHT[31:24]`", whether or not
the command will fail (70_reset_and_hazards.md R287; 90_conflicts.md C9). -/
def isDestination (w : BitVec 32) : Index → Bool
  | .field i =>
    match formatOf (opcOf w) with
    | some .F1 | some .F2 | some .F3 | some .FI => decide (i = rdOf w)
    | _ => false
  | .point i _ =>
    match formatOf (opcOf w) with
    | some .P1 | some .P2 | some .P3 | some .PK => decide (i.val = (rdOf w).val)
    | _ => false
  | _ => false

/-- Whether a HostRead of the index is unspecified now (70_reset_and_hazards.md R287). -/
def State.readIsFree (s : State) (idx : BitVec 8) : Bool :=
  match s.inflight with
  | some w => isDestination w (indexOf idx)
  | none => false

/-! ### The host primitives -/

/-- The value `HostRead(idx)` returns (20_memory.md R63): an unknown word for a destination of the command in flight
(70_reset_and_hazards.md R287; log 5), else the current value. -/
def hostReadValue (idx : BitVec 8) (s : State) : Word s.width :=
  if s.readIsFree idx then Word.ofNat s.width (Config.busyRead idx s) else s.current (indexOf idx)

/-- `HostRead(idx)`: no state of the block changes (20_memory.md R63, R67); the value goes to the host, and a draw is used up. -/
def hostRead (idx : BitVec 8) (s : State) : State :=
  { s with
    hostReads := s.hostReads ++ [{ idx := idx, value := (hostReadValue idx s).toNat }]
    draws := if s.readIsFree idx then s.draws + 1 else s.draws }

/-- Acceptance of a command word (10_state.md R33): INFLIGHT and LASTCMD take it, BUSY becomes 1 with INFLIGHT, ERR 0. Its
latency is a free value of the word and of the state that accepts it, operands and all (70_reset_and_hazards.md R295; log 3). -/
def accept (w : BitVec 32) (s : State) : State :=
  { s with
    inflight := some w
    lastCmd := w
    err := .noError
    delay := Config.latency w s
    draws := s.draws + 1 }

/-- `HostWrite(idx, v)` while idle (20_memory.md R64). -/
def hostWriteIdle (s : State) (v : Word s.width) : Index → State
  | .field i => { s with f := s.f.set i v }
  | .point i .x => { s with p := s.p.set i { s.p.get i with x := v } }
  | .point i .y => { s with p := s.p.set i { s.p.get i with y := v } }
  | .point i .z => { s with p := s.p.set i { s.p.get i with z := v } }
  | .point i .inf => { s with p := s.p.set i { s.p.get i with inf := v.getLsbD 0 } }
  | .modulus => { s with modulus := v, fieldOk := false, montOk := false }
  | .rconst => { s with rconst := v, fieldOk := false, montOk := false }
  | .rinv => { s with rinv := v, fieldOk := false, montOk := false }
  | .curveA => { s with curveA := v }
  | .curveGx => { s with curveGx := v }
  | .curveGy => { s with curveGy := v }
  | .ctrl => { s with vtype := v.getLsbD 0 }
  | .cmd => accept (BitVec.ofNat 32 v.toNat) s
  | .status => s.clearStatus v
  | .unmapped => s

/-- `HostWrite(idx, v)` (20_memory.md R64): while busy it is dropped, and only BUSYWR is set (70_reset_and_hazards.md R286). -/
def hostWrite (idx : BitVec 8) (v : Nat) (s : State) : State :=
  match s.inflight with
  | some _ => { s with busyWr := true }
  | none => hostWriteIdle s (Word.ofNat s.width v) (indexOf idx)

/-- `HostReset()` (70_reset_and_hazards.md R270): every piece of the block's state at its reset value, a command in flight
abandoned, new unknown contents in F and P. W, the host's program and what it has read stay (log 13). -/
def hostReset (s : State) : State := State.resetAt s.width s.draws s.hostOps s.hostReads

/-- `ISSUE` of a command word (30_encoding.md R90): `HostWrite(0x50, word)`. -/
def issue (w : BitVec 32) : HostOp := .write 0x50#8 w.toNat

/-- One transaction of the host. WAIT is one poll of STATUS; it stays the next transaction until the poll finds BUSY = 0
(30_encoding.md R90; log 7). -/
def hostTransaction (op : HostOp) (s : State) : State :=
  match op with
  | .read idx => hostRead idx s
  | .write idx v => hostWrite idx v s
  | .wait => hostRead 0x51#8 (if s.busy then { s with hostOps := .wait :: s.hostOps } else s)
  | .reset => hostReset s

/-- The host's step: its next transaction, which uses up one of the transactions before the completion of a command in flight
(log 3). With no transaction left nothing happens and all state is kept (60_exceptions.md R266; log 6). -/
def hostStep (s : State) : State :=
  match s.hostOps with
  | [] => s
  | op :: rest => hostTransaction op { s with hostOps := rest, delay := s.delay - 1 }

/-- Whether the engine moves next: a command is in flight, and no host transaction comes before its completion, or the host has
none (log 3). -/
def State.engineTurn (s : State) : Bool := s.delay == 0 || s.hostOps.isEmpty

end Sys2Proof.Machine
end

