-- ==== Sys2Proof/Machine/AffineUnit.lean ====
section
/-! DEFINITION. Machine/AffineUnit: the commands of affine_point_add_double_unit (44_affine.md), all in the curve's domain. -/

namespace Sys2Proof.Machine

/-- AINF (44_affine.md R194). -/
def execAinf (rd : PReg) (s : State) : Host.Outcome State Fault Refusal := finish s do
  let d ← pointNumber rd
  requireConfig .curve s
  return s.writeAff d .inf

/-- AGEN (44_affine.md R195): the generator is not checked to lie on the curve. -/
def execAgen (rd : PReg) (s : State) : Host.Outcome State Fault Refusal := finish s do
  let d ← pointNumber rd
  requireConfig .curve s
  return s.writeAff d s.generator

/-- AADD (44_affine.md R196). -/
def execAadd (rd ra rb : PReg) (s : State) : Host.Outcome State Fault Refusal := finish s do
  let d ← pointNumber rd
  let a ← pointNumber ra
  let b ← pointNumber rb
  requireConfig .curve s
  let r ← affAdd s.curve s.A (s.readAff a) (s.readAff b)
  return s.writeAff d r

/-- ADBL (44_affine.md R197): `affAdd` of the point with itself. -/
def execAdbl (rd ra : PReg) (s : State) : Host.Outcome State Fault Refusal := finish s do
  let d ← pointNumber rd
  let a ← pointNumber ra
  requireConfig .curve s
  let r ← affAdd s.curve s.A (s.readAff a) (s.readAff a)
  return s.writeAff d r

/-- ATOJ (44_affine.md R198). -/
def execAtoj (rd ra : PReg) (s : State) : Host.Outcome State Fault Refusal := finish s do
  let d ← pointNumber rd
  let a ← pointNumber ra
  requireConfig .curve s
  return s.writeJac d (toJac s.curve (s.readAff a))

/-- JTOA (44_affine.md R199). -/
def execJtoa (rd ra : PReg) (s : State) : Host.Outcome State Fault Refusal := finish s do
  let d ← pointNumber rd
  let a ← pointNumber ra
  requireConfig .curve s
  let r ← toAff s.curve (s.readJac a)
  return s.writeAff d r

end Sys2Proof.Machine
end

