-- ==== Sys2Proof/Machine/Control.lean ====
section
/-! DEFINITION. Machine/Control: the control commands (40_control.md). -/

namespace Sys2Proof.Machine

/-- NOP (40_control.md R100): no effect besides the status. -/
def execNop (s : State) : Host.Outcome State Fault Refusal := finish s (.ok s)

/-- CFGCOMMIT (40_control.md R101): FIELD_OK and MONT_OK take the values of 10_state.md R36 whatever the outcome, then
CONFIG_INVALID is raised when the field is unusable, or when VTYPE = 1 and the Montgomery constants are. -/
def execCfgcommit (s : State) : Host.Outcome State Fault Refusal :=
  let t : State := { s with fieldOk := s.fieldUsable, montOk := s.montUsable }
  finish t
    (if s.fieldUsable = false then .error .configInvalid
     else if s.vtype = true ∧ s.montUsable = false then .error .configInvalid
     else .ok t)

/-- FMOV (40_control.md R102): a raw copy, no reduction. -/
def execFmov (rd ra : FReg) (s : State) : Host.Outcome State Fault Refusal := finish s (.ok (s.setF rd (s.f.get ra)))

/-- PMOV (40_control.md R103): a raw copy of all four fields. -/
def execPmov (rd ra : PReg) (s : State) : Host.Outcome State Fault Refusal := finish s do
  let d ← pointNumber rd
  let a ← pointNumber ra
  return s.setP d (s.p.get a)

end Sys2Proof.Machine
end

