-- ==== Sys2Proof/Machine/FieldAddSub.lean ====
section
/-! DEFINITION. Machine/FieldAddSub: the commands of field_adder_subtracter (41_field_add_sub.md). -/

namespace Sys2Proof.Machine

/-- FADD (41_field_add_sub.md R124). -/
def execFadd (rd ra rb : FReg) (s : State) : Host.Outcome State Fault Refusal := finish s do
  requireConfig .field s
  return s.writeF rd (modAdd s.M (s.elem ra) (s.elem rb))

/-- FSUB (41_field_add_sub.md R125). -/
def execFsub (rd ra rb : FReg) (s : State) : Host.Outcome State Fault Refusal := finish s do
  requireConfig .field s
  return s.writeF rd (modSub s.M (s.elem ra) (s.elem rb))

/-- FNEG (41_field_add_sub.md R126): of 0 it is 0, not M (90_conflicts.md C1). -/
def execFneg (rd ra : FReg) (s : State) : Host.Outcome State Fault Refusal := finish s do
  requireConfig .field s
  return s.writeF rd (modNeg s.M (s.elem ra))

/-- FRED (41_field_add_sub.md R127). -/
def execFred (rd ra : FReg) (s : State) : Host.Outcome State Fault Refusal := finish s do
  requireConfig .field s
  return s.writeF rd (s.elem ra)

/-- FZERO (41_field_add_sub.md R128). -/
def execFzero (rd : FReg) (s : State) : Host.Outcome State Fault Refusal := finish s do
  requireConfig .field s
  return s.writeF rd (0)

/-- FONE (41_field_add_sub.md R129): the standard domain's one, `one_0`. -/
def execFone (rd : FReg) (s : State) : Host.Outcome State Fault Refusal := finish s do
  requireConfig .field s
  return s.writeF rd (oneD (s.domain false))

end Sys2Proof.Machine
end

