-- ==== Sys2Proof/Machine/Inverse.lean ====
section
/-! DEFINITION. Machine/Inverse: the commands of modular_inverse_engine (43_inverse.md). -/

namespace Sys2Proof.Machine

/-- FINV (43_inverse.md R172). -/
def execFinv (rd ra : FReg) (s : State) : Host.Outcome State Fault Refusal := finish s do
  requireConfig .field s
  let v ← modInv s.M (s.elem ra)
  return s.writeF rd v

/-- FDIV (43_inverse.md R173). -/
def execFdiv (rd ra rb : FReg) (s : State) : Host.Outcome State Fault Refusal := finish s do
  requireConfig .field s
  let v ← divD (s.domain false) (s.elem ra) (s.elem rb)
  return s.writeF rd v

/-- MINV (43_inverse.md R174): `div_1(one_1, a)`. -/
def execMinv (rd ra : FReg) (s : State) : Host.Outcome State Fault Refusal := finish s do
  requireConfig .mont s
  let v ← divD (s.domain true) (oneD (s.domain true)) (s.elem ra)
  return s.writeF rd v

/-- MDIV (43_inverse.md R175). -/
def execMdiv (rd ra rb : FReg) (s : State) : Host.Outcome State Fault Refusal := finish s do
  requireConfig .mont s
  let v ← divD (s.domain true) (s.elem ra) (s.elem rb)
  return s.writeF rd v

end Sys2Proof.Machine
end

