-- ==== Sys2Proof/Machine/JacobianUnit.lean ====
section
/-! DEFINITION. Machine/JacobianUnit: the commands of jacobian_point_add_double_unit (45_jacobian.md), all in the curve's domain. -/

namespace Sys2Proof.Machine

/-- JINF (45_jacobian.md R217): Y is `one_d`. -/
def execJinf (rd : PReg) (s : State) : Host.Outcome State Fault Refusal := finish s do
  let d ← pointNumber rd
  requireConfig .curve s
  return s.writeJac d (jacInf s.curve)

/-- JADD (45_jacobian.md R218): it raises no inversion error. -/
def execJadd (rd ra rb : PReg) (s : State) : Host.Outcome State Fault Refusal := finish s do
  let d ← pointNumber rd
  let a ← pointNumber ra
  let b ← pointNumber rb
  requireConfig .curve s
  return s.writeJac d (jacAdd s.curve s.A (s.readJac a) (s.readJac b))

/-- JDBL (45_jacobian.md R219): `jacAdd` of the point with itself. -/
def execJdbl (rd ra : PReg) (s : State) : Host.Outcome State Fault Refusal := finish s do
  let d ← pointNumber rd
  let a ← pointNumber ra
  requireConfig .curve s
  return s.writeJac d (jacAdd s.curve s.A (s.readJac a) (s.readJac a))

end Sys2Proof.Machine
end

