-- ==== Sys2Proof/Machine/Multiplier.lean ====
section
/-! DEFINITION. Machine/Multiplier: the commands of montgomery_multiplier (42_multiplier.md), in the standard domain and in the
Montgomery domain. -/

namespace Sys2Proof.Machine

/-- FMUL (42_multiplier.md R148). -/
def execFmul (rd ra rb : FReg) (s : State) : Host.Outcome State Fault Refusal := finish s do
  requireConfig .field s
  return s.writeF rd (modMul s.M (s.elem ra) (s.elem rb))

/-- FSQR (42_multiplier.md R149). -/
def execFsqr (rd ra : FReg) (s : State) : Host.Outcome State Fault Refusal := finish s do
  requireConfig .field s
  return s.writeF rd (modMul s.M (s.elem ra) (s.elem ra))

/-- FMULI (42_multiplier.md R150). -/
def execFmuli (rd ra : FReg) (imm : Imm) (s : State) : Host.Outcome State Fault Refusal := finish s do
  requireConfig .field s
  return s.writeF rd (modMulSmall s.M imm.toNat (s.elem ra))

/-- FPOW (42_multiplier.md R151): the exponent is read raw. -/
def execFpow (rd ra rb : FReg) (s : State) : Host.Outcome State Fault Refusal := finish s do
  requireConfig .field s
  return s.writeF rd (powD (s.domain false) s.width.bits (s.elem ra) (s.F rb))

/-- MMUL (42_multiplier.md R152). -/
def execMmul (rd ra rb : FReg) (s : State) : Host.Outcome State Fault Refusal := finish s do
  requireConfig .mont s
  return s.writeF rd (mulD (s.domain true) (s.elem ra) (s.elem rb))

/-- MSQR (42_multiplier.md R153). -/
def execMsqr (rd ra : FReg) (s : State) : Host.Outcome State Fault Refusal := finish s do
  requireConfig .mont s
  return s.writeF rd (mulD (s.domain true) (s.elem ra) (s.elem ra))

/-- TOMONT (42_multiplier.md R154): `enc_1(x)`. -/
def execTomont (rd ra : FReg) (s : State) : Host.Outcome State Fault Refusal := finish s do
  requireConfig .mont s
  return s.writeF rd (modMul s.M (s.elem ra) s.R')

/-- FROMMONT (42_multiplier.md R155): `dec_1(y)`. -/
def execFrommont (rd ra : FReg) (s : State) : Host.Outcome State Fault Refusal := finish s do
  requireConfig .mont s
  return s.writeF rd (modMul s.M (s.elem ra) s.RI')

/-- MONE (42_multiplier.md R156): `one_1 = red(CFG.RCONST)`. -/
def execMone (rd : FReg) (s : State) : Host.Outcome State Fault Refusal := finish s do
  requireConfig .mont s
  return s.writeF rd (oneD (s.domain true))

/-- MPOW (42_multiplier.md R157): the exponent is a plain integer, read raw. -/
def execMpow (rd ra rb : FReg) (s : State) : Host.Outcome State Fault Refusal := finish s do
  requireConfig .mont s
  return s.writeF rd (powD (s.domain true) s.width.bits (s.elem ra) (s.F rb))

end Sys2Proof.Machine
end

