-- ==== Sys2Proof/Machine/ScalarMult.lean ====
section
/-! DEFINITION. Machine/ScalarMult: the commands of scalar_multiplier_engine (46_scalar_mult.md). RB names the field register that
holds the scalar, read raw. -/

namespace Sys2Proof.Machine

/-- AMUL (46_scalar_mult.md R232): the first error of any `affAdd` ends it. -/
def execAmul (rd ra : PReg) (rb : FReg) (s : State) : Host.Outcome State Fault Refusal := finish s do
  let d ← pointNumber rd
  let a ← pointNumber ra
  requireConfig .curve s
  let r ← affMul s.curve s.A s.width.bits (s.readAff a) (s.F rb)
  return s.writeAff d r

/-- JMUL (46_scalar_mult.md R233): it raises no inversion error. -/
def execJmul (rd ra : PReg) (rb : FReg) (s : State) : Host.Outcome State Fault Refusal := finish s do
  let d ← pointNumber rd
  let a ← pointNumber ra
  requireConfig .curve s
  return s.writeJac d (jacMul s.curve s.A s.width.bits (s.readJac a) (s.F rb))

end Sys2Proof.Machine
end

