-- ==== Sys2Proof/Machine/Dispatch.lean ====
section
/-! DEFINITION. Machine/Dispatch: the meaning of each command, one arm per constructor of Instr. -/

namespace Sys2Proof.Machine

def exec (i : Instr) (s : State) : Host.Outcome State Fault Refusal :=
  match i with
  -- control (40_control.md)
  | .nop => Sys2Proof.Machine.execNop s
  | .cfgcommit => Sys2Proof.Machine.execCfgcommit s
  | .fmov rd ra => Sys2Proof.Machine.execFmov rd ra s
  | .pmov rd ra => Sys2Proof.Machine.execPmov rd ra s
  -- field_adder_subtracter (41_field_add_sub.md)
  | .fadd rd ra rb => Sys2Proof.Machine.execFadd rd ra rb s
  | .fsub rd ra rb => Sys2Proof.Machine.execFsub rd ra rb s
  | .fneg rd ra => Sys2Proof.Machine.execFneg rd ra s
  | .fred rd ra => Sys2Proof.Machine.execFred rd ra s
  | .fzero rd => Sys2Proof.Machine.execFzero rd s
  | .fone rd => Sys2Proof.Machine.execFone rd s
  -- montgomery_multiplier (42_multiplier.md)
  | .fmul rd ra rb => Sys2Proof.Machine.execFmul rd ra rb s
  | .fsqr rd ra => Sys2Proof.Machine.execFsqr rd ra s
  | .fmuli rd ra imm => Sys2Proof.Machine.execFmuli rd ra imm s
  | .fpow rd ra rb => Sys2Proof.Machine.execFpow rd ra rb s
  | .mmul rd ra rb => Sys2Proof.Machine.execMmul rd ra rb s
  | .msqr rd ra => Sys2Proof.Machine.execMsqr rd ra s
  | .tomont rd ra => Sys2Proof.Machine.execTomont rd ra s
  | .frommont rd ra => Sys2Proof.Machine.execFrommont rd ra s
  | .mone rd => Sys2Proof.Machine.execMone rd s
  | .mpow rd ra rb => Sys2Proof.Machine.execMpow rd ra rb s
  -- modular_inverse_engine (43_inverse.md)
  | .finv rd ra => Sys2Proof.Machine.execFinv rd ra s
  | .fdiv rd ra rb => Sys2Proof.Machine.execFdiv rd ra rb s
  | .minv rd ra => Sys2Proof.Machine.execMinv rd ra s
  | .mdiv rd ra rb => Sys2Proof.Machine.execMdiv rd ra rb s
  -- affine_point_add_double_unit (44_affine.md)
  | .ainf rd => Sys2Proof.Machine.execAinf rd s
  | .agen rd => Sys2Proof.Machine.execAgen rd s
  | .aadd rd ra rb => Sys2Proof.Machine.execAadd rd ra rb s
  | .adbl rd ra => Sys2Proof.Machine.execAdbl rd ra s
  | .atoj rd ra => Sys2Proof.Machine.execAtoj rd ra s
  | .jtoa rd ra => Sys2Proof.Machine.execJtoa rd ra s
  -- jacobian_point_add_double_unit (45_jacobian.md)
  | .jinf rd => Sys2Proof.Machine.execJinf rd s
  | .jadd rd ra rb => Sys2Proof.Machine.execJadd rd ra rb s
  | .jdbl rd ra => Sys2Proof.Machine.execJdbl rd ra s
  -- scalar_multiplier_engine (46_scalar_mult.md)
  | .amul rd ra rb => Sys2Proof.Machine.execAmul rd ra rb s
  | .jmul rd ra rb => Sys2Proof.Machine.execJmul rd ra rb s

end Sys2Proof.Machine
end

