-- ==== Sys2Proof/Machine/Engine.lean ====
section
/-! DEFINITION. Machine/Engine: what the engine does with the command word in flight. -/

namespace Sys2Proof.Machine

/-- The engine's step on a command word (70_reset_and_hazards.md R285): an illegal word completes with ILLEGAL_COMMAND
(30_encoding.md R86), a legal one is executed. -/
def engineStep (w : BitVec 32) (s : State) : Host.Outcome State Fault Refusal :=
  match decode w with
  | .error _ => finish s (.error .illegalCommand)
  | .ok i => exec i s

end Sys2Proof.Machine
end

