-- ==== Sys2Proof/Machine/Step.lean ====
section
/-! DEFINITION. Machine/Step: one step of the machine: the engine completes the command in flight, or the host performs its next
transaction. -/

namespace Sys2Proof.Machine

/-- One step (00_scope.md R17; 20_memory.md R68): host and engine act one at a time, and each action is atomic. -/
def step (s : State) : Host.Outcome State Fault Refusal :=
  match s.inflight with
  | some w => if s.engineTurn then engineStep w s else .next (hostStep s)
  | none => .next (hostStep s)

/-- `s` with a command word accepted (10_state.md R33) and the engine to move next. The block fetches nothing (10_state.md R32): it
runs the word in INFLIGHT. The word is given by its bits below `nbits` (log 4). -/
def State.withFetchWord (s : State) (nbits w : Nat) : State :=
  let word : BitVec 32 := BitVec.ofNat 32 (w % 2 ^ nbits)
  { s with inflight := some word, lastCmd := word, err := .noError, delay := 0 }

end Sys2Proof.Machine
end

