-- ==== Sys2Proof/Safety.lean ====
section
/-! DEFINITION. Safety: the states a run can be in, as an invariant of the block, what it means for a command's result to be
canonical, and the logical value of a residue. -/

namespace Sys2Proof.Machine

/-- The configuration flags tell the truth (10_state.md R35, R36): FIELD_OK = 1 only with a usable modulus, MONT_OK = 1 only with
FIELD_OK = 1 and usable Montgomery constants. -/
abbrev State.ConfigSound (s : State) : Prop :=
  (s.fieldOk = true → 2 ≤ s.M) ∧ (s.montOk = true → s.fieldOk = true ∧ (s.R' * s.RI') % s.M = 1)

/-- The command in flight (10_state.md R33, R34, R31): while one is, LASTCMD holds it and ERR is 0; while none is, no completion is
awaited. -/
abbrev State.FlightSound (s : State) : Prop :=
  (s.inflight = none ∧ s.delay = 0) ∨ (s.inflight = some s.lastCmd ∧ s.err = .noError)

/-- The invariant of the machine: it holds at reset and every step keeps it. -/
abbrev State.Inv (s : State) : Prop := s.ConfigSound ∧ s.FlightSound

/-- The block is configured for the commands of class field (60_exceptions.md R253). -/
abbrev State.FieldReady (s : State) : Prop := s.fieldOk = true ∧ 2 ≤ s.M

/-- The block is configured for the commands of class mont (60_exceptions.md R253). -/
abbrev State.MontReady (s : State) : Prop := s.FieldReady ∧ s.montOk = true ∧ (s.R' * s.RI') % s.M = 1

/-- The block is configured for the commands of class curve (60_exceptions.md R253). -/
abbrev State.CurveReady (s : State) : Prop := s.FieldReady ∧ (s.vtype = true → s.montOk = true ∧ (s.R' * s.RI') % s.M = 1)

/-- A canonical value: "a value in `[0, M)`" (00_scope.md R16). -/
abbrev State.Canonical (s : State) (v : Nat) : Prop := v < s.M

/-- A residue of domain `D` as an element of `ZMod M`: the logical value it stands for (42_multiplier.md R143). -/
def logical (D : Domain) (v : Nat) : ZMod D.M := (decD D v : Nat)

/-- A domain whose constants are usable: in the Montgomery domain `R'·RI' = 1 (mod M)` (42_multiplier.md R146). -/
abbrev Domain.Usable (D : Domain) : Prop := 2 ≤ D.M ∧ D.R < D.M ∧ D.RI < D.M ∧ (D.mont = true → (D.R * D.RI) % D.M = 1)

/-- Canonical coordinates (44_affine.md R190). -/
def Affine.Canonical (M : Nat) : Affine → Prop
  | .inf => True
  | .pt x y => x < M ∧ y < M

/-- Canonical coordinates (45_jacobian.md R215). -/
def Jacobian.Canonical (M : Nat) (J : Jacobian) : Prop := J.x < M ∧ J.y < M ∧ J.z < M

end Sys2Proof.Machine
end

