-- ==== Sys2Proof/Certificates/Slice0/Obligations.lean ====
section
/-! DEFINITION. Certificates/Slice0/Obligations: the statements about the block, for the provers. The first part names the states and
the clauses that the statements share; each statement is a `def Obligations.<Name> : Prop`. -/

namespace Sys2Proof.Machine

/-! ### The states in which commands end -/

/-- `s` with nothing written and the command completed: ERR 0, idle. -/
def done (s : State) : State := { s with err := .noError, inflight := none, delay := 0 }

/-- `s` with `F[d]` written and the command completed. -/
def wroteF (s : State) (d : FReg) (v : Nat) : State :=
  { s with f := s.f.set d (BitVec.ofNat s.width.bits v), err := .noError, inflight := none, delay := 0 }

/-- `s` with the four fields of `P[d]` written and the command completed. -/
def wroteP (s : State) (d : Fin 4) (x y z : Nat) (inf : Bool) : State :=
  { s with
    p := s.p.set d { x := BitVec.ofNat s.width.bits x, y := BitVec.ofNat s.width.bits y, z := BitVec.ofNat s.width.bits z, inf := inf }
    err := .noError
    inflight := none
    delay := 0 }

/-- `s` with an affine result written to `P[d]`: infinity as `(0, 0, 0, 1)`, a finite point as `(x, y, 0, 0)`. -/
def wroteAff (s : State) (d : Fin 4) : Affine → State
  | .inf => wroteP s d 0 0 0 true
  | .pt x y => wroteP s d x y 0 false

/-- `s` after a command that raised `c`: ERR and STICKY set, idle, nothing else changed. -/
def failed (s : State) (c : StatusCode) : State := { s with err := c, sticky := true, inflight := none, delay := 0 }

/-- The number of a point register as an operand. -/
def pnum (d : Fin 4) : PReg := ⟨d.val, by omega⟩

/-! ### Clauses of the command rules -/

/-- The encoding of a command: the words with opcode `opc` that are legal for format `fmt` decode to `k` of their fields, and the
others complete with ILLEGAL_COMMAND. Every word with that opcode is `commandWord opc rd ra rb imm` for some fields. -/
def EncodedAs (opc : BitVec 8) (fmt : Format) (k : Fin 16 → Fin 16 → Fin 16 → Imm → Instr) : Prop :=
  ∀ (rd ra rb : Fin 16) (imm : Imm),
    let isLegal := legalField fmt.rd rd.val && legalField fmt.ra ra.val && legalField fmt.rb rb.val && legalField fmt.imm imm.toNat
    (isLegal = true → decode (commandWord opc rd ra rb imm) = .ok (k rd ra rb imm)) ∧
    (isLegal = false → ∀ s : State, engineStep (commandWord opc rd ra rb imm) s = .next (failed s .illegalCommand))

/-- Class field: NOT_CONFIGURED when FIELD_OK is 0. -/
def NeedsField (i : Instr) : Prop := ∀ s : State, s.fieldOk = false → exec i s = .next (failed s .notConfigured)

/-- Class mont: NOT_CONFIGURED when FIELD_OK is 0, then MONT_NOT_CONFIGURED when MONT_OK is 0. -/
def NeedsMont (i : Instr) : Prop :=
  NeedsField i ∧ ∀ s : State, s.fieldOk = true → s.montOk = false → exec i s = .next (failed s .montNotConfigured)

/-- Class curve: NOT_CONFIGURED when FIELD_OK is 0, then, if VTYPE is 1, MONT_NOT_CONFIGURED when MONT_OK is 0. -/
def NeedsCurve (i : Instr) : Prop :=
  NeedsField i ∧
    ∀ s : State, s.fieldOk = true → s.vtype = true → s.montOk = false → exec i s = .next (failed s .montNotConfigured)

/-! ### Parts of the state, compared between two states -/

/-- The width and every configuration register are the same. -/
def SameConfig (s t : State) : Prop :=
  t.width = s.width ∧ t.M = s.M ∧ t.rconst.toNat = s.rconst.toNat ∧ t.rinv.toNat = s.rinv.toNat ∧
    t.curveA.toNat = s.curveA.toNat ∧ t.curveGx.toNat = s.curveGx.toNat ∧ t.curveGy.toNat = s.curveGy.toNat ∧ t.vtype = s.vtype

/-- One point register is the same. -/
def SamePoint (s t : State) (r : Fin 4) : Prop := t.PX r = s.PX r ∧ t.PY r = s.PY r ∧ t.PZ r = s.PZ r ∧ t.PINF r = s.PINF r

/-- The model's own host side is the same. -/
def SameHost (s t : State) : Prop := t.draws = s.draws ∧ t.hostOps = s.hostOps ∧ t.hostReads = s.hostReads

/-- The affine form of a Jacobian value is `r` (44_affine.md R193). -/
def HasAffineForm (D : Domain) (J : Jacobian) (r : Affine) : Prop := toAff D J = .ok r

/-- Residues entered into the Montgomery domain. -/
def encAffine (D : Domain) : Affine → Affine
  | .inf => .inf
  | .pt x y => .pt (encD D x) (encD D y)

def encJacobian (D : Domain) (J : Jacobian) : Jacobian := { x := encD D J.x, y := encD D J.y, z := encD D J.z }

end Sys2Proof.Machine

open Sys2Proof Sys2Proof.Machine

/-! ## Encoding -/

/-- 30_encoding.md R80: the fields of a word and the word of its fields. -/
def Obligations.CommandWordFields : Prop :=
  (∀ (opc : BitVec 8) (rd ra rb : Fin 16) (imm : Imm),
    let w := commandWord opc rd ra rb imm
    w.toNat = opc.toNat * 2 ^ 24 + rd.val * 2 ^ 20 + ra.val * 2 ^ 16 + rb.val * 2 ^ 12 + imm.toNat ∧
      opcOf w = opc ∧ rdOf w = rd ∧ raOf w = ra ∧ rbOf w = rb ∧ immOf w = imm) ∧
  ∀ w : BitVec 32, commandWord (opcOf w) (rdOf w) (raOf w) (rbOf w) (immOf w) = w

/-- Decode and encode agree: every well-formed command comes back from its word. -/
def Obligations.DecodeOfEncode : Prop := ∀ i : Instr, i.wf = true → decode (encode i) = .ok i

/-- The other direction: a word that decodes is the encoding of a well-formed command, so each command has one word. -/
def Obligations.EncodeOfDecode : Prop := ∀ (w : BitVec 32) (i : Instr), decode w = .ok i → i.wf = true ∧ encode i = w

/-- 30_encoding.md R86: the decoder accepts exactly the legal words, and an illegal word completes with ILLEGAL_COMMAND and writes no
register. -/
def Obligations.DecoderAcceptsExactlyLegalWords : Prop :=
  ∀ w : BitVec 32,
    ((∃ i, decode w = .ok i) ↔ legal w = true) ∧
    ((∃ fmt, formatOf (opcOf w) = some fmt ∧
        (fmt.rd = .zero → rdOf w = 0) ∧ (fmt.rd = .pointReg → (rdOf w).val ≤ 3) ∧
        (fmt.ra = .zero → raOf w = 0) ∧ (fmt.ra = .pointReg → (raOf w).val ≤ 3) ∧
        (fmt.rb = .zero → rbOf w = 0) ∧ (fmt.rb = .pointReg → (rbOf w).val ≤ 3) ∧
        (fmt.imm = .zero → immOf w = 0)) ↔ legal w = true) ∧
    (legal w = false → ∀ s : State, engineStep w s = .next (failed s .illegalCommand))

/-- 30_encoding.md R85, its first two sentences: 221 reserved opcodes, each completing with ILLEGAL_COMMAND whatever its fields. -/
def Obligations.ReservedOpcodesAreIllegal : Prop :=
  ((List.range 256).filter fun n => (formatOf (BitVec.ofNat 8 n)).isNone).length = 221 ∧
  ∀ (w : BitVec 32) (s : State), formatOf (opcOf w) = none → s.inflight = some w → s.engineTurn = true →
    step s = .next (failed s .illegalCommand)

/-- 30_encoding.md R91: the worked encodings, the illegal one among them. -/
def Obligations.WorkedEncodings : Prop :=
  decode 0x00000000#32 = .ok .nop ∧ decode 0x01000000#32 = .ok .cfgcommit ∧ decode 0x10312000#32 = .ok (.fadd 3 1 2) ∧
  decode 0x22440003#32 = .ok (.fmuli 4 4 3) ∧ decode 0x28201000#32 = .ok (.mmul 2 0 1) ∧
  decode 0x31301000#32 = .ok (.fdiv 3 0 1) ∧ decode 0x42201000#32 = .ok (.aadd 2 0 1) ∧
  decode 0x61105000#32 = .ok (.jmul 1 0 5) ∧ decode 0x42204000#32 = .error (.pointNumber .rb)

/-! ## The machine -/

/-- A step runs the decoded command: on the engine's turn the step is `exec` of the command in flight; on the host's turn it is the
host's next transaction. "The engine's completion of the in-flight command ... is one atomic step, ordered between two host
transactions" (20_memory.md R68; 70_reset_and_hazards.md R285). That `delay`, a count of transactions, says whose turn it is, and that
the host's transactions are the list `hostOps`, is the model's choice (logs 3 and 4). The last clause, an idle block with no
transaction to come, is "all state is kept while idle" (60_exceptions.md R266; DEDUCED, log 6). -/
def Obligations.StepRunsCommandInFlight : Prop :=
  (∀ (s : State) (w : BitVec 32) (i : Instr), s.inflight = some w → s.delay = 0 ∨ s.hostOps = [] → decode w = .ok i →
    step s = exec i s) ∧
  (∀ (s : State) (op : HostOp) (rest : List HostOp), s.inflight = none ∨ s.delay ≠ 0 → s.hostOps = op :: rest →
    step s = .next (hostTransaction op { s with hostOps := rest, delay := s.delay - 1 })) ∧
  ∀ s : State, s.inflight = none → s.hostOps = [] → step s = .next s

/-- Totality (00_scope.md R19, its first sentence): every command word, legal or not, has an outcome on every state, and so has
every step. No step faults or refuses. -/
def Obligations.EveryStepAnswersNext : Prop :=
  (∀ (w : BitVec 32) (s : State), ∃ t, engineStep w s = .next t ∧ t.inflight = none) ∧
  (∀ (i : Instr) (s : State), ∃ t, exec i s = .next t ∧ t.inflight = none) ∧
  ∀ s : State, ∃ t, step s = .next t

/-- The invariant that every step keeps: the configuration flags tell the truth (10_state.md R35, R36) and the in-flight state is
consistent (R33, R34). -/
def Obligations.StepKeepsInvariant : Prop := ∀ s t : State, s.Inv → step s = .next t → t.Inv ∧ t.width = s.width

/-- The invariant holds after reset, at either width and whatever the unknown contents. -/
def Obligations.ResetEstablishesInvariant : Prop :=
  State.reset.Inv ∧ ∀ (w : Width) (d : Nat) (ops : List HostOp) (reads : List HostRead), (State.resetAt w d ops reads).Inv

/-- 70_reset_and_hazards.md R270, R271 and 10_state.md R37: HostReset, of an idle or of a busy block, abandons the command in flight,
gives the configuration, CTRL, STATUS and LASTCMD the value 0, and leaves the block idle in the standard domain with no valid
configuration; a read of STATUS then returns 0. Nothing that F and P held before it can be found after it. That F and P then hold free
values is the model's choice (log 2), and this says nothing of their values. -/
def Obligations.HostResetDiscardsEverything : Prop :=
  (∀ (s : State) (rest : List HostOp), s.inflight = none ∨ s.delay ≠ 0 → s.hostOps = .reset :: rest →
    ∃ t, step s = .next t ∧ t.inflight = none ∧ t.M = 0 ∧ t.rconst.toNat = 0 ∧ t.rinv.toNat = 0 ∧ t.curveA.toNat = 0 ∧
      t.curveGx.toNat = 0 ∧ t.curveGy.toNat = 0 ∧ t.vtype = false ∧ t.fieldOk = false ∧ t.montOk = false ∧ t.err = .noError ∧
      t.sticky = false ∧ t.busyWr = false ∧ t.lastCmd = 0 ∧ t.hostOps = rest ∧ (hostReadValue 0x51#8 t).toNat = 0) ∧
  ∀ s s' : State, s.width = s'.width → SameHost s s' → hostReset s = hostReset s'

/-- 10_state.md R33: BUSY is 1 exactly when a command is in flight; a write of CMD while idle is accepted with bits above 31 ignored and
nothing else changed but the model's own latency and draws; completion makes the block idle; a second write of CMD is not accepted. -/
def Obligations.CommandAcceptanceAndCompletion : Prop :=
  (∀ s : State, s.statusWord % 2 = 1 ↔ s.inflight ≠ none) ∧
  (∀ (s : State) (v : Nat), s.inflight = none → ∃ d n, hostWrite 0x50#8 v s =
    { s with inflight := some (BitVec.ofNat 32 v), lastCmd := BitVec.ofNat 32 v, err := .noError, delay := d, draws := n }) ∧
  (∀ (i : Instr) (s t : State), exec i s = .next t → t.inflight = none ∧ t.statusWord % 2 = 0) ∧
  ∀ (s : State) (v : Nat), s.inflight ≠ none → (hostWrite 0x50#8 v s).inflight = s.inflight

/-- 10_state.md R34: LASTCMD resets to 0, a read of CMD returns it, a write of CMD changes it only when it is accepted, and it then
holds the accepted word; no other write, no read and no completion changes it. -/
def Obligations.LastCmdHoldsLastAcceptedWord : Prop :=
  (∀ s : State, (hostReset s).lastCmd = 0) ∧
  (∀ s : State, (hostReadValue 0x50#8 s).toNat = s.lastCmd.toNat) ∧
  (∀ (s : State) (idx : BitVec 8) (v : Nat),
    (hostWrite idx v s).lastCmd = if s.inflight = none ∧ idx = 0x50#8 then BitVec.ofNat 32 v else s.lastCmd) ∧
  (∀ (s : State) (idx : BitVec 8), (hostRead idx s).lastCmd = s.lastCmd) ∧
  ∀ (w : BitVec 32) (s t : State), engineStep w s = .next t → t.lastCmd = s.lastCmd

/-- 10_state.md R35: an idle write of MODULUS, RCONST or RINV clears FIELD_OK and MONT_OK, even of the old value; a write of the curve
registers or CTRL leaves both. -/
def Obligations.DescriptorWriteClearsFlags : Prop :=
  (∀ (s : State) (idx : BitVec 8) (v : Nat), s.inflight = none → idx ∈ [0x40#8, 0x41#8, 0x42#8] →
    (hostWrite idx v s).fieldOk = false ∧ (hostWrite idx v s).montOk = false) ∧
  ∀ (s : State) (idx : BitVec 8) (v : Nat), s.inflight = none → idx ∈ [0x43#8, 0x44#8, 0x45#8, 0x46#8] →
    (hostWrite idx v s).fieldOk = s.fieldOk ∧ (hostWrite idx v s).montOk = s.montOk

/-- 20_memory.md R62: an unmapped index reads 0; a write to it has no effect while idle and is dropped while busy. -/
def Obligations.UnmappedIndices : Prop :=
  ∀ (idx : BitVec 8) (s : State),
    (0x10 ≤ idx.toNat ∧ idx.toNat ≤ 0x1F) ∨ (0x30 ≤ idx.toNat ∧ idx.toNat ≤ 0x3F) ∨ (0x47 ≤ idx.toNat ∧ idx.toNat ≤ 0x4F) ∨
      0x52 ≤ idx.toNat →
    (hostReadValue idx s).toNat = 0 ∧
    (∀ v, s.inflight = none → hostWrite idx v s = s) ∧
    ∀ v, s.inflight ≠ none → hostWrite idx v s = { s with busyWr := true }

/-- Idle transactions (20_memory.md R61, R63, R64, R67). A write of a plain register is what the next read of its index returns (bit 0
of it for INF and CTRL); every other index but STATUS reads as before; of STATUS only FIELD_OK and MONT_OK may change, and only by a
write of MODULUS, RCONST or RINV (10_state.md R31, R35); nothing is put in flight. A read returns the current value of the register of
its index and changes nothing of the block: "reading STATUS does not clear it, and reading CMD does not issue a command". That the
value goes to the list `hostReads` is the model's form (log 4). -/
def Obligations.IdleWriteThenRead : Prop :=
  (∀ (s : State) (idx : BitVec 8) (v : Nat), s.inflight = none →
    idx.toNat < 0x10 ∨ (0x20 ≤ idx.toNat ∧ idx.toNat < 0x30) ∨ (0x40 ≤ idx.toNat ∧ idx.toNat ≤ 0x46) →
    let t := hostWrite idx v s
    ((hostReadValue idx t).toNat =
      if idx = 0x46#8 ∨ (0x20 ≤ idx.toNat ∧ idx.toNat < 0x30 ∧ idx.toNat % 4 = 3) then v % 2 else v % 2 ^ s.width.bits) ∧
    (∀ j : BitVec 8, j ≠ idx → j ≠ 0x51#8 → (hostReadValue j t).toNat = (hostReadValue j s).toNat) ∧
    t.inflight = none ∧ t.err = s.err ∧ t.sticky = s.sticky ∧ t.busyWr = s.busyWr ∧ t.delay = s.delay ∧ SameHost s t ∧
    (idx ∉ [0x40#8, 0x41#8, 0x42#8] → t.fieldOk = s.fieldOk ∧ t.montOk = s.montOk)) ∧
  ∀ s : State, s.inflight = none →
    (∀ idx : BitVec 8, hostRead idx s =
      { s with hostReads := s.hostReads ++ [{ idx := idx, value := (hostReadValue idx s).toNat }] }) ∧
    (∀ i : FReg, (hostReadValue (BitVec.ofNat 8 i.val) s).toNat = s.F i) ∧
    (∀ d : Fin 4,
      (hostReadValue (BitVec.ofNat 8 (0x20 + 4 * d.val)) s).toNat = s.PX d ∧
      (hostReadValue (BitVec.ofNat 8 (0x21 + 4 * d.val)) s).toNat = s.PY d ∧
      (hostReadValue (BitVec.ofNat 8 (0x22 + 4 * d.val)) s).toNat = s.PZ d ∧
      (hostReadValue (BitVec.ofNat 8 (0x23 + 4 * d.val)) s).toNat = (s.PINF d).toNat) ∧
    (hostReadValue 0x40#8 s).toNat = s.M ∧ (hostReadValue 0x41#8 s).toNat = s.rconst.toNat ∧
    (hostReadValue 0x42#8 s).toNat = s.rinv.toNat ∧ (hostReadValue 0x43#8 s).toNat = s.curveA.toNat ∧
    (hostReadValue 0x44#8 s).toNat = s.curveGx.toNat ∧ (hostReadValue 0x45#8 s).toNat = s.curveGy.toNat ∧
    (hostReadValue 0x46#8 s).toNat = s.vtype.toNat ∧ (hostReadValue 0x50#8 s).toNat = s.lastCmd.toNat ∧
    (hostReadValue 0x51#8 s).toNat = s.statusWord

/-- STATUS (10_state.md R31): its fields at their bits, the reserved bits 0, and a write while idle clears STICKY by bit 8 and BUSYWR by
bit 11 and changes nothing else. -/
def Obligations.StatusRegister : Prop :=
  (∀ s : State,
    let v := (hostReadValue 0x51#8 s).toNat
    v.testBit 0 = s.busy ∧ bitField v 3 1 = 0 ∧ bitField v 7 4 = s.err.code ∧ v.testBit 8 = s.sticky ∧ v.testBit 9 = s.fieldOk ∧
      v.testBit 10 = s.montOk ∧ v.testBit 11 = s.busyWr ∧ v / 2 ^ 12 = 0) ∧
  ∀ (s : State) (v : Nat), s.inflight = none → hostWrite 0x51#8 v s =
    { s with sticky := s.sticky && !v.testBit 8, busyWr := s.busyWr && !v.testBit 11 }

/-- "A HostWrite of any index while `INFLIGHT != none` has no effect except `STATUS.BUSYWR <- 1`" (70_reset_and_hazards.md R286): the
first clause. The second says the same of the step that performs it; that this step is the host's while `delay` is not 0, lowers
`delay` by one and uses up the transaction is the model's choice (logs 3 and 4). -/
def Obligations.BusyWriteIsDropped : Prop :=
  (∀ (s : State) (idx : BitVec 8) (v : Nat), s.inflight ≠ none → hostWrite idx v s = { s with busyWr := true }) ∧
  ∀ (s : State) (idx : BitVec 8) (v : Nat) (rest : List HostOp), s.inflight ≠ none → s.delay ≠ 0 → s.hostOps = .write idx v :: rest →
    step s = .next { s with busyWr := true, hostOps := rest, delay := s.delay - 1 }

/-- 70_reset_and_hazards.md R287: while busy, a HostRead of an index that is no destination of the command in flight returns its
current value, a read of a destination returns some W-bit value, and STATUS reads BUSY = 1 and ERR = 0. The destinations are those the
format fixes. That the value of a destination is a free value of index and state is the model's form of it (log 5). -/
def Obligations.BusyReads : Prop :=
  (∀ (s : State) (w : BitVec 32) (idx : BitVec 8) (rest : List HostOp), s.inflight = some w → s.delay ≠ 0 →
    s.hostOps = .read idx :: rest →
    ∃ v n, v < 2 ^ s.width.bits ∧ step s =
        .next { s with hostReads := s.hostReads ++ [{ idx := idx, value := v }], draws := n, hostOps := rest, delay := s.delay - 1 } ∧
      (isDestination w (indexOf idx) = false → v = (s.current (indexOf idx)).toNat) ∧
      (idx = 0x51#8 → s.FlightSound → v.testBit 0 = true ∧ bitField v 7 4 = 0 ∧ v.testBit 8 = s.sticky ∧ v.testBit 9 = s.fieldOk ∧
        v.testBit 10 = s.montOk ∧ v.testBit 11 = s.busyWr)) ∧
  ∀ (w : BitVec 32) (idx : BitVec 8), isDestination w (indexOf idx) = true ↔
    (formatOf (opcOf w) ∈ [some .F1, some .F2, some .F3, some .FI] ∧ idx.toNat = (rdOf w).val) ∨
    (formatOf (opcOf w) ∈ [some .P1, some .P2, some .P3, some .PK] ∧ (rdOf w).val ≤ 3 ∧ 0x20 ≤ idx.toNat ∧
      (idx.toNat - 0x20) / 4 = (rdOf w).val)

/-- 70_reset_and_hazards.md R288: no host transaction but a reset changes an operand or a configuration register, or the command, while
a command is in flight: the state differs from the one before it only in BUSYWR and the model's own fields, which are its choice
(logs 3, 4 and 5). -/
def Obligations.OperandsStableWhileBusy : Prop :=
  ∀ (s t : State) (op : HostOp) (rest : List HostOp), s.inflight ≠ none → s.delay ≠ 0 → s.hostOps = op :: rest → op ≠ .reset →
    step s = .next t →
    ∃ b n r o, t = { s with busyWr := b, draws := n, hostReads := r, hostOps := o, delay := s.delay - 1 }

/-- Weak fairness (70_reset_and_hazards.md R285; 93_implementation_defined.md U3): a command in flight is gone after at most `delay + 1`
steps, whatever the host does meanwhile. That bound by the count `delay` is the model's form of the finite latency (log 3). -/
def Obligations.CommandInFlightCompletes : Prop :=
  ∀ s : State, s.inflight ≠ none →
    ∃ (k : Nat) (t : State), k ≤ s.delay + 1 ∧ Sys2Proof.core.run k s = Host.Outcome.next t ∧ t.inflight = none

/-- What a command computes does not depend on what the host did while it was in flight (00_scope.md R18; 70_reset_and_hazards.md
R285 "from the state at acceptance"): BUSYWR and the model's own fields (logs 3, 4 and 5) are carried
through unread. -/
def Obligations.ResultIgnoresHostSide : Prop :=
  ∀ (w : BitVec 32) (s t : State) (b : Bool) (n d : Nat) (r : List HostRead) (o : List HostOp),
    engineStep w s = .next t →
    engineStep w { s with busyWr := b, draws := n, hostReads := r, hostOps := o, delay := d } =
      .next { t with busyWr := b, draws := n, hostReads := r, hostOps := o }

/-- The latency of a command does not change its result: with no reset to come, running until the block is idle gives the state that
an immediate completion gives, but for BUSYWR and the model's own fields (00_scope.md R18; 70_reset_and_hazards.md R285, R288; logs 3,
4 and 5). -/
def Obligations.ResultIndependentOfLatency : Prop :=
  ∀ (s u : State) (w : BitVec 32), s.inflight = some w → HostOp.reset ∉ s.hostOps → engineStep w s = .next u →
    ∃ (k : Nat) (t : State), Sys2Proof.core.run k s = Host.Outcome.next t ∧ t.inflight = none ∧
      ∃ b n r o, t = { u with busyWr := b, draws := n, hostReads := r, hostOps := o }

/-! ## Errors, frames and results over all commands -/

/-- 60_exceptions.md R250: a command that fails writes no destination, sets ERR and STICKY and leaves the block idle; nothing else
changes (but the flags CFGCOMMIT itself validates); the host finds the code in bits 7:4 of STATUS. -/
def Obligations.FailingCommandWritesNothing : Prop :=
  ∀ (i : Instr) (s t : State), exec i s = .next t → t.err ≠ .noError →
    t = { s with err := t.err, sticky := true, inflight := none, delay := 0, fieldOk := t.fieldOk, montOk := t.montOk } ∧
    (i ≠ .cfgcommit → t.fieldOk = s.fieldOk ∧ t.montOk = s.montOk) ∧
    bitField (hostReadValue 0x51#8 t).toNat 7 4 = t.err.code

/-- 60_exceptions.md R253: the configuration each class needs, in the order of the prologue (R254): ILLEGAL_COMMAND exactly for a point
number above 3, NOT_CONFIGURED exactly without FIELD_OK, MONT_NOT_CONFIGURED exactly without MONT_OK where it is needed. -/
def Obligations.ConfigurationClasses : Prop :=
  ∀ (i : Instr) (s t : State), exec i s = .next t →
    (t.err = .illegalCommand ↔ i.wf = false) ∧
    (t.err = .notConfigured ↔ i.wf = true ∧ classOf i ≠ .none ∧ s.fieldOk = false) ∧
    (t.err = .montNotConfigured ↔
      i.wf = true ∧ s.fieldOk = true ∧ s.montOk = false ∧ (classOf i = .mont ∨ (classOf i = .curve ∧ s.vtype = true)))

/-- Which commands raise the arithmetic codes and CONFIG_INVALID (60_exceptions.md R251). The Jacobian commands raise none of them, and
JTOA never raises INVERSE_OF_ZERO (44_affine.md R193). -/
def Obligations.WhoRaisesWhichCode : Prop :=
  (∀ (i : Instr) (s t : State), exec i s = .next t →
    (t.err = .configInvalid → i = .cfgcommit) ∧
    (t.err = .inverseOfZero →
      (∃ d a, i = .finv d a ∨ i = .minv d a ∨ i = .adbl d a) ∨
        ∃ d a b, i = .fdiv d a b ∨ i = .mdiv d a b ∨ i = .aadd d a b ∨ i = .amul d a b) ∧
    (t.err = .notInvertible →
      (∃ d a, i = .finv d a ∨ i = .minv d a ∨ i = .adbl d a ∨ i = .jtoa d a) ∨
        ∃ d a b, i = .fdiv d a b ∨ i = .mdiv d a b ∨ i = .aadd d a b ∨ i = .amul d a b)) ∧
  ∀ c : StatusCode, c.code ≤ 6

/-- The frame of every command with a field destination: FMOV, FADD to FONE, FMUL to FPOW, MMUL to MPOW, FINV to MDIV. Only that field
register, ERR, STICKY (on an error) and the in-flight state change. -/
def Obligations.FieldCommandFrame : Prop :=
  ∀ (i : Instr) (rd : FReg) (s t : State), destF i = some rd → exec i s = .next t →
    (∀ r, r ≠ rd → t.F r = s.F r) ∧ (∀ r, SamePoint s t r) ∧ SameConfig s t ∧ t.fieldOk = s.fieldOk ∧ t.montOk = s.montOk ∧
      t.busyWr = s.busyWr ∧ t.lastCmd = s.lastCmd ∧ SameHost s t ∧ (t.err = .noError → t.sticky = s.sticky)

/-- The frame of every command with a point destination: PMOV, AINF to JTOA, JINF to JDBL, AMUL, JMUL. Only that point register, ERR,
STICKY (on an error) and the in-flight state change. -/
def Obligations.PointCommandFrame : Prop :=
  ∀ (i : Instr) (rd : PReg) (s t : State), destP i = some rd → exec i s = .next t →
    (∀ r : Fin 4, r.val ≠ rd.val → SamePoint s t r) ∧ (∀ r, t.F r = s.F r) ∧ SameConfig s t ∧ t.fieldOk = s.fieldOk ∧
      t.montOk = s.montOk ∧ t.busyWr = s.busyWr ∧ t.lastCmd = s.lastCmd ∧ SameHost s t ∧ (t.err = .noError → t.sticky = s.sticky)

/-- "Every field element a command writes is canonical" (10_state.md R22), but for the raw copies FMOV and PMOV. -/
def Obligations.WrittenElementsAreCanonical : Prop :=
  ∀ (i : Instr) (s t : State), s.ConfigSound → exec i s = .next t → t.err = .noError →
    (∀ rd, destF i = some rd → (∀ a b, i ≠ .fmov a b) → t.F rd < s.M) ∧
    ∀ (rd : PReg) (d : Fin 4), destP i = some rd → d.val = rd.val → (∀ a b, i ≠ .pmov a b) →
      t.PX d < s.M ∧ t.PY d < s.M ∧ t.PZ d < s.M

/-- What the two kinds of point command write besides the coordinates (10_state.md R25): an affine result has `Z = 0`, and infinity is
`(0, 0, 0, 1)`; a Jacobian result has `INF = 0`. -/
def Obligations.PointResultViews : Prop :=
  ∀ (s t : State) (d : Fin 4) (rd : PReg) (i : Instr), d.val = rd.val → destP i = some rd → exec i s = .next t → t.err = .noError →
    ((∃ a b k, i = .ainf rd ∨ i = .agen rd ∨ i = .aadd rd a b ∨ i = .adbl rd a ∨ i = .jtoa rd a ∨ i = .amul rd a k) →
      t.PZ d = 0 ∧ (t.PINF d = true → t.PX d = 0 ∧ t.PY d = 0)) ∧
    ((∃ a b k, i = .jinf rd ∨ i = .atoj rd a ∨ i = .jadd rd a b ∨ i = .jdbl rd a ∨ i = .jmul rd a k) → t.PINF d = false)

/-! ## Control commands -/

/-- 40_control.md R100: NOP, its one legal word, and its whole effect; while it is in flight the block is busy. -/
def Obligations.NopOnlyCompletes : Prop :=
  EncodedAs 0x00#8 .N (fun _ _ _ _ => .nop) ∧ (∀ s : State, exec .nop s = .next (done s)) ∧
  ∀ s : State, s.inflight = some 0x00000000#32 → s.busy = true

/-- 40_control.md R101: CFGCOMMIT validates the descriptor; it writes both flags whatever the outcome. -/
def Obligations.CfgcommitValidatesDescriptor : Prop :=
  EncodedAs 0x01#8 .N (fun _ _ _ _ => .cfgcommit) ∧
  ∀ s : State,
    let fok := decide (2 ≤ s.M)
    let mok := fok && decide ((s.rconst.toNat * s.rinv.toNat) % s.M = 1)
    let t : State := { s with fieldOk := fok, montOk := mok }
    (fok = true ∧ (s.vtype = true → mok = true) → exec .cfgcommit s = .next (done t)) ∧
    (fok = false ∨ (s.vtype = true ∧ mok = false) → exec .cfgcommit s = .next (failed t .configInvalid))

/-- 40_control.md R102, R103: FMOV and PMOV are raw copies that need no configuration. -/
def Obligations.FmovPmovCopyRaw : Prop :=
  EncodedAs 0x02#8 .F2 (fun rd ra _ _ => .fmov rd ra) ∧ EncodedAs 0x03#8 .P2 (fun rd ra _ _ => .pmov rd ra) ∧
  (∀ (s : State) (rd ra : FReg), exec (.fmov rd ra) s = .next (wroteF s rd (s.F ra))) ∧
  ∀ (s : State) (d a : Fin 4), exec (.pmov (pnum d) (pnum a)) s = .next (wroteP s d (s.PX a) (s.PY a) (s.PZ a) (s.PINF a))

/-! ## field_adder_subtracter -/

/-- 41_field_add_sub.md R124, R125: FADD and FSUB. -/
def Obligations.FaddFsubModuloM : Prop :=
  EncodedAs 0x10#8 .F3 (fun rd ra rb _ => .fadd rd ra rb) ∧ EncodedAs 0x11#8 .F3 (fun rd ra rb _ => .fsub rd ra rb) ∧
  (∀ rd ra rb, NeedsField (.fadd rd ra rb) ∧ NeedsField (.fsub rd ra rb)) ∧
  ∀ (s : State) (rd ra rb : FReg), s.FieldReady →
    exec (.fadd rd ra rb) s = .next (wroteF s rd ((s.F ra + s.F rb) % s.M)) ∧
    exec (.fsub rd ra rb) s = .next (wroteF s rd (((s.F ra : Int) - (s.F rb : Int)) % (s.M : Int)).toNat)

/-- 41_field_add_sub.md R126, R127: FNEG (0 for 0) and FRED. -/
def Obligations.FnegFredModuloM : Prop :=
  EncodedAs 0x12#8 .F2 (fun rd ra _ _ => .fneg rd ra) ∧ EncodedAs 0x13#8 .F2 (fun rd ra _ _ => .fred rd ra) ∧
  (∀ rd ra, NeedsField (.fneg rd ra) ∧ NeedsField (.fred rd ra)) ∧
  ∀ (s : State) (rd ra : FReg), s.FieldReady →
    exec (.fneg rd ra) s = .next (wroteF s rd ((-(s.F ra : Int)) % (s.M : Int)).toNat) ∧
    exec (.fred rd ra) s = .next (wroteF s rd (s.F ra % s.M))

/-- 41_field_add_sub.md R128, R129: FZERO and FONE. -/
def Obligations.FzeroFoneConstants : Prop :=
  EncodedAs 0x14#8 .F1 (fun rd _ _ _ => .fzero rd) ∧ EncodedAs 0x15#8 .F1 (fun rd _ _ _ => .fone rd) ∧
  (∀ rd, NeedsField (.fzero rd) ∧ NeedsField (.fone rd)) ∧
  ∀ (s : State) (rd : FReg), s.FieldReady →
    exec (.fzero rd) s = .next (wroteF s rd 0) ∧ exec (.fone rd) s = .next (wroteF s rd 1)

/-! ## montgomery_multiplier -/

/-- 42_multiplier.md R148 to R150: FMUL, FSQR and FMULI, from exact products. -/
def Obligations.FmulFsqrFmuliModuloM : Prop :=
  EncodedAs 0x20#8 .F3 (fun rd ra rb _ => .fmul rd ra rb) ∧ EncodedAs 0x21#8 .F2 (fun rd ra _ _ => .fsqr rd ra) ∧
  EncodedAs 0x22#8 .FI (fun rd ra _ imm => .fmuli rd ra imm) ∧
  (∀ rd ra rb imm, NeedsField (.fmul rd ra rb) ∧ NeedsField (.fsqr rd ra) ∧ NeedsField (.fmuli rd ra imm)) ∧
  ∀ (s : State) (rd ra rb : FReg) (imm : Imm), s.FieldReady →
    exec (.fmul rd ra rb) s = .next (wroteF s rd ((s.F ra * s.F rb) % s.M)) ∧
    exec (.fsqr rd ra) s = .next (wroteF s rd (s.F ra ^ 2 % s.M)) ∧
    exec (.fmuli rd ra imm) s = .next (wroteF s rd ((imm.toNat * s.F ra) % s.M))

/-- 42_multiplier.md R151: FPOW is the power modulo M, for every raw exponent; `0^0` is 1. -/
def Obligations.FpowIsModularPower : Prop :=
  EncodedAs 0x23#8 .F3 (fun rd ra rb _ => .fpow rd ra rb) ∧ (∀ rd ra rb, NeedsField (.fpow rd ra rb)) ∧
  ∀ (s : State) (rd ra rb : FReg), s.FieldReady →
    exec (.fpow rd ra rb) s = .next (wroteF s rd (s.F ra ^ s.F rb % s.M))

/-- 42_multiplier.md R152, R153: MMUL and MSQR. -/
def Obligations.MmulMsqrRescale : Prop :=
  EncodedAs 0x28#8 .F3 (fun rd ra rb _ => .mmul rd ra rb) ∧ EncodedAs 0x29#8 .F2 (fun rd ra _ _ => .msqr rd ra) ∧
  (∀ rd ra rb, NeedsMont (.mmul rd ra rb) ∧ NeedsMont (.msqr rd ra)) ∧
  ∀ (s : State) (rd ra rb : FReg), s.MontReady →
    exec (.mmul rd ra rb) s = .next (wroteF s rd ((s.F ra * s.F rb * s.rinv.toNat) % s.M)) ∧
    exec (.msqr rd ra) s = .next (wroteF s rd ((s.F ra ^ 2 * s.rinv.toNat) % s.M))

/-- 42_multiplier.md R154 to R156: TOMONT, FROMMONT and MONE, and the round trip `FROMMONT(TOMONT(x)) = red(x)`. -/
def Obligations.TomontFrommontMone : Prop :=
  EncodedAs 0x2A#8 .F2 (fun rd ra _ _ => .tomont rd ra) ∧ EncodedAs 0x2B#8 .F2 (fun rd ra _ _ => .frommont rd ra) ∧
  EncodedAs 0x2C#8 .F1 (fun rd _ _ _ => .mone rd) ∧
  (∀ rd ra, NeedsMont (.tomont rd ra) ∧ NeedsMont (.frommont rd ra) ∧ NeedsMont (.mone rd)) ∧
  ∀ (s : State) (rd ra : FReg), s.MontReady →
    exec (.tomont rd ra) s = .next (wroteF s rd ((s.F ra * s.rconst.toNat) % s.M)) ∧
    exec (.frommont rd ra) s = .next (wroteF s rd ((s.F ra * s.rinv.toNat) % s.M)) ∧
    exec (.mone rd) s = .next (wroteF s rd (s.rconst.toNat % s.M)) ∧
    ∀ t rd', exec (.tomont rd ra) s = .next t → exec (.frommont rd' rd) t = .next (wroteF t rd' (s.F ra % s.M))

/-- 42_multiplier.md R157 with R147's value: MPOW is the Montgomery form of the power of the logical base. -/
def Obligations.MpowIsMontgomeryPower : Prop :=
  EncodedAs 0x2D#8 .F3 (fun rd ra rb _ => .mpow rd ra rb) ∧ (∀ rd ra rb, NeedsMont (.mpow rd ra rb)) ∧
  ∀ (s : State) (rd ra rb : FReg), s.MontReady →
    exec (.mpow rd ra rb) s = .next (wroteF s rd (((s.F ra * s.rinv.toNat) ^ s.F rb * s.rconst.toNat) % s.M))

/-- The domain laws (42_multiplier.md R146): with usable Montgomery constants, every primitive, power, division, point formula and
scalar multiplication in domain 1 is `enc_1` of its value in domain 0, and `enc_1`, `dec_1` are inverse. -/
def Obligations.MontgomeryMirrorsStandard : Prop :=
  ∀ (M R RI : Nat), 2 ≤ M → R < M → RI < M → (R * RI) % M = 1 →
    let S : Domain := { M := M, R := R, RI := RI, mont := false }
    let D : Domain := { M := M, R := R, RI := RI, mont := true }
    (∀ x y k e W, x < M → y < M →
      decD D (encD D x) = x ∧ encD D (decD D x) = x ∧
      mulD D (encD D x) (encD D y) = encD D (modMul M x y) ∧
      modAdd M (encD D x) (encD D y) = encD D (modAdd M x y) ∧
      modSub M (encD D x) (encD D y) = encD D (modSub M x y) ∧
      modNeg M (encD D x) = encD D (modNeg M x) ∧
      modMulSmall M k (encD D x) = encD D (modMulSmall M k x) ∧
      powD D W (encD D x) e = encD D (powD S W x e) ∧
      divD D (encD D x) (encD D y) = (divD S x y).map (encD D)) ∧
    (∀ (A k W : Nat) (P Q : Affine), A < M → P.Canonical M → Q.Canonical M →
      affAdd D (encD D A) (encAffine D P) (encAffine D Q) = (affAdd S A P Q).map (encAffine D) ∧
      toJac D (encAffine D P) = encJacobian D (toJac S P) ∧
      affMul D (encD D A) W (encAffine D P) k = (affMul S A W P k).map (encAffine D)) ∧
    ∀ (A k W : Nat) (P Q : Jacobian), A < M → P.Canonical M → Q.Canonical M →
      jacAdd D (encD D A) (encJacobian D P) (encJacobian D Q) = encJacobian D (jacAdd S A P Q) ∧
      toAff D (encJacobian D P) = (toAff S P).map (encAffine D) ∧
      jacMul D (encD D A) W (encJacobian D P) k = encJacobian D (jacMul S A W P k)

/-! ## modular_inverse_engine -/

/-- 43_inverse.md R172: FINV writes the unique inverse, or reports a zero or a non-invertible operand and writes nothing. -/
def Obligations.FinvComputesInverse : Prop :=
  EncodedAs 0x30#8 .F2 (fun rd ra _ _ => .finv rd ra) ∧ (∀ rd ra, NeedsField (.finv rd ra)) ∧
  ∀ (s : State) (rd ra : FReg), s.FieldReady →
    (s.F ra % s.M = 0 → exec (.finv rd ra) s = .next (failed s .inverseOfZero)) ∧
    (s.F ra % s.M ≠ 0 → Nat.gcd (s.F ra) s.M ≠ 1 → exec (.finv rd ra) s = .next (failed s .notInvertible)) ∧
    (Nat.gcd (s.F ra) s.M = 1 →
      ∃ x, exec (.finv rd ra) s = .next (wroteF s rd x) ∧ 0 < x ∧ x < s.M ∧ (s.F ra * x) % s.M = 1)

/-- 43_inverse.md R173: FDIV writes the quotient: the residue whose product with the divisor is the dividend. -/
def Obligations.FdivComputesQuotient : Prop :=
  EncodedAs 0x31#8 .F3 (fun rd ra rb _ => .fdiv rd ra rb) ∧ (∀ rd ra rb, NeedsField (.fdiv rd ra rb)) ∧
  ∀ (s : State) (rd ra rb : FReg), s.FieldReady →
    (s.F rb % s.M = 0 → exec (.fdiv rd ra rb) s = .next (failed s .inverseOfZero)) ∧
    (s.F rb % s.M ≠ 0 → Nat.gcd (s.F rb) s.M ≠ 1 → exec (.fdiv rd ra rb) s = .next (failed s .notInvertible)) ∧
    (Nat.gcd (s.F rb) s.M = 1 →
      ∃ x, exec (.fdiv rd ra rb) s = .next (wroteF s rd x) ∧ x < s.M ∧ (x * s.F rb) % s.M = s.F ra % s.M)

/-- 43_inverse.md R174, R175: MINV and MDIV, with the rescale constant `R'`: the result times the divisor is `R'·R'`, or the dividend
times `R'`. -/
def Obligations.MinvMdivInMontgomeryForm : Prop :=
  EncodedAs 0x38#8 .F2 (fun rd ra _ _ => .minv rd ra) ∧ EncodedAs 0x39#8 .F3 (fun rd ra rb _ => .mdiv rd ra rb) ∧
  (∀ rd ra rb, NeedsMont (.minv rd ra) ∧ NeedsMont (.mdiv rd ra rb)) ∧
  ∀ (s : State) (rd ra rb : FReg), s.MontReady →
    (s.F rb % s.M = 0 → exec (.minv rd rb) s = .next (failed s .inverseOfZero) ∧
      exec (.mdiv rd ra rb) s = .next (failed s .inverseOfZero)) ∧
    (s.F rb % s.M ≠ 0 → Nat.gcd (s.F rb) s.M ≠ 1 → exec (.minv rd rb) s = .next (failed s .notInvertible) ∧
      exec (.mdiv rd ra rb) s = .next (failed s .notInvertible)) ∧
    (Nat.gcd (s.F rb) s.M = 1 →
      (∃ x, exec (.minv rd rb) s = .next (wroteF s rd x) ∧ x < s.M ∧ (x * s.F rb) % s.M = s.rconst.toNat ^ 2 % s.M) ∧
      ∃ x, exec (.mdiv rd ra rb) s = .next (wroteF s rd x) ∧ x < s.M ∧ (x * s.F rb) % s.M = (s.F ra * s.rconst.toNat) % s.M)

/-! ## affine_point_add_double_unit -/

/-- 44_affine.md R194, R195: AINF and AGEN. -/
def Obligations.AinfAgenLoadPoints : Prop :=
  EncodedAs 0x40#8 .P1 (fun rd _ _ _ => .ainf rd) ∧ EncodedAs 0x41#8 .P1 (fun rd _ _ _ => .agen rd) ∧
  (∀ d, NeedsCurve (.ainf (pnum d)) ∧ NeedsCurve (.agen (pnum d))) ∧
  ∀ (s : State) (d : Fin 4), s.CurveReady →
    exec (.ainf (pnum d)) s = .next (wroteP s d 0 0 0 true) ∧
    exec (.agen (pnum d)) s = .next (wroteP s d (s.curveGx.toNat % s.M) (s.curveGy.toNat % s.M) 0 false)

/-- 44_affine.md R196, R197: AADD and ADBL write `affAdd` of the affine views, or its error. -/
def Obligations.AaddAdblApplyGroupLaw : Prop :=
  EncodedAs 0x42#8 .P3 (fun rd ra rb _ => .aadd rd ra rb) ∧ EncodedAs 0x43#8 .P2 (fun rd ra _ _ => .adbl rd ra) ∧
  (∀ d a b, NeedsCurve (.aadd (pnum d) (pnum a) (pnum b)) ∧ NeedsCurve (.adbl (pnum d) (pnum a))) ∧
  ∀ (s : State) (d a b : Fin 4), s.CurveReady →
    (∀ r, affAdd s.curve s.A (s.readAff a) (s.readAff b) = .ok r →
      exec (.aadd (pnum d) (pnum a) (pnum b)) s = .next (wroteAff s d r)) ∧
    (∀ c, affAdd s.curve s.A (s.readAff a) (s.readAff b) = .error c →
      exec (.aadd (pnum d) (pnum a) (pnum b)) s = .next (failed s c)) ∧
    (∀ r, affAdd s.curve s.A (s.readAff a) (s.readAff a) = .ok r →
      exec (.adbl (pnum d) (pnum a)) s = .next (wroteAff s d r)) ∧
    exec (.adbl (pnum d) (pnum a)) s = exec (.aadd (pnum d) (pnum a) (pnum a)) s

/-- 44_affine.md R191 in the field itself: the infinity cases, the inverse points, and otherwise the chord and tangent equations on the
logical values, in either domain. -/
def Obligations.AaddFollowsChordAndTangent : Prop :=
  ∀ (s t : State) (d a b : Fin 4), s.CurveReady → exec (.aadd (pnum d) (pnum a) (pnum b)) s = .next t → t.err = .noError →
    (s.readAff a = .inf → t.readAff d = s.readAff b) ∧
    (s.readAff b = .inf → t.readAff d = s.readAff a) ∧
    ∀ x1 y1 x2 y2, s.readAff a = .pt x1 y1 → s.readAff b = .pt x2 y2 →
      (x1 = x2 → (y1 ≠ y2 ∨ y1 = 0) → t.readAff d = .inf) ∧
      ((x1 = x2 → y1 = y2 ∧ y1 ≠ 0) →
        ∃ (x3 y3 : Nat) (l : ZMod s.curve.M), t.readAff d = .pt x3 y3 ∧
          (if x1 = x2 then 2 * logical s.curve y1 * l = 3 * logical s.curve x1 ^ 2 + logical s.curve s.A
            else (logical s.curve x2 - logical s.curve x1) * l = logical s.curve y2 - logical s.curve y1) ∧
          logical s.curve x3 = l ^ 2 - logical s.curve x1 - logical s.curve x2 ∧
          logical s.curve y3 = l * (logical s.curve x1 - logical s.curve x3) - logical s.curve y1)

/-- With a prime modulus above 2 no inversion of a nonzero value fails (43_inverse.md R172 to R175), and no inversion of the point
commands does (44_affine.md R191, R193; 46_scalar_mult.md R230): FINV, FDIV, MINV and MDIV complete with a result for every operand whose
divisor is not 0 modulo M; AADD, ADBL, AMUL and JTOA complete with a result for every register content. -/
def Obligations.PrimeModulusNeverFailsInversion : Prop :=
  (∀ (s : State) (rd ra rb : FReg), s.FieldReady → s.M.Prime → 2 < s.M → s.F rb % s.M ≠ 0 →
    (∃ x, exec (.finv rd rb) s = .next (wroteF s rd x)) ∧
    (∃ x, exec (.fdiv rd ra rb) s = .next (wroteF s rd x)) ∧
    (s.MontReady →
      (∃ x, exec (.minv rd rb) s = .next (wroteF s rd x)) ∧ ∃ x, exec (.mdiv rd ra rb) s = .next (wroteF s rd x))) ∧
  ∀ (s : State) (d a b : Fin 4) (k : FReg), s.CurveReady → s.M.Prime → 2 < s.M →
    (∃ r, exec (.aadd (pnum d) (pnum a) (pnum b)) s = .next (wroteAff s d r)) ∧
    (∃ r, exec (.adbl (pnum d) (pnum a)) s = .next (wroteAff s d r)) ∧
    (∃ r, exec (.amul (pnum d) (pnum a) k) s = .next (wroteAff s d r)) ∧
    ∃ r, exec (.jtoa (pnum d) (pnum a)) s = .next (wroteAff s d r)

/-- 44_affine.md R198: ATOJ writes `(x, y, one_d)`, or `(0, one_d, 0)` for infinity. -/
def Obligations.AtojWritesUnitZ : Prop :=
  EncodedAs 0x44#8 .P2 (fun rd ra _ _ => .atoj rd ra) ∧ (∀ d a, NeedsCurve (.atoj (pnum d) (pnum a))) ∧
  ∀ (s : State) (d a : Fin 4), s.CurveReady →
    let one := if s.vtype = true then s.rconst.toNat % s.M else 1
    exec (.atoj (pnum d) (pnum a)) s = .next
      (if s.PINF a = true then wroteP s d 0 one 0 false else wroteP s d (s.PX a % s.M) (s.PY a % s.M) one false)

/-- 44_affine.md R199: JTOA. Infinity for `red(Z) = 0`; NOT_INVERTIBLE for a `Z` with a common factor with M; else the point
`(X/Z², Y/Z³)`, on logical values. -/
def Obligations.JtoaDividesByPowersOfZ : Prop :=
  EncodedAs 0x45#8 .P2 (fun rd ra _ _ => .jtoa rd ra) ∧ (∀ d a, NeedsCurve (.jtoa (pnum d) (pnum a))) ∧
  ∀ (s : State) (d a : Fin 4), s.CurveReady →
    (s.PZ a % s.M = 0 → exec (.jtoa (pnum d) (pnum a)) s = .next (wroteP s d 0 0 0 true)) ∧
    (s.PZ a % s.M ≠ 0 → Nat.gcd (s.PZ a) s.M ≠ 1 → exec (.jtoa (pnum d) (pnum a)) s = .next (failed s .notInvertible)) ∧
    (Nat.gcd (s.PZ a) s.M = 1 →
      ∃ x y, exec (.jtoa (pnum d) (pnum a)) s = .next (wroteP s d x y 0 false) ∧ x < s.M ∧ y < s.M ∧
        logical s.curve x * logical s.curve (s.PZ a % s.M) ^ 2 = logical s.curve (s.PX a % s.M) ∧
        logical s.curve y * logical s.curve (s.PZ a % s.M) ^ 3 = logical s.curve (s.PY a % s.M))

/-- "`affine(jacobian(P)) == P` for all valid affine `P`" (44_affine.md R192): ATOJ, then JTOA of its result, gives the point's reduced
affine value back, infinity too, for every modulus. -/
def Obligations.AtojThenJtoaIsIdentity : Prop :=
  ∀ (s t : State) (d e a : Fin 4), s.CurveReady → exec (.atoj (pnum d) (pnum a)) s = .next t →
    exec (.jtoa (pnum e) (pnum d)) t = .next (wroteAff t e (s.readAff a))

/-! ## jacobian_point_add_double_unit -/

/-- 45_jacobian.md R217: JINF writes `(0, one_d, 0, 0)`. -/
def Obligations.JinfWritesConventionalInfinity : Prop :=
  EncodedAs 0x50#8 .P1 (fun rd _ _ _ => .jinf rd) ∧ (∀ d, NeedsCurve (.jinf (pnum d))) ∧
  ∀ (s : State) (d : Fin 4), s.CurveReady →
    exec (.jinf (pnum d)) s = .next (wroteP s d 0 (if s.vtype = true then s.rconst.toNat % s.M else 1) 0 false)

/-- 45_jacobian.md R218, R219: JADD and JDBL write `jacAdd` of the Jacobian views and raise no inversion error. -/
def Obligations.JaddJdblApplyGroupLaw : Prop :=
  EncodedAs 0x51#8 .P3 (fun rd ra rb _ => .jadd rd ra rb) ∧ EncodedAs 0x52#8 .P2 (fun rd ra _ _ => .jdbl rd ra) ∧
  (∀ d a b, NeedsCurve (.jadd (pnum d) (pnum a) (pnum b)) ∧ NeedsCurve (.jdbl (pnum d) (pnum a))) ∧
  ∀ (s : State) (d a b : Fin 4), s.CurveReady →
    let J := jacAdd s.curve s.A (s.readJac a) (s.readJac b)
    let K := jacAdd s.curve s.A (s.readJac a) (s.readJac a)
    exec (.jadd (pnum d) (pnum a) (pnum b)) s = .next (wroteP s d J.x J.y J.z false) ∧
    exec (.jdbl (pnum d) (pnum a)) s = .next (wroteP s d K.x K.y K.z false) ∧
    exec (.jdbl (pnum d) (pnum a)) s = exec (.jadd (pnum d) (pnum a) (pnum a)) s

/-- 45_jacobian.md R216's cases: the infinity cases return the other operand's reduced triple unchanged, inverse points give `JInf_d`,
and otherwise the formulas of the doubling or of the general branch hold on logical values. -/
def Obligations.JacobianFormulas : Prop :=
  ∀ (s : State) (a b : Fin 4), s.CurveReady →
    let D := s.curve
    let P := s.readJac a
    let Q := s.readJac b
    let J := jacAdd D s.A P Q
    let v := logical D
    let u1 := v P.x * v Q.z ^ 2
    let u2 := v Q.x * v P.z ^ 2
    let s1 := v P.y * v Q.z ^ 3
    let s2 := v Q.y * v P.z ^ 3
    (P.z = 0 → Q.z = 0 → J = { x := 0, y := oneD D, z := 0 }) ∧
    (P.z = 0 → Q.z ≠ 0 → J = Q) ∧
    (P.z ≠ 0 → Q.z = 0 → J = P) ∧
    (P.z ≠ 0 → Q.z ≠ 0 → u1 = u2 → s1 ≠ s2 → J = { x := 0, y := oneD D, z := 0 }) ∧
    (P.z ≠ 0 → Q.z ≠ 0 → u1 = u2 → s1 = s2 →
      let m := 3 * v P.x ^ 2 + v s.A * v P.z ^ 4
      let w := 4 * v P.x * v P.y ^ 2
      v J.x = m ^ 2 - 2 * w ∧ v J.y = m * (w - v J.x) - 8 * v P.y ^ 4 ∧ v J.z = 2 * v P.y * v P.z) ∧
    (P.z ≠ 0 → Q.z ≠ 0 → u1 ≠ u2 →
      let h := u2 - u1
      let r := s2 - s1
      v J.x = r ^ 2 - h ^ 3 - 2 * u1 * h ^ 2 ∧ v J.y = r * (u1 * h ^ 2 - v J.x) - s1 * h ^ 3 ∧ v J.z = h * v P.z * v Q.z)

/-- The Jacobian unit agrees with the affine unit (45_jacobian.md R215, R216; 44_affine.md R191, R193): with a prime modulus above 2,
the affine form of `jacAdd(P, Q)` is `affAdd` of the affine forms of P and Q. -/
def Obligations.JacobianAddAgreesWithAffine : Prop :=
  ∀ (s : State) (a b : Fin 4), s.CurveReady → s.M.Prime → 2 < s.M →
    ∃ p q r, HasAffineForm s.curve (s.readJac a) p ∧ HasAffineForm s.curve (s.readJac b) q ∧
      affAdd s.curve s.A p q = .ok r ∧ HasAffineForm s.curve (jacAdd s.curve s.A (s.readJac a) (s.readJac b)) r

/-! ## scalar_multiplier_engine -/

/-- 46_scalar_mult.md R232: AMUL writes `affMul` of the affine view and the raw scalar, or its first error. -/
def Obligations.AmulAppliesDoubleAndAdd : Prop :=
  EncodedAs 0x60#8 .PK (fun rd ra rb _ => .amul rd ra rb) ∧ (∀ d a k, NeedsCurve (.amul (pnum d) (pnum a) k)) ∧
  ∀ (s : State) (d a : Fin 4) (k : FReg), s.CurveReady →
    (∀ r, affMul s.curve s.A s.width.bits (s.readAff a) (s.F k) = .ok r →
      exec (.amul (pnum d) (pnum a) k) s = .next (wroteAff s d r)) ∧
    ∀ c, affMul s.curve s.A s.width.bits (s.readAff a) (s.F k) = .error c →
      exec (.amul (pnum d) (pnum a) k) s = .next (failed s c)

/-- AMUL's corner cases (46_scalar_mult.md R232), whenever its doublings raise no error: 0 gives infinity, 1 the reduced point, 2 the
result of ADBL. -/
def Obligations.AmulBySmallScalars : Prop :=
  ∀ (s t : State) (d a : Fin 4) (k : FReg), s.CurveReady → exec (.amul (pnum d) (pnum a) k) s = .next t → t.err = .noError →
    (s.F k = 0 → t = wroteAff s d .inf) ∧
    (s.F k = 1 → t = wroteAff s d (s.readAff a)) ∧
    (s.F k = 2 → exec (.adbl (pnum d) (pnum a)) s = .next t) ∧
    (s.readAff a = .inf → t = wroteAff s d .inf)

/-- 46_scalar_mult.md R233: JMUL writes `jacMul` of the Jacobian view and the raw scalar. The scalar 0, and a point at infinity, give
`JInf_d`; 1 gives a finite point's reduced triple exactly; 2 gives what JDBL writes where the double is finite (log 14). -/
def Obligations.JmulAppliesDoubleAndAdd : Prop :=
  EncodedAs 0x61#8 .PK (fun rd ra rb _ => .jmul rd ra rb) ∧ (∀ d a k, NeedsCurve (.jmul (pnum d) (pnum a) k)) ∧
  ∀ (s : State) (d a : Fin 4) (k : FReg), s.CurveReady →
    let J := jacMul s.curve s.A s.width.bits (s.readJac a) (s.F k)
    exec (.jmul (pnum d) (pnum a) k) s = .next (wroteP s d J.x J.y J.z false) ∧
    (s.F k = 0 ∨ s.PZ a % s.M = 0 → J = { x := 0, y := oneD s.curve, z := 0 }) ∧
    (s.PZ a % s.M ≠ 0 → s.F k = 1 → J = s.readJac a) ∧
    (s.F k = 2 → (jacAdd s.curve s.A (s.readJac a) (s.readJac a)).z ≠ 0 →
      exec (.jmul (pnum d) (pnum a) k) s = exec (.jdbl (pnum d) (pnum a)) s)

/-- The two scalar multipliers agree (46_scalar_mult.md R231 to R233; 44_affine.md R199): with a prime modulus above 2, the affine form of
`jacMul(P, k)` is `affMul` of the affine form of P, for every scalar. -/
def Obligations.JmulAgreesWithAmul : Prop :=
  ∀ (s : State) (a : Fin 4) (k : FReg), s.CurveReady → s.M.Prime → 2 < s.M →
    ∃ p r, HasAffineForm s.curve (s.readJac a) p ∧ affMul s.curve s.A s.width.bits p (s.F k) = .ok r ∧
      HasAffineForm s.curve (jacMul s.curve s.A s.width.bits (s.readJac a) (s.F k)) r
end

