-- ==== Sys2Proof/Laws/Arith.lean ====
section
/-! SUPPORT. Laws/Arith: what the arithmetic primitives compute: bounds, values in `ZMod M`, the power, the inverse and when it does
not exist. -/

namespace Sys2Proof.Machine

/-! ### Results are canonical -/

theorem red_lt {M : Nat} (h : 0 < M) (v : Nat) : red M v < M := Nat.mod_lt _ h
theorem modAdd_lt {M : Nat} (h : 0 < M) (a b : Nat) : modAdd M a b < M := Nat.mod_lt _ h
theorem modNeg_lt {M : Nat} (h : 0 < M) (a : Nat) : modNeg M a < M := Nat.mod_lt _ h
theorem modMul_lt {M : Nat} (h : 0 < M) (a b : Nat) : modMul M a b < M := Nat.mod_lt _ h
theorem modMulSmall_lt {M : Nat} (h : 0 < M) (k a : Nat) : modMulSmall M k a < M := Nat.mod_lt _ h

theorem modSub_lt {M a b : Nat} (ha : a < M) : modSub M a b < M := by
  unfold modSub
  split <;> omega

theorem mulD_lt {D : Domain} (h : 0 < D.M) (a b : Nat) : mulD D a b < D.M := by
  unfold mulD
  split <;> exact modMul_lt h _ _

theorem encD_lt {D : Domain} (h : 0 < D.M) {x : Nat} (hx : x < D.M) : encD D x < D.M := by
  unfold encD
  split
  · exact modMul_lt h _ _
  · exact hx

theorem decD_lt {D : Domain} (h : 0 < D.M) {x : Nat} (hx : x < D.M) : decD D x < D.M := by
  unfold decD
  split
  · exact modMul_lt h _ _
  · exact hx

theorem oneD_lt {D : Domain} (h : 1 < D.M) (hR : D.R < D.M) : oneD D < D.M := by
  unfold oneD
  split <;> assumption

/-! ### Values in `ZMod M` -/

theorem red_cast (M v : Nat) : (red M v : ZMod M) = v := ZMod.natCast_mod v M

theorem modAdd_cast (M a b : Nat) : (modAdd M a b : ZMod M) = a + b := by
  rw [modAdd, ZMod.natCast_mod, Nat.cast_add]

theorem modSub_cast {M a b : Nat} (hb : b ≤ M) : (modSub M a b : ZMod M) = a - b := by
  unfold modSub
  split
  · rw [Nat.cast_sub ‹_›]
  · rw [Nat.cast_sub (by omega), Nat.cast_add, ZMod.natCast_self, add_zero]

theorem modNeg_cast {M a : Nat} (ha : a ≤ M) : (modNeg M a : ZMod M) = -a := by
  rw [modNeg, ZMod.natCast_mod, Nat.cast_sub ha, ZMod.natCast_self, zero_sub]

theorem modMul_cast (M a b : Nat) : (modMul M a b : ZMod M) = a * b := by
  rw [modMul, ZMod.natCast_mod, Nat.cast_mul]

theorem modMulSmall_cast (M k a : Nat) : (modMulSmall M k a : ZMod M) = k * a := by
  rw [modMulSmall, ZMod.natCast_mod, Nat.cast_mul]

/-- Canonical residues are equal when they are equal in `ZMod M`. -/
theorem eq_of_cast_eq {M a b : Nat} (ha : a < M) (hb : b < M) (h : (a : ZMod M) = b) : a = b := by
  have := (ZMod.natCast_eq_natCast_iff a b M).1 h
  rwa [Nat.ModEq, Nat.mod_eq_of_lt ha, Nat.mod_eq_of_lt hb] at this

/-! ### The power (42_multiplier.md R147) -/

/-- The loop of `powd` in the standard domain: what is left of the exponent is its low bits. -/
theorem powLoop_standard {D : Domain} (hD : D.mont = false) (b e : Nat) :
    ∀ (i acc : Nat), (powLoop D b e i acc : ZMod D.M) = (acc : ZMod D.M) ^ 2 ^ i * (b : ZMod D.M) ^ (e % 2 ^ i)
  | 0, acc => by simp [powLoop, Nat.mod_one]
  | i + 1, acc => by
    have he : e % 2 ^ (i + 1) = e % 2 ^ i + (e.testBit i).toNat * 2 ^ i := by
      rw [Nat.mod_pow_succ, Nat.toNat_testBit, mul_comm (2 ^ i)]
    rw [powLoop, powLoop_standard hD b e i, he]
    cases e.testBit i <;> simp [mulD, hD, modMul_cast, pow_succ, pow_mul, pow_add, mul_pow]
    ring

/-- `powd` in the standard domain is the power modulo M, for an exponent of `W` bits. -/
theorem powD_standard {D : Domain} (hD : D.mont = false) (hM : 1 < D.M) {W : Nat} (b : Nat) {e : Nat} (he : e < 2 ^ W) :
    powD D W b e = b ^ e % D.M := by
  have hlt : ∀ (i acc : Nat), acc < D.M → powLoop D b e i acc < D.M := by
    intro i
    induction i with
    | zero => exact fun _ h => h
    | succ i ih =>
      intro acc _
      rw [powLoop]
      apply ih
      split <;> exact mulD_lt (by omega) _ _
  refine eq_of_cast_eq (hlt _ _ (by simp [oneD, hD, hM])) (Nat.mod_lt _ (by omega)) ?_
  rw [powD, powLoop_standard hD, ZMod.natCast_mod, Nat.mod_eq_of_lt he]
  simp [oneD, hD]

/-! ### The inverse (43_inverse.md R170, R171) -/

/-- What the while loop of `modInv` keeps: `r0 = x0·a` and `r1 = x1·a` in `ZMod M`. It ends with the greatest common divisor. -/
theorem modInvLoop_spec {M a : Nat} :
    ∀ (fuel r0 r1 x0 x1 : Nat), r1 ≤ fuel → x0 < M → x1 < M → (r0 : ZMod M) = x0 * a → (r1 : ZMod M) = x1 * a →
      (modInvLoop M fuel r0 r1 x0 x1).1 = Nat.gcd r0 r1 ∧ (modInvLoop M fuel r0 r1 x0 x1).2 < M ∧
      ((modInvLoop M fuel r0 r1 x0 x1).1 : ZMod M) = (modInvLoop M fuel r0 r1 x0 x1).2 * a
  | 0, r0, r1, x0, x1, hf, h0, _, hr, _ => by
    obtain rfl : r1 = 0 := by omega
    simp [modInvLoop, h0, hr]
  | fuel + 1, r0, r1, x0, x1, hf, h0, h1, hr, hs => by
    unfold modInvLoop
    split
    · subst r1; simp [h0, hr]
    · rename_i hne
      have hlt : r0 - r0 / r1 * r1 < r1 := by
        have := Nat.mod_lt r0 (Nat.pos_of_ne_zero hne)
        rwa [Nat.mod_eq_sub, mul_comm] at this
      have hle : r0 / r1 * r1 ≤ r0 := Nat.div_mul_le_self r0 r1
      have hM : 0 < M := by omega
      have hs2 := modSub_lt (M := M) (b := r0 / r1 * x1 % M) h0
      have hc : (modSub M x0 (r0 / r1 * x1 % M) : ZMod M) = x0 - (r0 / r1 : Nat) * x1 := by
        rw [modSub_cast (Nat.mod_lt _ hM).le, ZMod.natCast_mod, Nat.cast_mul]
      have := modInvLoop_spec fuel r1 (r0 - r0 / r1 * r1) x1 (modSub M x0 (r0 / r1 * x1 % M)) (by omega) h1 hs2 hs
        (by rw [hc, Nat.cast_sub hle, Nat.cast_mul, hr, hs]; ring)
      rw [show Nat.gcd r0 r1 = Nat.gcd r1 (r0 - r0 / r1 * r1) by
        rw [Nat.gcd_comm r0, Nat.gcd_rec r1 r0, Nat.gcd_comm, Nat.mod_eq_sub, mul_comm (r0 / r1)]]
      exact this

/-- `modInv` of an invertible residue is its inverse. -/
theorem modInv_of_coprime {M a : Nat} (hM : 1 < M) (ha : a < M) (h : Nat.gcd a M = 1) :
    ∃ x, modInv M a = .ok x ∧ 0 < x ∧ x < M ∧ a * x % M = 1 := by
  have h0 : a ≠ 0 := by rintro rfl; simp at h; omega
  obtain ⟨h1, h2, h3⟩ := modInvLoop_spec (M := M) (a := a) a M a 0 1 le_rfl (by omega) hM (by simp) (by simp)
  rw [Nat.gcd_comm, h] at h1
  refine ⟨(modInvLoop M a M a 0 1).2, by simp [modInv, h0, h1], ?_, h2, ?_⟩ <;> rw [h1] at h3
  · rcases Nat.eq_zero_or_pos (modInvLoop M a M a 0 1).2 with h | h
    · rw [h] at h3
      have := eq_of_cast_eq (M := M) hM (by omega) (h3.trans (by simp) : ((1 : Nat) : ZMod M) = (0 : Nat))
      omega
    · exact h
  · refine eq_of_cast_eq (Nat.mod_lt _ (by omega)) hM ?_
    rw [ZMod.natCast_mod, Nat.cast_mul, mul_comm, ← h3]

theorem modInv_zero (M : Nat) : modInv M 0 = .error .inverseOfZero := by simp [modInv]

/-- `modInv` of a nonzero residue with a common factor with M fails. -/
theorem modInv_of_not_coprime {M a : Nat} (ha : a ≠ 0) (hM : 1 < M) (h : Nat.gcd a M ≠ 1) : modInv M a = .error .notInvertible := by
  obtain ⟨h1, -, -⟩ := modInvLoop_spec (M := M) (a := a) a M a 0 1 le_rfl (by omega) hM (by simp) (by simp)
  rw [Nat.gcd_comm] at h1
  simp [modInv, ha, h1, h]

/-- `modInv` raises no other code. -/
theorem modInv_error {M a : Nat} {c : StatusCode} (h : modInv M a = .error c) : c = .inverseOfZero ∨ c = .notInvertible := by
  unfold modInv at h
  split at h
  · simp_all
  · split at h; split at h <;> simp_all

/-- `div_d` raises the code of `modInv` of the divisor. -/
theorem divD_eq_error {D : Domain} {a b : Nat} {c : StatusCode} : divD D a b = .error c ↔ modInv D.M b = .error c := by
  unfold divD
  cases modInv D.M b <;> simp [bind, Except.bind, pure, Except.pure]

theorem divD_error {D : Domain} {a b : Nat} {c : StatusCode} (h : divD D a b = .error c) : c = .inverseOfZero ∨ c = .notInvertible :=
  modInv_error (divD_eq_error.1 h)

theorem divD_lt {D : Domain} {a b v : Nat} (hM : 0 < D.M) (h : divD D a b = .ok v) : v < D.M := by
  unfold divD at h
  cases hi : modInv D.M b with
  | error c => simp [hi, bind, Except.bind] at h
  | ok i =>
    simp only [hi, bind, Except.bind, pure, Except.pure, Except.ok.injEq] at h
    subst h
    split <;> exact modMul_lt hM _ _

end Sys2Proof.Machine
end

