-- ==== Sys2Proof/Laws/Checks.lean ====
section
/-! SUPPORT. Laws/Checks: chains of checks in `Except`: what a chain that answers has checked, what one that fails reports, and a rule
that follows a chain check by check. -/

namespace Sys2Proof

variable {ε α β : Type}

/-- A chain of checks answers exactly when its first check answers and the rest does. -/
theorem bind_eq_ok {x : Except ε α} {f : α → Except ε β} {b : β} : (x >>= f) = .ok b ↔ ∃ a, x = .ok a ∧ f a = .ok b := by
  cases x <;> simp [bind, Except.bind]

/-- A chain of checks fails with the first code reported. -/
theorem bind_eq_error {x : Except ε α} {f : α → Except ε β} {e : ε} :
    (x >>= f) = .error e ↔ x = .error e ∨ ∃ a, x = .ok a ∧ f a = .error e := by
  cases x <;> simp [bind, Except.bind]

@[simp] theorem pure_eq_ok (a : α) : (pure a : Except ε α) = .ok a := rfl
@[simp] theorem ok_bind (a : α) (f : α → Except ε β) : (Except.ok a >>= f) = f a := rfl
@[simp] theorem error_bind (e : ε) (f : α → Except ε β) : ((Except.error e : Except ε α) >>= f) = .error e := rfl

/-- What a chain of checks yields: an answer with `ok`, or a code with `err`. -/
def Yields (err : ε → Prop) (ok : α → Prop) (x : Except ε α) : Prop := (∀ a, x = .ok a → ok a) ∧ ∀ e, x = .error e → err e

/-- A chain yields what its first check and then the rest yield. -/
theorem Yields.bind {err : ε → Prop} {ok : β → Prop} {x : Except ε α} {f : α → Except ε β}
    (h : Yields err (fun a => Yields err ok (f a)) x) : Yields err ok (x >>= f) := by
  cases x with
  | ok a => exact h.1 a rfl
  | error e => exact ⟨fun b hb => by simp at hb, fun d hd => by simp only [error_bind, Except.error.injEq] at hd; exact h.2 d (by rw [hd])⟩

theorem Yields.pure {err : ε → Prop} {ok : α → Prop} {a : α} (h : ok a) : Yields err ok (Pure.pure a) :=
  ⟨fun b hb => by simp only [pure_eq_ok, Except.ok.injEq] at hb; exact hb ▸ h, fun e he => by simp at he⟩

end Sys2Proof
end

