-- ==== Sys2Proof/Laws/Curve.lean ====
section
/-! SUPPORT. Laws/Curve: which errors the group law can raise, and that its results are canonical. -/

namespace Sys2Proof.Machine

/-! ### Errors -/

/-- `affAdd` raises only the codes of a division. -/
theorem affAdd_error {D : Domain} {A : Nat} {P Q : Affine} {c : StatusCode} (h : affAdd D A P Q = .error c) :
    c = .inverseOfZero ∨ c = .notInvertible := by
  unfold affAdd at h
  split at h
  · simp_all
  · simp_all
  · simp_all
  · split at h
    · split at h
      · simp_all
      · split at h
        · simp_all
        · simp only [bind_eq_error, pure_eq_ok, reduceCtorEq, and_false, exists_false, or_false] at h
          exact divD_error h
    · simp only [bind_eq_error, pure_eq_ok, reduceCtorEq, and_false, exists_false, or_false] at h
      exact divD_error h

theorem affAddIf_error {D : Domain} {A : Nat} {b : Bool} {P Q : Affine} {c : StatusCode} (h : affAddIf D A b P Q = .error c) :
    c = .inverseOfZero ∨ c = .notInvertible := by
  cases b
  · simp [affAddIf] at h
  · exact affAdd_error h

theorem affMulLoop_error {D : Domain} {A k : Nat} {c : StatusCode} :
    ∀ {n i : Nat} {r0 r1 : Affine}, affMulLoop D A k n i r0 r1 = .error c → c = .inverseOfZero ∨ c = .notInvertible
  | 0, _, _, _, h => by simp [affMulLoop] at h
  | n + 1, i, r0, r1, h => by
    simp only [affMulLoop, bind_eq_error] at h
    rcases h with h | ⟨_, _, h | ⟨_, _, h⟩⟩
    · exact affAddIf_error h
    · exact affAdd_error h
    · exact affMulLoop_error h

/-- `toAff` never divides by zero (44_affine.md R193). -/
theorem toAff_error {D : Domain} {J : Jacobian} {c : StatusCode} (h : toAff D J = .error c) : c = .notInvertible := by
  unfold toAff at h
  split at h
  · simp at h
  · rename_i hz
    simp only [bind_eq_error, pure_eq_ok, reduceCtorEq, and_false, exists_false, or_false, divD, modInv, if_neg hz] at h
    split at h <;> simp_all

theorem affMul_error {D : Domain} {A W k : Nat} {P : Affine} {c : StatusCode} (h : affMul D A W P k = .error c) :
    c = .inverseOfZero ∨ c = .notInvertible :=
  affMulLoop_error h

/-! ### Results are canonical -/

theorem affAdd_canonical {D : Domain} {A : Nat} {P Q r : Affine} (hM : 0 < D.M) (hP : P.Canonical D.M) (hQ : Q.Canonical D.M)
    (h : affAdd D A P Q = .ok r) : r.Canonical D.M := by
  have hl := fun a b => mulD_lt (D := D) hM a b
  unfold affAdd at h
  split at h
  · cases h; trivial
  · cases h; exact hQ
  · cases h; exact hP
  · split at h
    · split at h
      · cases h; trivial
      · split at h
        · cases h; trivial
        · obtain ⟨l, -, h⟩ := bind_eq_ok.1 h
          cases h
          exact ⟨modSub_lt (hl _ _), modSub_lt (hl _ _)⟩
    · obtain ⟨l, -, h⟩ := bind_eq_ok.1 h
      cases h
      exact ⟨modSub_lt (modSub_lt (hl _ _)), modSub_lt (hl _ _)⟩

theorem affMulLoop_canonical {D : Domain} {A k : Nat} (hM : 0 < D.M) :
    ∀ {n i : Nat} {r0 r1 r : Affine}, r0.Canonical D.M → r1.Canonical D.M → affMulLoop D A k n i r0 r1 = .ok r → r.Canonical D.M
  | 0, _, _, _, _, h0, _, h => by cases h; exact h0
  | n + 1, i, r0, r1, r, h0, h1, h => by
    obtain ⟨a, ha, h⟩ := bind_eq_ok.1 h
    obtain ⟨b, hb, h⟩ := bind_eq_ok.1 h
    refine affMulLoop_canonical hM ?_ (affAdd_canonical hM h1 h1 hb) h
    revert ha
    cases k.testBit i <;> intro ha
    · cases ha; exact h0
    · exact affAdd_canonical hM h0 h1 ha

theorem affMul_canonical {D : Domain} {A W k : Nat} {P r : Affine} (hM : 0 < D.M) (hP : P.Canonical D.M)
    (h : affMul D A W P k = .ok r) : r.Canonical D.M :=
  affMulLoop_canonical (r0 := .inf) hM trivial hP h

theorem toAff_canonical {D : Domain} {J : Jacobian} {r : Affine} (hM : 0 < D.M) (h : toAff D J = .ok r) : r.Canonical D.M := by
  unfold toAff at h
  split at h
  · cases h; trivial
  · obtain ⟨l, -, h⟩ := bind_eq_ok.1 h
    cases h
    exact ⟨mulD_lt hM _ _, mulD_lt hM _ _⟩

theorem jacInf_canonical {D : Domain} (hM : 1 < D.M) (hR : D.R < D.M) : (jacInf D).Canonical D.M :=
  ⟨by show 0 < D.M; omega, oneD_lt hM hR, by show 0 < D.M; omega⟩

theorem toJac_canonical {D : Domain} {P : Affine} (hM : 1 < D.M) (hR : D.R < D.M) (hP : P.Canonical D.M) :
    (toJac D P).Canonical D.M := by
  cases P with
  | inf => exact jacInf_canonical hM hR
  | pt x y => exact ⟨hP.1, hP.2, oneD_lt hM hR⟩

theorem jacAdd_canonical {D : Domain} {A : Nat} {P Q : Jacobian} (hM : 1 < D.M) (hR : D.R < D.M) (hP : P.Canonical D.M)
    (hQ : Q.Canonical D.M) : (jacAdd D A P Q).Canonical D.M := by
  have h0 : 0 < D.M := by omega
  have hl := fun a b => mulD_lt (D := D) h0 a b
  unfold jacAdd
  split
  · exact jacInf_canonical hM hR
  · split
    · exact hQ
    · split
      · exact hP
      · dsimp only
        split
        · split
          · exact jacInf_canonical hM hR
          · exact ⟨modSub_lt (hl _ _), modSub_lt (hl _ _), modMulSmall_lt h0 _ _⟩
        · exact ⟨modSub_lt (modSub_lt (hl _ _)), modSub_lt (hl _ _), hl _ _⟩

theorem jacMulLoop_canonical {D : Domain} {A k : Nat} (hM : 1 < D.M) (hR : D.R < D.M) :
    ∀ {n i : Nat} {r0 r1 : Jacobian}, r0.Canonical D.M → r1.Canonical D.M → (jacMulLoop D A k n i r0 r1).Canonical D.M
  | 0, _, _, _, h0, _ => h0
  | n + 1, i, r0, r1, h0, h1 => by
    rw [jacMulLoop]
    refine jacMulLoop_canonical hM hR ?_ (jacAdd_canonical hM hR h1 h1)
    split
    · exact jacAdd_canonical hM hR h0 h1
    · exact h0

theorem jacMul_canonical {D : Domain} {A W k : Nat} {P : Jacobian} (hM : 1 < D.M) (hR : D.R < D.M) (hP : P.Canonical D.M) :
    (jacMul D A W P k).Canonical D.M :=
  jacMulLoop_canonical hM hR (jacInf_canonical hM hR) hP

end Sys2Proof.Machine
end

