-- ==== Sys2Proof/Laws/State.lean ====
section
/-! SUPPORT. Laws/State: one lemma for each field and accessor under each update of the state, so that no later proof unfolds a record
update. -/

namespace Sys2Proof.Machine

/-! ### setF -/

@[simp] theorem State.setF_width (s : State) (i : FReg) (v : Word s.width) : (s.setF i v).width = s.width := rfl
@[simp] theorem State.setF_vtype (s : State) (i : FReg) (v : Word s.width) : (s.setF i v).vtype = s.vtype := rfl
@[simp] theorem State.setF_err (s : State) (i : FReg) (v : Word s.width) : (s.setF i v).err = s.err := rfl
@[simp] theorem State.setF_sticky (s : State) (i : FReg) (v : Word s.width) : (s.setF i v).sticky = s.sticky := rfl
@[simp] theorem State.setF_fieldOk (s : State) (i : FReg) (v : Word s.width) : (s.setF i v).fieldOk = s.fieldOk := rfl
@[simp] theorem State.setF_montOk (s : State) (i : FReg) (v : Word s.width) : (s.setF i v).montOk = s.montOk := rfl
@[simp] theorem State.setF_busyWr (s : State) (i : FReg) (v : Word s.width) : (s.setF i v).busyWr = s.busyWr := rfl
@[simp] theorem State.setF_lastCmd (s : State) (i : FReg) (v : Word s.width) : (s.setF i v).lastCmd = s.lastCmd := rfl
@[simp] theorem State.setF_inflight (s : State) (i : FReg) (v : Word s.width) : (s.setF i v).inflight = s.inflight := rfl
@[simp] theorem State.setF_delay (s : State) (i : FReg) (v : Word s.width) : (s.setF i v).delay = s.delay := rfl
@[simp] theorem State.setF_draws (s : State) (i : FReg) (v : Word s.width) : (s.setF i v).draws = s.draws := rfl
@[simp] theorem State.setF_hostOps (s : State) (i : FReg) (v : Word s.width) : (s.setF i v).hostOps = s.hostOps := rfl
@[simp] theorem State.setF_hostReads (s : State) (i : FReg) (v : Word s.width) : (s.setF i v).hostReads = s.hostReads := rfl
@[simp] theorem State.setF_M (s : State) (i : FReg) (v : Word s.width) : (s.setF i v).M = s.M := rfl
@[simp] theorem State.setF_R' (s : State) (i : FReg) (v : Word s.width) : (s.setF i v).R' = s.R' := rfl
@[simp] theorem State.setF_RI' (s : State) (i : FReg) (v : Word s.width) : (s.setF i v).RI' = s.RI' := rfl
@[simp] theorem State.setF_A (s : State) (i : FReg) (v : Word s.width) : (s.setF i v).A = s.A := rfl
@[simp] theorem State.setF_curve (s : State) (i : FReg) (v : Word s.width) : (s.setF i v).curve = s.curve := rfl
@[simp] theorem State.setF_generator (s : State) (i : FReg) (v : Word s.width) : (s.setF i v).generator = s.generator := rfl
@[simp] theorem State.setF_rconst (s : State) (i : FReg) (v : Word s.width) : (s.setF i v).rconst.toNat = s.rconst.toNat := rfl
@[simp] theorem State.setF_rinv (s : State) (i : FReg) (v : Word s.width) : (s.setF i v).rinv.toNat = s.rinv.toNat := rfl
@[simp] theorem State.setF_curveA (s : State) (i : FReg) (v : Word s.width) : (s.setF i v).curveA.toNat = s.curveA.toNat := rfl
@[simp] theorem State.setF_curveGx (s : State) (i : FReg) (v : Word s.width) : (s.setF i v).curveGx.toNat = s.curveGx.toNat := rfl
@[simp] theorem State.setF_curveGy (s : State) (i : FReg) (v : Word s.width) : (s.setF i v).curveGy.toNat = s.curveGy.toNat := rfl
@[simp] theorem State.setF_domain (s : State) (i : FReg) (v : Word s.width) (d : Bool) : (s.setF i v).domain d = s.domain d := rfl
@[simp] theorem State.setF_PX (s : State) (i : FReg) (v : Word s.width) (r : Fin 4) : (s.setF i v).PX r = s.PX r := rfl
@[simp] theorem State.setF_PY (s : State) (i : FReg) (v : Word s.width) (r : Fin 4) : (s.setF i v).PY r = s.PY r := rfl
@[simp] theorem State.setF_PZ (s : State) (i : FReg) (v : Word s.width) (r : Fin 4) : (s.setF i v).PZ r = s.PZ r := rfl
@[simp] theorem State.setF_PINF (s : State) (i : FReg) (v : Word s.width) (r : Fin 4) : (s.setF i v).PINF r = s.PINF r := rfl
@[simp] theorem State.setF_readAff (s : State) (i : FReg) (v : Word s.width) (r : Fin 4) : (s.setF i v).readAff r = s.readAff r := rfl
@[simp] theorem State.setF_readJac (s : State) (i : FReg) (v : Word s.width) (r : Fin 4) : (s.setF i v).readJac r = s.readJac r := rfl

/-! ### setP -/

@[simp] theorem State.setP_width (s : State) (i : Fin 4) (v : Point s.width) : (s.setP i v).width = s.width := rfl
@[simp] theorem State.setP_vtype (s : State) (i : Fin 4) (v : Point s.width) : (s.setP i v).vtype = s.vtype := rfl
@[simp] theorem State.setP_err (s : State) (i : Fin 4) (v : Point s.width) : (s.setP i v).err = s.err := rfl
@[simp] theorem State.setP_sticky (s : State) (i : Fin 4) (v : Point s.width) : (s.setP i v).sticky = s.sticky := rfl
@[simp] theorem State.setP_fieldOk (s : State) (i : Fin 4) (v : Point s.width) : (s.setP i v).fieldOk = s.fieldOk := rfl
@[simp] theorem State.setP_montOk (s : State) (i : Fin 4) (v : Point s.width) : (s.setP i v).montOk = s.montOk := rfl
@[simp] theorem State.setP_busyWr (s : State) (i : Fin 4) (v : Point s.width) : (s.setP i v).busyWr = s.busyWr := rfl
@[simp] theorem State.setP_lastCmd (s : State) (i : Fin 4) (v : Point s.width) : (s.setP i v).lastCmd = s.lastCmd := rfl
@[simp] theorem State.setP_inflight (s : State) (i : Fin 4) (v : Point s.width) : (s.setP i v).inflight = s.inflight := rfl
@[simp] theorem State.setP_delay (s : State) (i : Fin 4) (v : Point s.width) : (s.setP i v).delay = s.delay := rfl
@[simp] theorem State.setP_draws (s : State) (i : Fin 4) (v : Point s.width) : (s.setP i v).draws = s.draws := rfl
@[simp] theorem State.setP_hostOps (s : State) (i : Fin 4) (v : Point s.width) : (s.setP i v).hostOps = s.hostOps := rfl
@[simp] theorem State.setP_hostReads (s : State) (i : Fin 4) (v : Point s.width) : (s.setP i v).hostReads = s.hostReads := rfl
@[simp] theorem State.setP_M (s : State) (i : Fin 4) (v : Point s.width) : (s.setP i v).M = s.M := rfl
@[simp] theorem State.setP_R' (s : State) (i : Fin 4) (v : Point s.width) : (s.setP i v).R' = s.R' := rfl
@[simp] theorem State.setP_RI' (s : State) (i : Fin 4) (v : Point s.width) : (s.setP i v).RI' = s.RI' := rfl
@[simp] theorem State.setP_A (s : State) (i : Fin 4) (v : Point s.width) : (s.setP i v).A = s.A := rfl
@[simp] theorem State.setP_curve (s : State) (i : Fin 4) (v : Point s.width) : (s.setP i v).curve = s.curve := rfl
@[simp] theorem State.setP_generator (s : State) (i : Fin 4) (v : Point s.width) : (s.setP i v).generator = s.generator := rfl
@[simp] theorem State.setP_rconst (s : State) (i : Fin 4) (v : Point s.width) : (s.setP i v).rconst.toNat = s.rconst.toNat := rfl
@[simp] theorem State.setP_rinv (s : State) (i : Fin 4) (v : Point s.width) : (s.setP i v).rinv.toNat = s.rinv.toNat := rfl
@[simp] theorem State.setP_curveA (s : State) (i : Fin 4) (v : Point s.width) : (s.setP i v).curveA.toNat = s.curveA.toNat := rfl
@[simp] theorem State.setP_curveGx (s : State) (i : Fin 4) (v : Point s.width) : (s.setP i v).curveGx.toNat = s.curveGx.toNat := rfl
@[simp] theorem State.setP_curveGy (s : State) (i : Fin 4) (v : Point s.width) : (s.setP i v).curveGy.toNat = s.curveGy.toNat := rfl
@[simp] theorem State.setP_domain (s : State) (i : Fin 4) (v : Point s.width) (d : Bool) : (s.setP i v).domain d = s.domain d := rfl
@[simp] theorem State.setP_F (s : State) (i : Fin 4) (v : Point s.width) (r : FReg) : (s.setP i v).F r = s.F r := rfl
@[simp] theorem State.setP_elem (s : State) (i : Fin 4) (v : Point s.width) (r : FReg) : (s.setP i v).elem r = s.elem r := rfl

/-! ### complete -/

@[simp] theorem State.complete_width (s : State) : (s.complete).width = s.width := rfl
@[simp] theorem State.complete_vtype (s : State) : (s.complete).vtype = s.vtype := rfl
@[simp] theorem State.complete_err (s : State) : (s.complete).err = .noError := rfl
@[simp] theorem State.complete_sticky (s : State) : (s.complete).sticky = s.sticky := rfl
@[simp] theorem State.complete_fieldOk (s : State) : (s.complete).fieldOk = s.fieldOk := rfl
@[simp] theorem State.complete_montOk (s : State) : (s.complete).montOk = s.montOk := rfl
@[simp] theorem State.complete_busyWr (s : State) : (s.complete).busyWr = s.busyWr := rfl
@[simp] theorem State.complete_lastCmd (s : State) : (s.complete).lastCmd = s.lastCmd := rfl
@[simp] theorem State.complete_inflight (s : State) : (s.complete).inflight = none := rfl
@[simp] theorem State.complete_delay (s : State) : (s.complete).delay = 0 := rfl
@[simp] theorem State.complete_draws (s : State) : (s.complete).draws = s.draws := rfl
@[simp] theorem State.complete_hostOps (s : State) : (s.complete).hostOps = s.hostOps := rfl
@[simp] theorem State.complete_hostReads (s : State) : (s.complete).hostReads = s.hostReads := rfl
@[simp] theorem State.complete_M (s : State) : (s.complete).M = s.M := rfl
@[simp] theorem State.complete_R' (s : State) : (s.complete).R' = s.R' := rfl
@[simp] theorem State.complete_RI' (s : State) : (s.complete).RI' = s.RI' := rfl
@[simp] theorem State.complete_A (s : State) : (s.complete).A = s.A := rfl
@[simp] theorem State.complete_curve (s : State) : (s.complete).curve = s.curve := rfl
@[simp] theorem State.complete_generator (s : State) : (s.complete).generator = s.generator := rfl
@[simp] theorem State.complete_rconst (s : State) : (s.complete).rconst.toNat = s.rconst.toNat := rfl
@[simp] theorem State.complete_rinv (s : State) : (s.complete).rinv.toNat = s.rinv.toNat := rfl
@[simp] theorem State.complete_curveA (s : State) : (s.complete).curveA.toNat = s.curveA.toNat := rfl
@[simp] theorem State.complete_curveGx (s : State) : (s.complete).curveGx.toNat = s.curveGx.toNat := rfl
@[simp] theorem State.complete_curveGy (s : State) : (s.complete).curveGy.toNat = s.curveGy.toNat := rfl
@[simp] theorem State.complete_domain (s : State) (d : Bool) : (s.complete).domain d = s.domain d := rfl
@[simp] theorem State.complete_F (s : State) (r : FReg) : (s.complete).F r = s.F r := rfl
@[simp] theorem State.complete_elem (s : State) (r : FReg) : (s.complete).elem r = s.elem r := rfl
@[simp] theorem State.complete_PX (s : State) (r : Fin 4) : (s.complete).PX r = s.PX r := rfl
@[simp] theorem State.complete_PY (s : State) (r : Fin 4) : (s.complete).PY r = s.PY r := rfl
@[simp] theorem State.complete_PZ (s : State) (r : Fin 4) : (s.complete).PZ r = s.PZ r := rfl
@[simp] theorem State.complete_PINF (s : State) (r : Fin 4) : (s.complete).PINF r = s.PINF r := rfl
@[simp] theorem State.complete_readAff (s : State) (r : Fin 4) : (s.complete).readAff r = s.readAff r := rfl
@[simp] theorem State.complete_readJac (s : State) (r : Fin 4) : (s.complete).readJac r = s.readJac r := rfl

/-! ### raise -/

@[simp] theorem State.raise_width (s : State) (c : StatusCode) : (s.raise c).width = s.width := rfl
@[simp] theorem State.raise_vtype (s : State) (c : StatusCode) : (s.raise c).vtype = s.vtype := rfl
@[simp] theorem State.raise_err (s : State) (c : StatusCode) : (s.raise c).err = c := rfl
@[simp] theorem State.raise_sticky (s : State) (c : StatusCode) : (s.raise c).sticky = true := rfl
@[simp] theorem State.raise_fieldOk (s : State) (c : StatusCode) : (s.raise c).fieldOk = s.fieldOk := rfl
@[simp] theorem State.raise_montOk (s : State) (c : StatusCode) : (s.raise c).montOk = s.montOk := rfl
@[simp] theorem State.raise_busyWr (s : State) (c : StatusCode) : (s.raise c).busyWr = s.busyWr := rfl
@[simp] theorem State.raise_lastCmd (s : State) (c : StatusCode) : (s.raise c).lastCmd = s.lastCmd := rfl
@[simp] theorem State.raise_inflight (s : State) (c : StatusCode) : (s.raise c).inflight = none := rfl
@[simp] theorem State.raise_delay (s : State) (c : StatusCode) : (s.raise c).delay = 0 := rfl
@[simp] theorem State.raise_draws (s : State) (c : StatusCode) : (s.raise c).draws = s.draws := rfl
@[simp] theorem State.raise_hostOps (s : State) (c : StatusCode) : (s.raise c).hostOps = s.hostOps := rfl
@[simp] theorem State.raise_hostReads (s : State) (c : StatusCode) : (s.raise c).hostReads = s.hostReads := rfl
@[simp] theorem State.raise_M (s : State) (c : StatusCode) : (s.raise c).M = s.M := rfl
@[simp] theorem State.raise_R' (s : State) (c : StatusCode) : (s.raise c).R' = s.R' := rfl
@[simp] theorem State.raise_RI' (s : State) (c : StatusCode) : (s.raise c).RI' = s.RI' := rfl
@[simp] theorem State.raise_A (s : State) (c : StatusCode) : (s.raise c).A = s.A := rfl
@[simp] theorem State.raise_curve (s : State) (c : StatusCode) : (s.raise c).curve = s.curve := rfl
@[simp] theorem State.raise_generator (s : State) (c : StatusCode) : (s.raise c).generator = s.generator := rfl
@[simp] theorem State.raise_rconst (s : State) (c : StatusCode) : (s.raise c).rconst.toNat = s.rconst.toNat := rfl
@[simp] theorem State.raise_rinv (s : State) (c : StatusCode) : (s.raise c).rinv.toNat = s.rinv.toNat := rfl
@[simp] theorem State.raise_curveA (s : State) (c : StatusCode) : (s.raise c).curveA.toNat = s.curveA.toNat := rfl
@[simp] theorem State.raise_curveGx (s : State) (c : StatusCode) : (s.raise c).curveGx.toNat = s.curveGx.toNat := rfl
@[simp] theorem State.raise_curveGy (s : State) (c : StatusCode) : (s.raise c).curveGy.toNat = s.curveGy.toNat := rfl
@[simp] theorem State.raise_domain (s : State) (c : StatusCode) (d : Bool) : (s.raise c).domain d = s.domain d := rfl
@[simp] theorem State.raise_F (s : State) (c : StatusCode) (r : FReg) : (s.raise c).F r = s.F r := rfl
@[simp] theorem State.raise_elem (s : State) (c : StatusCode) (r : FReg) : (s.raise c).elem r = s.elem r := rfl
@[simp] theorem State.raise_PX (s : State) (c : StatusCode) (r : Fin 4) : (s.raise c).PX r = s.PX r := rfl
@[simp] theorem State.raise_PY (s : State) (c : StatusCode) (r : Fin 4) : (s.raise c).PY r = s.PY r := rfl
@[simp] theorem State.raise_PZ (s : State) (c : StatusCode) (r : Fin 4) : (s.raise c).PZ r = s.PZ r := rfl
@[simp] theorem State.raise_PINF (s : State) (c : StatusCode) (r : Fin 4) : (s.raise c).PINF r = s.PINF r := rfl
@[simp] theorem State.raise_readAff (s : State) (c : StatusCode) (r : Fin 4) : (s.raise c).readAff r = s.readAff r := rfl
@[simp] theorem State.raise_readJac (s : State) (c : StatusCode) (r : Fin 4) : (s.raise c).readJac r = s.readJac r := rfl

/-! ### The written register -/

theorem State.setF_F (s : State) (i j : FReg) (v : Word s.width) : (s.setF i v).F j = if i = j then v.toNat else s.F j := by
  simp only [State.F, State.setF, Vector.get_eq_getElem, Vector.getElem_set, Fin.val_inj]
  split <;> rfl

theorem State.setP_get (s : State) (i j : Fin 4) (v : Point s.width) :
    ((s.setP i v).p.get j : Point s.width) = if i = j then v else s.p.get j := by
  simp only [State.setP, Vector.get_eq_getElem, Vector.getElem_set, Fin.val_inj]

@[simp] theorem State.setF_F_self (s : State) (i : FReg) (v : Word s.width) : (s.setF i v).F i = v.toNat := by
  simp [State.setF_F]

theorem State.setF_F_of_ne (s : State) (i j : FReg) (v : Word s.width) (h : j ≠ i) : (s.setF i v).F j = s.F j := by
  rw [State.setF_F, if_neg (Ne.symm h)]

theorem State.setP_PX (s : State) (i j : Fin 4) (v : Point s.width) : (s.setP i v).PX j = if i = j then v.x.toNat else s.PX j := by
  show ((s.setP i v).p.get j : Point s.width).x.toNat = _
  rw [State.setP_get]; split <;> rfl

theorem State.setP_PY (s : State) (i j : Fin 4) (v : Point s.width) : (s.setP i v).PY j = if i = j then v.y.toNat else s.PY j := by
  show ((s.setP i v).p.get j : Point s.width).y.toNat = _
  rw [State.setP_get]; split <;> rfl

theorem State.setP_PZ (s : State) (i j : Fin 4) (v : Point s.width) : (s.setP i v).PZ j = if i = j then v.z.toNat else s.PZ j := by
  show ((s.setP i v).p.get j : Point s.width).z.toNat = _
  rw [State.setP_get]; split <;> rfl

theorem State.setP_PINF (s : State) (i j : Fin 4) (v : Point s.width) : (s.setP i v).PINF j = if i = j then v.inf else s.PINF j := by
  show ((s.setP i v).p.get j : Point s.width).inf = _
  rw [State.setP_get]; split <;> rfl

/-! ### Bounds: a register holds fewer than `2^W` values -/

theorem State.F_lt (s : State) (i : FReg) : s.F i < 2 ^ s.width.bits := BitVec.isLt _
theorem State.M_lt (s : State) : s.M < 2 ^ s.width.bits := BitVec.isLt _

/-- A number below the modulus is not changed by the narrowing to W bits. -/
theorem State.ofNat_of_lt_M (s : State) {n : Nat} (h : n < s.M) : (Word.ofNat s.width n).toNat = n := by
  rw [BitVec.toNat_ofNat, Nat.mod_eq_of_lt (h.trans s.M_lt)]

end Sys2Proof.Machine
end

