-- ==== Sys2Proof/Laws/Ops.lean ====
section
/-! SUPPORT. Laws/Ops: what each shared operation can do, once: the end of a command, the checks before it, and the
host's transactions. -/

namespace Sys2Proof.Machine

/-! ### The end of a command -/

@[simp] theorem finish_ok (s t : State) : finish s (.ok t) = .next t.complete := rfl
@[simp] theorem finish_error (s : State) (c : StatusCode) : finish s (.error c) = .next (s.raise c) := rfl

/-- `finish` answers the completed state, or the state that raised. -/
theorem finish_eq_next {s t : State} {r : Except StatusCode State} :
    finish s r = .next t ↔ (∃ u, r = .ok u ∧ t = u.complete) ∨ ∃ c, r = .error c ∧ t = s.raise c := by
  cases r <;> simp [eq_comm]

/-! ### The checks before a command -/

/-- A legal point number. -/
theorem pointNumber_ok {r : PReg} {d : Fin 4} : pointNumber r = .ok d ↔ d.val = r.val := by
  unfold pointNumber
  split
  · simp [Fin.ext_iff, eq_comm]
  · simp; omega

/-- An illegal point number. -/
theorem pointNumber_error {r : PReg} {c : StatusCode} : pointNumber r = .error c ↔ legalPoint r = false ∧ c = .illegalCommand := by
  unfold pointNumber legalPoint
  split <;> simp [eq_comm] <;> omega

/-- What the configuration check lets through (60_exceptions.md R253, R254). -/
theorem requireConfig_ok {c : ConfigClass} {s : State} {u : Unit} :
    requireConfig c s = .ok u ↔
      (c ≠ .none → s.fieldOk = true) ∧ (c = .mont → s.montOk = true) ∧ (c = .curve → s.vtype = true → s.montOk = true) := by
  cases c <;> cases hf : s.fieldOk <;> cases hm : s.montOk <;> cases hv : s.vtype <;> simp [requireConfig, *]

/-- What the configuration check reports. -/
theorem requireConfig_error {c : ConfigClass} {s : State} {e : StatusCode} :
    requireConfig c s = .error e ↔
      (c ≠ .none ∧ s.fieldOk = false ∧ e = .notConfigured) ∨
      (s.fieldOk = true ∧ s.montOk = false ∧ (c = .mont ∨ (c = .curve ∧ s.vtype = true)) ∧ e = .montNotConfigured) := by
  cases c <;> cases hf : s.fieldOk <;> cases hm : s.montOk <;> cases hv : s.vtype <;> simp [requireConfig, *, eq_comm]

/-- The affine result of a command is one point register written. -/
theorem State.writeAff_eq_setP (s : State) (d : Fin 4) (r : Affine) : ∃ v, s.writeAff d r = s.setP d v := by
  cases r <;> exact ⟨_, rfl⟩

/-! ### The host's transactions -/

/-- A read is free only for a destination of a command in flight. -/
theorem readIsFree_idle {s : State} (h : s.inflight = none) (idx : BitVec 8) : s.readIsFree idx = false := by
  simp [State.readIsFree, h]

/-- An idle read returns the current value. -/
theorem hostReadValue_idle {s : State} (h : s.inflight = none) (idx : BitVec 8) : hostReadValue idx s = s.current (indexOf idx) := by
  simp [hostReadValue, readIsFree_idle h]

/-- An idle read changes nothing but the list of what the host has read. -/
theorem hostRead_idle {s : State} (h : s.inflight = none) (idx : BitVec 8) :
    hostRead idx s = { s with hostReads := s.hostReads ++ [{ idx := idx, value := (hostReadValue idx s).toNat }] } := by
  simp [hostRead, readIsFree_idle h]

/-- An idle write is performed on the register of its index. -/
theorem hostWrite_idle {s : State} (h : s.inflight = none) (idx : BitVec 8) (v : Nat) :
    hostWrite idx v s = hostWriteIdle s (Word.ofNat s.width v) (indexOf idx) := by
  simp [hostWrite, h]

/-- A write while busy is dropped. -/
theorem hostWrite_busy {s : State} (h : s.inflight ≠ none) (idx : BitVec 8) (v : Nat) : hostWrite idx v s = { s with busyWr := true } := by
  unfold hostWrite
  split
  · rfl
  · contradiction

end Sys2Proof.Machine
end

