-- ==== Sys2Proof/Laws/Commands.lean ====
section
/-! SUPPORT. Laws/Commands: every outcome of a command, said once. A proof over all commands cites `exec_ends` and unfolds no meaning. -/

namespace Sys2Proof.Machine

/-- The states a command can end in: NOP's; CFGCOMMIT's two; an error; or one destination register written. -/
inductive Ends (i : Instr) (s : State) : State → Prop where
  | nop : i = .nop → Ends i s s.complete
  | commit : i = .cfgcommit → s.fieldUsable = true → (s.vtype = true → s.montUsable = true) →
      Ends i s { s with fieldOk := s.fieldUsable, montOk := s.montUsable, err := .noError, inflight := none, delay := 0 }
  | reject : i = .cfgcommit → s.fieldUsable = false ∨ (s.vtype = true ∧ s.montUsable = false) →
      Ends i s { s with
        fieldOk := s.fieldUsable, montOk := s.montUsable, err := .configInvalid, sticky := true, inflight := none, delay := 0 }
  | error (c : StatusCode) : i ≠ .cfgcommit → c ≠ .noError → c ≠ .configInvalid → Ends i s (s.raise c)
  | field (rd : FReg) (v : Word s.width) : destF i = some rd → Ends i s (s.setF rd v).complete
  | point (rd : PReg) (d : Fin 4) (v : Point s.width) : destP i = some rd → d.val = rd.val → Ends i s (s.setP d v).complete

/-- A command that is no CFGCOMMIT raises no other codes than these. -/
abbrev CommandError (c : StatusCode) : Prop := c ≠ .noError ∧ c ≠ .configInvalid

theorem finish_ends {i : Instr} {s t : State} {r : Except StatusCode State} (hi : i ≠ .cfgcommit)
    (hr : Yields CommandError (fun u => Ends i s u.complete) r) (h : finish s r = .next t) : Ends i s t := by
  obtain ⟨u, hu, rfl⟩ | ⟨c, hc, rfl⟩ := finish_eq_next.1 h
  · exact hr.1 u hu
  · exact .error c hi (hr.2 c hc).1 (hr.2 c hc).2

theorem yields_pointNumber {r : PReg} {ok : Fin 4 → Prop} (h : ∀ d : Fin 4, d.val = r.val → ok d) :
    Yields CommandError ok (pointNumber r) :=
  ⟨fun d hd => h d (pointNumber_ok.1 hd), fun c hc => by simp [CommandError, (pointNumber_error.1 hc).2]⟩

theorem yields_requireConfig {k : ConfigClass} {s : State} {ok : Unit → Prop} (h : ok ()) : Yields CommandError ok (requireConfig k s) :=
  ⟨fun _ _ => h, fun c hc => by rcases requireConfig_error.1 hc with ⟨_, _, rfl⟩ | ⟨_, _, _, rfl⟩ <;> simp [CommandError]⟩

theorem yields_arith {α : Type} {x : Except StatusCode α} {ok : α → Prop}
    (hx : ∀ c, x = .error c → c = .inverseOfZero ∨ c = .notInvertible) (h : ∀ a, ok a) : Yields CommandError ok x :=
  ⟨fun a _ => h a, fun c hc => by rcases hx c hc with rfl | rfl <;> simp [CommandError]⟩

/-- Every next state of a command is one of its ends. -/
theorem exec_ends {i : Instr} {s t : State} (h : exec i s = .next t) : Ends i s t := by
  cases i
  case nop => obtain rfl := Host.Outcome.next.inj h; exact .nop rfl
  case cfgcommit =>
    simp only [exec, execCfgcommit] at h
    split at h
    · simp at h; subst h; exact .reject rfl (.inl ‹_›)
    · split at h
      · simp at h; subst h; exact .reject rfl (.inr ‹_›)
      · simp at h; subst h; exact .commit rfl (by simp_all) (by simp_all)
  case fmov rd ra => obtain rfl := Host.Outcome.next.inj h; exact .field rd _ rfl
  case pmov rd ra =>
    exact finish_ends (by simp) (.bind (yields_pointNumber fun _ hd => .bind (yields_pointNumber fun _ _ => .pure (.point rd _ _ rfl hd)))) h
  case fadd | fsub | fneg | fred | fzero | fone | fmul | fsqr | fmuli | fpow | mmul | msqr | tomont | frommont | mone | mpow => 
    exact finish_ends (by simp) (.bind (yields_requireConfig (.pure (.field _ _ rfl)))) h
  case finv => exact finish_ends (by simp) (.bind (yields_requireConfig (.bind (yields_arith (fun _ => modInv_error) fun _ => .pure (.field _ _ rfl))))) h
  case fdiv | minv | mdiv => exact finish_ends (by simp) (.bind (yields_requireConfig (.bind (yields_arith (fun _ => divD_error) fun _ => .pure (.field _ _ rfl))))) h
  case ainf | agen | jinf =>
    exact finish_ends (by simp) (.bind (yields_pointNumber fun _ hd => .bind (yields_requireConfig (.pure (.point _ _ _ rfl hd))))) h
  case atoj | jdbl | jmul =>
    exact finish_ends (by simp) (.bind (yields_pointNumber fun _ hd => .bind (yields_pointNumber fun _ _ => .bind (yields_requireConfig (.pure (.point _ _ _ rfl hd)))))) h
  case jadd =>
    exact finish_ends (by simp) (.bind (yields_pointNumber fun _ hd => .bind (yields_pointNumber fun _ _ => .bind (yields_pointNumber fun _ _ => .bind (yields_requireConfig (.pure (.point _ _ _ rfl hd))))))) h
  case adbl | jtoa | amul =>
    refine finish_ends (by simp) (.bind (yields_pointNumber fun d hd => .bind (yields_pointNumber fun _ _ => .bind (yields_requireConfig (.bind (yields_arith ?_ fun r => .pure ?_)))))) h
    · first | exact fun _ => affAdd_error | exact fun _ h => .inr (toAff_error h) | exact fun _ => affMul_error
    · obtain ⟨v, hv⟩ := s.writeAff_eq_setP d r; rw [hv]; exact .point _ _ _ rfl hd
  case aadd =>
    refine finish_ends (by simp) (.bind (yields_pointNumber fun d hd => .bind (yields_pointNumber fun _ _ => .bind (yields_pointNumber fun _ _ => .bind (yields_requireConfig (.bind (yields_arith (fun _ => affAdd_error) fun r => .pure ?_))))))) h
    obtain ⟨v, hv⟩ := s.writeAff_eq_setP d r; rw [hv]; exact .point _ _ _ rfl hd
end Sys2Proof.Machine
end

