-- ==== Sys2Proof/Laws/Decode.lean ====
section
/-! SUPPORT. Laws/Decode: the fields of a command word built from fields, and what each format's decoder answers. -/

namespace Sys2Proof

theorem commandWord_toNat (opc : BitVec 8) (rd ra rb : Fin 16) (imm : Imm) :
    (commandWord opc rd ra rb imm).toNat
      = opc.toNat * 2 ^ 24 + rd.val * 2 ^ 20 + ra.val * 2 ^ 16 + rb.val * 2 ^ 12 + imm.toNat := by
  have := opc.isLt
  have := imm.isLt
  simp only [commandWord, BitVec.toNat_ofNat, Nat.shiftLeft_eq]
  rw [Nat.mod_eq_of_lt (by omega)]

@[simp] theorem opcOf_commandWord (opc : BitVec 8) (rd ra rb : Fin 16) (imm : Imm) :
    opcOf (commandWord opc rd ra rb imm) = opc := by
  have := opc.isLt
  have := imm.isLt
  apply BitVec.eq_of_toNat_eq
  simp only [opcOf, bitField, commandWord_toNat, BitVec.toNat_ofNat, Nat.shiftRight_eq_div_pow]
  omega

@[simp] theorem rdOf_commandWord (opc : BitVec 8) (rd ra rb : Fin 16) (imm : Imm) :
    rdOf (commandWord opc rd ra rb imm) = rd := by
  have := imm.isLt
  ext
  simp only [rdOf, bitField, commandWord_toNat, Fin.ofNat, Nat.shiftRight_eq_div_pow]
  omega

@[simp] theorem raOf_commandWord (opc : BitVec 8) (rd ra rb : Fin 16) (imm : Imm) :
    raOf (commandWord opc rd ra rb imm) = ra := by
  have := imm.isLt
  ext
  simp only [raOf, bitField, commandWord_toNat, Fin.ofNat, Nat.shiftRight_eq_div_pow]
  omega

@[simp] theorem rbOf_commandWord (opc : BitVec 8) (rd ra rb : Fin 16) (imm : Imm) :
    rbOf (commandWord opc rd ra rb imm) = rb := by
  have := imm.isLt
  ext
  simp only [rbOf, bitField, commandWord_toNat, Fin.ofNat, Nat.shiftRight_eq_div_pow]
  omega

@[simp] theorem immOf_commandWord (opc : BitVec 8) (rd ra rb : Fin 16) (imm : Imm) :
    immOf (commandWord opc rd ra rb imm) = imm := by
  have := imm.isLt
  apply BitVec.eq_of_toNat_eq
  simp only [immOf, bitField, commandWord_toNat, BitVec.toNat_ofNat, Nat.shiftRight_eq_div_pow]
  omega

/-- Whether a word built from fields is legal: its format's say on each field (30_encoding.md R86). -/
theorem legal_commandWord {opc : BitVec 8} {fmt : Format} (h : formatOf opc = some fmt) (rd ra rb : Fin 16) (imm : Imm) :
    legal (commandWord opc rd ra rb imm)
      = (legalField fmt.rd rd.val && legalField fmt.ra ra.val && legalField fmt.rb rb.val && legalField fmt.imm imm.toNat) := by
  unfold legal
  rw [opcOf_commandWord, h, rdOf_commandWord, raOf_commandWord, rbOf_commandWord, immOf_commandWord]

/-- A word is the word of its fields. -/
theorem commandWord_fields (w : BitVec 32) : commandWord (opcOf w) (rdOf w) (raOf w) (rbOf w) (immOf w) = w := by
  have := w.isLt
  apply BitVec.eq_of_toNat_eq
  rw [commandWord_toNat]
  simp only [opcOf, rdOf, raOf, rbOf, immOf, bitField, Fin.ofNat, BitVec.toNat_ofNat, Nat.shiftRight_eq_div_pow]
  omega

/-! ### The checks and the formats: what a decoder that answers has checked -/

theorem zeroRd_ok {w : BitVec 32} {u : Unit} : zeroRd w = .ok u ↔ rdOf w = 0 := by simp [zeroRd]
theorem zeroRa_ok {w : BitVec 32} {u : Unit} : zeroRa w = .ok u ↔ raOf w = 0 := by simp [zeroRa]
theorem zeroRb_ok {w : BitVec 32} {u : Unit} : zeroRb w = .ok u ↔ rbOf w = 0 := by simp [zeroRb]
theorem zeroImm_ok {w : BitVec 32} {u : Unit} : zeroImm w = .ok u ↔ immOf w = 0 := by simp [zeroImm]
theorem pointRd_ok {w : BitVec 32} {u : Unit} : pointRd w = .ok u ↔ legalPoint (rdOf w) = true := by simp [pointRd]
theorem pointRa_ok {w : BitVec 32} {u : Unit} : pointRa w = .ok u ↔ legalPoint (raOf w) = true := by simp [pointRa]
theorem pointRb_ok {w : BitVec 32} {u : Unit} : pointRb w = .ok u ↔ legalPoint (rbOf w) = true := by simp [pointRb]

theorem decodeN_ok {w : BitVec 32} {k i : Instr} :
    decodeN w k = .ok i ↔ rdOf w = 0 ∧ raOf w = 0 ∧ rbOf w = 0 ∧ immOf w = 0 ∧ k = i := by
  simp [decodeN, bind_eq_ok, zeroRd_ok, zeroRa_ok, zeroRb_ok, zeroImm_ok, pure_eq_ok]

theorem decodeF1_ok {w : BitVec 32} {k : FReg → Instr} {i : Instr} :
    decodeF1 w k = .ok i ↔ raOf w = 0 ∧ rbOf w = 0 ∧ immOf w = 0 ∧ k (rdOf w) = i := by
  simp [decodeF1, bind_eq_ok, zeroRa_ok, zeroRb_ok, zeroImm_ok, pure_eq_ok]

theorem decodeF2_ok {w : BitVec 32} {k : FReg → FReg → Instr} {i : Instr} :
    decodeF2 w k = .ok i ↔ rbOf w = 0 ∧ immOf w = 0 ∧ k (rdOf w) (raOf w) = i := by
  simp [decodeF2, bind_eq_ok, zeroRb_ok, zeroImm_ok, pure_eq_ok]

theorem decodeF3_ok {w : BitVec 32} {k : FReg → FReg → FReg → Instr} {i : Instr} :
    decodeF3 w k = .ok i ↔ immOf w = 0 ∧ k (rdOf w) (raOf w) (rbOf w) = i := by
  simp [decodeF3, bind_eq_ok, zeroImm_ok, pure_eq_ok]

theorem decodeFI_ok {w : BitVec 32} {k : FReg → FReg → Imm → Instr} {i : Instr} :
    decodeFI w k = .ok i ↔ rbOf w = 0 ∧ k (rdOf w) (raOf w) (immOf w) = i := by
  simp [decodeFI, bind_eq_ok, zeroRb_ok, pure_eq_ok]

theorem decodeP1_ok {w : BitVec 32} {k : PReg → Instr} {i : Instr} :
    decodeP1 w k = .ok i ↔ legalPoint (rdOf w) = true ∧ raOf w = 0 ∧ rbOf w = 0 ∧ immOf w = 0 ∧ k (rdOf w) = i := by
  simp [decodeP1, bind_eq_ok, pointRd_ok, zeroRa_ok, zeroRb_ok, zeroImm_ok, pure_eq_ok]

theorem decodeP2_ok {w : BitVec 32} {k : PReg → PReg → Instr} {i : Instr} :
    decodeP2 w k = .ok i ↔
      legalPoint (rdOf w) = true ∧ legalPoint (raOf w) = true ∧ rbOf w = 0 ∧ immOf w = 0 ∧ k (rdOf w) (raOf w) = i := by
  simp [decodeP2, bind_eq_ok, pointRd_ok, pointRa_ok, zeroRb_ok, zeroImm_ok, pure_eq_ok]

theorem decodeP3_ok {w : BitVec 32} {k : PReg → PReg → PReg → Instr} {i : Instr} :
    decodeP3 w k = .ok i ↔ legalPoint (rdOf w) = true ∧ legalPoint (raOf w) = true ∧ legalPoint (rbOf w) = true ∧ immOf w = 0 ∧
      k (rdOf w) (raOf w) (rbOf w) = i := by
  simp [decodeP3, bind_eq_ok, pointRd_ok, pointRa_ok, pointRb_ok, zeroImm_ok, pure_eq_ok]

theorem decodePK_ok {w : BitVec 32} {k : PReg → PReg → FReg → Instr} {i : Instr} :
    decodePK w k = .ok i ↔
      legalPoint (rdOf w) = true ∧ legalPoint (raOf w) = true ∧ immOf w = 0 ∧ k (rdOf w) (raOf w) (rbOf w) = i := by
  simp [decodePK, bind_eq_ok, pointRd_ok, pointRa_ok, zeroImm_ok, pure_eq_ok]

end Sys2Proof
end

