-- ==== Sys2Proof/Laws/Logical.lean ====
section
/-! SUPPORT. Laws/Logical: the domain primitives on logical values: in either domain a product, sum, difference, small multiple and
quotient of residues stands for that of the logical values, and a canonical residue is known by its logical value. -/

namespace Sys2Proof.Machine

variable {D : Domain}

/-- The constants of a usable domain, in `ZMod M`. -/
theorem Domain.Usable.cast (hD : D.Usable) (hm : D.mont = true) : (D.R : ZMod D.M) * D.RI = 1 := by
  have h := hD.2.2.2 hm
  have h1 : ((D.R * D.RI % D.M : Nat) : ZMod D.M) = (1 : Nat) := by rw [h]
  rwa [ZMod.natCast_mod, Nat.cast_mul, Nat.cast_one] at h1

theorem logical_standard (hm : D.mont = false) (v : Nat) : logical D v = v := by simp [logical, decD, hm]

theorem logical_montgomery (hm : D.mont = true) (v : Nat) : logical D v = v * (D.RI : ZMod D.M) := by
  simp [logical, decD, hm, modMul_cast]

theorem logical_zero : logical D 0 = 0 := by
  unfold logical decD
  split <;> simp [modMul]

theorem logical_oneD (hD : D.Usable) : logical D (oneD D) = 1 := by
  cases hm : D.mont
  · simp [logical_standard hm, oneD, hm]
  · rw [logical_montgomery hm, oneD, if_pos hm, hD.cast hm]

theorem logical_mulD (a b : Nat) : logical D (mulD D a b) = logical D a * logical D b := by
  cases hm : D.mont
  · simp [logical_standard hm, mulD, hm, modMul_cast]
  · simp only [logical_montgomery hm, mulD, hm, if_true, mulReduce, modMul_cast]
    ring

theorem logical_modAdd (a b : Nat) : logical D (modAdd D.M a b) = logical D a + logical D b := by
  cases hm : D.mont
  · simp [logical_standard hm, modAdd_cast]
  · simp only [logical_montgomery hm, modAdd_cast]
    ring

theorem logical_modSub {a b : Nat} (hb : b < D.M) : logical D (modSub D.M a b) = logical D a - logical D b := by
  cases hm : D.mont
  · simp [logical_standard hm, modSub_cast hb.le]
  · simp only [logical_montgomery hm, modSub_cast hb.le]
    ring

theorem logical_modMulSmall (k a : Nat) : logical D (modMulSmall D.M k a) = k * logical D a := by
  cases hm : D.mont
  · simp [logical_standard hm, modMulSmall_cast]
  · simp only [logical_montgomery hm, modMulSmall_cast]
    ring

/-- `enc_d` enters the domain: its logical value is the number. -/
theorem logical_encD (hD : D.Usable) (x : Nat) : logical D (encD D x) = x := by
  cases hm : D.mont
  · simp [logical_standard hm, encD, hm]
  · rw [logical_montgomery hm, encD, if_pos hm, modMul_cast, mul_assoc, hD.cast hm, mul_one]

/-- Canonical residues with one logical value are equal. -/
theorem eq_of_logical_eq (hD : D.Usable) {a b : Nat} (ha : a < D.M) (hb : b < D.M) (h : logical D a = logical D b) : a = b := by
  refine eq_of_cast_eq ha hb ?_
  cases hm : D.mont
  · simpa [logical_standard hm] using h
  · rw [logical_montgomery hm, logical_montgomery hm] at h
    have := congrArg (· * (D.R : ZMod D.M)) h
    simpa [mul_assoc, mul_comm (D.RI : ZMod D.M), hD.cast hm] using this

theorem logical_inj (hD : D.Usable) {a b : Nat} (ha : a < D.M) (hb : b < D.M) : logical D a = logical D b ↔ a = b :=
  ⟨eq_of_logical_eq hD ha hb, fun h => h ▸ rfl⟩

theorem logical_eq_zero (hD : D.Usable) {a : Nat} (ha : a < D.M) : logical D a = 0 ↔ a = 0 := by
  rw [← logical_zero, logical_inj hD ha (by have := hD.1; omega)]

/-- A quotient: the divisor is invertible, and the quotient times the divisor is the dividend. -/
theorem logical_divD (hD : D.Usable) {a b l : Nat} (hb : b < D.M) (h : divD D a b = .ok l) :
    IsUnit (logical D b) ∧ logical D l * logical D b = logical D a := by
  unfold divD at h
  obtain ⟨i, hi, h⟩ := bind_eq_ok.1 h
  have hM : 1 < D.M := hD.1
  have hg : Nat.gcd b D.M = 1 := by
    by_contra hg
    rcases Nat.eq_zero_or_pos b with h0 | h0
    · subst h0; rw [modInv_zero] at hi; cases hi
    · rw [modInv_of_not_coprime (by omega) hM hg] at hi; cases hi
  obtain ⟨x, hx, -, -, hbx⟩ := modInv_of_coprime hM hb hg
  obtain rfl : i = x := by rw [hi] at hx; exact Except.ok.inj hx
  have hz : (b : ZMod D.M) * i = 1 := by
    have : ((b * i % D.M : Nat) : ZMod D.M) = (1 : Nat) := by rw [hbx]
    rwa [ZMod.natCast_mod, Nat.cast_mul, Nat.cast_one] at this
  simp only [pure_eq_ok, Except.ok.injEq] at h
  subst h
  cases hm : D.mont
  · simp only [logical_standard hm, Bool.false_eq_true, if_false, modMul_cast]
    exact ⟨IsUnit.of_mul_eq_one _ hz, by rw [mul_assoc, mul_comm (i : ZMod D.M), hz, mul_one]⟩
  · simp only [logical_montgomery hm, if_true, mulReduce, modMul_cast]
    have hc := hD.cast hm
    refine ⟨IsUnit.of_mul_eq_one ((D.R : ZMod D.M) * i) ?_, ?_⟩
    · linear_combination (D.R * D.RI : ZMod D.M) * hz + hc
    · linear_combination (a * D.RI * D.R * D.RI : ZMod D.M) * hz + (a * D.RI : ZMod D.M) * hc

/-- A division by a canonical value that is invertible answers. -/
theorem divD_ok (hD : D.Usable) (a : Nat) {b : Nat} (hb : b < D.M) (hu : IsUnit (logical D b)) : ∃ l, divD D a b = .ok l := by
  have hg : Nat.gcd b D.M = 1 := by
    have : IsUnit (b : ZMod D.M) := by
      cases hm : D.mont
      · simpa [logical_standard hm] using hu
      · rw [logical_montgomery hm] at hu
        exact isUnit_of_mul_isUnit_left hu
    exact (ZMod.isUnit_iff_coprime b D.M).1 this
  obtain ⟨x, hx, -⟩ := modInv_of_coprime hD.1 hb hg
  exact ⟨_, by simp only [divD, hx, ok_bind]; rfl⟩

/-! ### The domains of a configured block -/

theorem State.FieldReady.standard_usable {s : State} (h : s.FieldReady) : (s.domain false).Usable :=
  ⟨h.2, red_lt (by have := h.2; omega) _, red_lt (by have := h.2; omega) _, fun h => by cases h⟩

theorem State.MontReady.usable {s : State} (h : s.MontReady) : (s.domain true).Usable :=
  ⟨h.1.2, red_lt (by have := h.1.2; omega) _, red_lt (by have := h.1.2; omega) _, fun _ => h.2.2⟩

theorem State.CurveReady.usable {s : State} (h : s.CurveReady) : s.curve.Usable :=
  ⟨h.1.2, red_lt (by have := h.1.2; omega) _, red_lt (by have := h.1.2; omega) _, fun hv => (h.2 hv).2⟩

theorem State.CurveReady.readAff_canonical {s : State} (h : s.CurveReady) (i : Fin 4) : (s.readAff i).Canonical s.M := by
  have h0 : 0 < s.M := by have := h.1.2; omega
  unfold State.readAff
  split
  · trivial
  · exact ⟨red_lt h0 _, red_lt h0 _⟩

theorem State.CurveReady.readJac_canonical {s : State} (h : s.CurveReady) (i : Fin 4) : (s.readJac i).Canonical s.M := by
  have h0 : 0 < s.M := by have := h.1.2; omega
  exact ⟨red_lt h0 _, red_lt h0 _, red_lt h0 _⟩

end Sys2Proof.Machine
end

