-- ==== Sys2Proof/Laws/PerInstr.lean ====
section
/-! SUPPORT. Laws/PerInstr: what is said of every command, one lemma per constructor. Family EncodedFormat: the opcode of a command's
word is one that 30_encoding.md R84 lists, with the format of the command's row in spec/opcode_table.json. -/

namespace Sys2Proof.Laws.EncodedFormat

/-- The format of each command's row in spec/opcode_table.json (30_encoding.md R82). -/
def rowFormat : Instr → Format
  | .nop | .cfgcommit => .N
  | .fzero _ | .fone _ | .mone _ => .F1
  | .fmov _ _ | .fneg _ _ | .fred _ _ | .fsqr _ _ | .msqr _ _ | .tomont _ _ | .frommont _ _ | .finv _ _ | .minv _ _ => .F2
  | .fadd _ _ _ | .fsub _ _ _ | .fmul _ _ _ | .fpow _ _ _ | .mmul _ _ _ | .mpow _ _ _ | .fdiv _ _ _ | .mdiv _ _ _ => .F3
  | .fmuli _ _ _ => .FI
  | .ainf _ | .agen _ | .jinf _ => .P1
  | .pmov _ _ | .adbl _ _ | .atoj _ _ | .jtoa _ _ | .jdbl _ _ => .P2
  | .aadd _ _ _ | .jadd _ _ _ => .P3
  | .amul _ _ _ | .jmul _ _ _ => .PK

/-- The word of a command carries an opcode of its row's format, and its zero fields are zero. -/
def Statement (i : Instr) : Prop :=
  formatOf (opcOf (encode i)) = some (rowFormat i) ∧ ((rowFormat i).imm = .zero → immOf (encode i) = 0)

theorem nop : Statement .nop := by
  simp only [Statement, encode, opcOf_commandWord, immOf_commandWord]; exact ⟨rfl, fun _ => trivial⟩
theorem cfgcommit : Statement .cfgcommit := by
  simp only [Statement, encode, opcOf_commandWord, immOf_commandWord]; exact ⟨rfl, fun _ => trivial⟩
theorem fmov (rd ra : FReg) : Statement (.fmov rd ra) := by
  simp only [Statement, encode, opcOf_commandWord, immOf_commandWord]; exact ⟨rfl, fun _ => trivial⟩
theorem pmov (rd ra : PReg) : Statement (.pmov rd ra) := by
  simp only [Statement, encode, opcOf_commandWord, immOf_commandWord]; exact ⟨rfl, fun _ => trivial⟩
theorem fadd (rd ra rb : FReg) : Statement (.fadd rd ra rb) := by
  simp only [Statement, encode, opcOf_commandWord, immOf_commandWord]; exact ⟨rfl, fun _ => trivial⟩
theorem fsub (rd ra rb : FReg) : Statement (.fsub rd ra rb) := by
  simp only [Statement, encode, opcOf_commandWord, immOf_commandWord]; exact ⟨rfl, fun _ => trivial⟩
theorem fneg (rd ra : FReg) : Statement (.fneg rd ra) := by
  simp only [Statement, encode, opcOf_commandWord, immOf_commandWord]; exact ⟨rfl, fun _ => trivial⟩
theorem fred (rd ra : FReg) : Statement (.fred rd ra) := by
  simp only [Statement, encode, opcOf_commandWord, immOf_commandWord]; exact ⟨rfl, fun _ => trivial⟩
theorem fzero (rd : FReg) : Statement (.fzero rd) := by
  simp only [Statement, encode, opcOf_commandWord, immOf_commandWord]; exact ⟨rfl, fun _ => trivial⟩
theorem fone (rd : FReg) : Statement (.fone rd) := by
  simp only [Statement, encode, opcOf_commandWord, immOf_commandWord]; exact ⟨rfl, fun _ => trivial⟩
theorem fmul (rd ra rb : FReg) : Statement (.fmul rd ra rb) := by
  simp only [Statement, encode, opcOf_commandWord, immOf_commandWord]; exact ⟨rfl, fun _ => trivial⟩
theorem fsqr (rd ra : FReg) : Statement (.fsqr rd ra) := by
  simp only [Statement, encode, opcOf_commandWord, immOf_commandWord]; exact ⟨rfl, fun _ => trivial⟩
theorem fmuli (rd ra : FReg) (imm : Imm) : Statement (.fmuli rd ra imm) := by
  simp only [Statement, encode, opcOf_commandWord, immOf_commandWord]; exact ⟨rfl, fun h => nomatch h⟩
theorem fpow (rd ra rb : FReg) : Statement (.fpow rd ra rb) := by
  simp only [Statement, encode, opcOf_commandWord, immOf_commandWord]; exact ⟨rfl, fun _ => trivial⟩
theorem mmul (rd ra rb : FReg) : Statement (.mmul rd ra rb) := by
  simp only [Statement, encode, opcOf_commandWord, immOf_commandWord]; exact ⟨rfl, fun _ => trivial⟩
theorem msqr (rd ra : FReg) : Statement (.msqr rd ra) := by
  simp only [Statement, encode, opcOf_commandWord, immOf_commandWord]; exact ⟨rfl, fun _ => trivial⟩
theorem tomont (rd ra : FReg) : Statement (.tomont rd ra) := by
  simp only [Statement, encode, opcOf_commandWord, immOf_commandWord]; exact ⟨rfl, fun _ => trivial⟩
theorem frommont (rd ra : FReg) : Statement (.frommont rd ra) := by
  simp only [Statement, encode, opcOf_commandWord, immOf_commandWord]; exact ⟨rfl, fun _ => trivial⟩
theorem mone (rd : FReg) : Statement (.mone rd) := by
  simp only [Statement, encode, opcOf_commandWord, immOf_commandWord]; exact ⟨rfl, fun _ => trivial⟩
theorem mpow (rd ra rb : FReg) : Statement (.mpow rd ra rb) := by
  simp only [Statement, encode, opcOf_commandWord, immOf_commandWord]; exact ⟨rfl, fun _ => trivial⟩
theorem finv (rd ra : FReg) : Statement (.finv rd ra) := by
  simp only [Statement, encode, opcOf_commandWord, immOf_commandWord]; exact ⟨rfl, fun _ => trivial⟩
theorem fdiv (rd ra rb : FReg) : Statement (.fdiv rd ra rb) := by
  simp only [Statement, encode, opcOf_commandWord, immOf_commandWord]; exact ⟨rfl, fun _ => trivial⟩
theorem minv (rd ra : FReg) : Statement (.minv rd ra) := by
  simp only [Statement, encode, opcOf_commandWord, immOf_commandWord]; exact ⟨rfl, fun _ => trivial⟩
theorem mdiv (rd ra rb : FReg) : Statement (.mdiv rd ra rb) := by
  simp only [Statement, encode, opcOf_commandWord, immOf_commandWord]; exact ⟨rfl, fun _ => trivial⟩
theorem ainf (rd : PReg) : Statement (.ainf rd) := by
  simp only [Statement, encode, opcOf_commandWord, immOf_commandWord]; exact ⟨rfl, fun _ => trivial⟩
theorem agen (rd : PReg) : Statement (.agen rd) := by
  simp only [Statement, encode, opcOf_commandWord, immOf_commandWord]; exact ⟨rfl, fun _ => trivial⟩
theorem aadd (rd ra rb : PReg) : Statement (.aadd rd ra rb) := by
  simp only [Statement, encode, opcOf_commandWord, immOf_commandWord]; exact ⟨rfl, fun _ => trivial⟩
theorem adbl (rd ra : PReg) : Statement (.adbl rd ra) := by
  simp only [Statement, encode, opcOf_commandWord, immOf_commandWord]; exact ⟨rfl, fun _ => trivial⟩
theorem atoj (rd ra : PReg) : Statement (.atoj rd ra) := by
  simp only [Statement, encode, opcOf_commandWord, immOf_commandWord]; exact ⟨rfl, fun _ => trivial⟩
theorem jtoa (rd ra : PReg) : Statement (.jtoa rd ra) := by
  simp only [Statement, encode, opcOf_commandWord, immOf_commandWord]; exact ⟨rfl, fun _ => trivial⟩
theorem jinf (rd : PReg) : Statement (.jinf rd) := by
  simp only [Statement, encode, opcOf_commandWord, immOf_commandWord]; exact ⟨rfl, fun _ => trivial⟩
theorem jadd (rd ra rb : PReg) : Statement (.jadd rd ra rb) := by
  simp only [Statement, encode, opcOf_commandWord, immOf_commandWord]; exact ⟨rfl, fun _ => trivial⟩
theorem jdbl (rd ra : PReg) : Statement (.jdbl rd ra) := by
  simp only [Statement, encode, opcOf_commandWord, immOf_commandWord]; exact ⟨rfl, fun _ => trivial⟩
theorem amul (rd ra : PReg) (rb : FReg) : Statement (.amul rd ra rb) := by
  simp only [Statement, encode, opcOf_commandWord, immOf_commandWord]; exact ⟨rfl, fun _ => trivial⟩
theorem jmul (rd ra : PReg) (rb : FReg) : Statement (.jmul rd ra rb) := by
  simp only [Statement, encode, opcOf_commandWord, immOf_commandWord]; exact ⟨rfl, fun _ => trivial⟩

end Sys2Proof.Laws.EncodedFormat
end

