-- ==== Sys2Proof/Machine/Assembly.lean ====
section
/-! DEFINITION. Machine/Assembly: the assembler syntax of a command (30_encoding.md R88). It is notation only
(92_eei_decisions.md D19): no step depends on it. -/

namespace Sys2Proof.Machine

/-- Field registers are written `F0` to `F15` (30_encoding.md R88). -/
def asmF (r : FReg) : String := "F" ++ toString r.val

/-- Point registers are written `P0` to `P3` (30_encoding.md R88). -/
def asmP (r : PReg) : String := "P" ++ toString r.val

def asm1 (m a : String) : String := m ++ " " ++ a
def asm2 (m a b : String) : String := m ++ " " ++ a ++ ", " ++ b
def asm3 (m a b c : String) : String := m ++ " " ++ a ++ ", " ++ b ++ ", " ++ c

/-- The text of a command: the mnemonic, then its operands in the order RD, RA, RB or RD, RA, IMM (30_encoding.md R88). The
immediate is written in decimal, one of the two forms R88 allows. -/
def asm : Instr → String
  | .nop => "NOP"
  | .cfgcommit => "CFGCOMMIT"
  | .fmov rd ra => asm2 "FMOV" (asmF rd) (asmF ra)
  | .pmov rd ra => asm2 "PMOV" (asmP rd) (asmP ra)
  | .fadd rd ra rb => asm3 "FADD" (asmF rd) (asmF ra) (asmF rb)
  | .fsub rd ra rb => asm3 "FSUB" (asmF rd) (asmF ra) (asmF rb)
  | .fneg rd ra => asm2 "FNEG" (asmF rd) (asmF ra)
  | .fred rd ra => asm2 "FRED" (asmF rd) (asmF ra)
  | .fzero rd => asm1 "FZERO" (asmF rd)
  | .fone rd => asm1 "FONE" (asmF rd)
  | .fmul rd ra rb => asm3 "FMUL" (asmF rd) (asmF ra) (asmF rb)
  | .fsqr rd ra => asm2 "FSQR" (asmF rd) (asmF ra)
  | .fmuli rd ra imm => asm3 "FMULI" (asmF rd) (asmF ra) (toString imm.toNat)
  | .fpow rd ra rb => asm3 "FPOW" (asmF rd) (asmF ra) (asmF rb)
  | .mmul rd ra rb => asm3 "MMUL" (asmF rd) (asmF ra) (asmF rb)
  | .msqr rd ra => asm2 "MSQR" (asmF rd) (asmF ra)
  | .tomont rd ra => asm2 "TOMONT" (asmF rd) (asmF ra)
  | .frommont rd ra => asm2 "FROMMONT" (asmF rd) (asmF ra)
  | .mone rd => asm1 "MONE" (asmF rd)
  | .mpow rd ra rb => asm3 "MPOW" (asmF rd) (asmF ra) (asmF rb)
  | .finv rd ra => asm2 "FINV" (asmF rd) (asmF ra)
  | .fdiv rd ra rb => asm3 "FDIV" (asmF rd) (asmF ra) (asmF rb)
  | .minv rd ra => asm2 "MINV" (asmF rd) (asmF ra)
  | .mdiv rd ra rb => asm3 "MDIV" (asmF rd) (asmF ra) (asmF rb)
  | .ainf rd => asm1 "AINF" (asmP rd)
  | .agen rd => asm1 "AGEN" (asmP rd)
  | .aadd rd ra rb => asm3 "AADD" (asmP rd) (asmP ra) (asmP rb)
  | .adbl rd ra => asm2 "ADBL" (asmP rd) (asmP ra)
  | .atoj rd ra => asm2 "ATOJ" (asmP rd) (asmP ra)
  | .jtoa rd ra => asm2 "JTOA" (asmP rd) (asmP ra)
  | .jinf rd => asm1 "JINF" (asmP rd)
  | .jadd rd ra rb => asm3 "JADD" (asmP rd) (asmP ra) (asmP rb)
  | .jdbl rd ra => asm2 "JDBL" (asmP rd) (asmP ra)
  | .amul rd ra rb => asm3 "AMUL" (asmP rd) (asmP ra) (asmF rb)
  | .jmul rd ra rb => asm3 "JMUL" (asmP rd) (asmP ra) (asmF rb)

end Sys2Proof.Machine
end

