-- ==== Sys2Proof/Tests/Slice0.lean ====
section
/-! SUPPORT. Tests/Slice0: words and vectors taken from the spec, checked on the model, and for every statement with hypotheses a
concrete state that meets them. Every expected value stands in the spec: the vector (V-...) or the rule is named. -/

namespace Sys2Proof.Tests

open Sys2Proof Sys2Proof.Machine

set_option Elab.async false

/-! ### Ill-formed commands: a point number above 3 in each place (30_encoding.md R81) -/

theorem test_wf_refuses_pmov : Instr.wf (.pmov 4 0) = false ∧ Instr.wf (.pmov 0 4) = false := by decide
theorem test_wf_refuses_ainf : Instr.wf (.ainf 4) = false := by decide
theorem test_wf_refuses_agen : Instr.wf (.agen 15) = false := by decide
theorem test_wf_refuses_aadd : Instr.wf (.aadd 4 0 0) = false ∧ Instr.wf (.aadd 0 4 0) = false ∧ Instr.wf (.aadd 0 0 4) = false := by decide
theorem test_wf_refuses_adbl : Instr.wf (.adbl 4 0) = false ∧ Instr.wf (.adbl 0 4) = false := by decide
theorem test_wf_refuses_atoj : Instr.wf (.atoj 4 0) = false ∧ Instr.wf (.atoj 0 4) = false := by decide
theorem test_wf_refuses_jtoa : Instr.wf (.jtoa 4 0) = false ∧ Instr.wf (.jtoa 0 4) = false := by decide
theorem test_wf_refuses_jinf : Instr.wf (.jinf 4) = false := by decide
theorem test_wf_refuses_jadd : Instr.wf (.jadd 4 0 0) = false ∧ Instr.wf (.jadd 0 4 0) = false ∧ Instr.wf (.jadd 0 0 4) = false := by decide
theorem test_wf_refuses_jdbl : Instr.wf (.jdbl 4 0) = false ∧ Instr.wf (.jdbl 0 4) = false := by decide
theorem test_wf_refuses_amul : Instr.wf (.amul 4 0 0) = false ∧ Instr.wf (.amul 0 4 0) = false := by decide
theorem test_wf_refuses_jmul : Instr.wf (.jmul 4 0 0) = false ∧ Instr.wf (.jmul 0 4 0) = false := by decide
theorem test_wf_accepts : Instr.wf (.aadd 3 3 3) = true ∧ Instr.wf (.amul 3 3 15) = true ∧ Instr.wf (.fadd 15 15 15) = true := by decide

/-! ### Words written out from 30_encoding.md R80, R82, R84 and the examples of the command rules -/

theorem test_decode_control :
    decode 0x00000000#32 = .ok .nop ∧
    decode 0x01000000#32 = .ok .cfgcommit ∧
    decode 0x02210000#32 = .ok (.fmov 2 1) ∧
    decode 0x03300000#32 = .ok (.pmov 3 0) := by
  decide +kernel
theorem test_decode_adder :
    decode 0x10312000#32 = .ok (.fadd 3 1 2) ∧
    decode 0x11312000#32 = .ok (.fsub 3 1 2) ∧
    decode 0x12210000#32 = .ok (.fneg 2 1) ∧
    decode 0x13110000#32 = .ok (.fred 1 1) ∧
    decode 0x14700000#32 = .ok (.fzero 7) ∧
    decode 0x15000000#32 = .ok (.fone 0) := by
  decide +kernel
theorem test_decode_multiplier_standard :
    decode 0x20312000#32 = .ok (.fmul 3 1 2) ∧
    decode 0x21210000#32 = .ok (.fsqr 2 1) ∧
    decode 0x22210FFF#32 = .ok (.fmuli 2 1 4095) ∧
    decode 0x22900FFF#32 = .ok (.fmuli 9 0 4095) ∧
    decode 0x23312000#32 = .ok (.fpow 3 1 2) := by
  decide +kernel
theorem test_decode_multiplier_montgomery :
    decode 0x28201000#32 = .ok (.mmul 2 0 1) ∧
    decode 0x29100000#32 = .ok (.msqr 1 0) ∧
    decode 0x2A100000#32 = .ok (.tomont 1 0) ∧
    decode 0x2B210000#32 = .ok (.frommont 2 1) ∧
    decode 0x2C500000#32 = .ok (.mone 5) ∧
    decode 0x2D201000#32 = .ok (.mpow 2 0 1) := by
  decide +kernel
theorem test_decode_inverse :
    decode 0x30210000#32 = .ok (.finv 2 1) ∧
    decode 0x31301000#32 = .ok (.fdiv 3 0 1) ∧
    decode 0x38100000#32 = .ok (.minv 1 0) ∧
    decode 0x39201000#32 = .ok (.mdiv 2 0 1) := by
  decide +kernel
theorem test_decode_affine :
    decode 0x40200000#32 = .ok (.ainf 2) ∧
    decode 0x41000000#32 = .ok (.agen 0) ∧
    decode 0x42201000#32 = .ok (.aadd 2 0 1) ∧
    decode 0x43100000#32 = .ok (.adbl 1 0) ∧
    decode 0x44000000#32 = .ok (.atoj 0 0) ∧
    decode 0x45210000#32 = .ok (.jtoa 2 1) := by
  decide +kernel
theorem test_decode_jacobian :
    decode 0x50300000#32 = .ok (.jinf 3) ∧
    decode 0x51201000#32 = .ok (.jadd 2 0 1) ∧
    decode 0x52100000#32 = .ok (.jdbl 1 0) ∧
    decode 0x52330000#32 = .ok (.jdbl 3 3) := by
  decide +kernel
theorem test_decode_scalar :
    decode 0x60105000#32 = .ok (.amul 1 0 5) ∧
    decode 0x6010F000#32 = .ok (.amul 1 0 15) ∧
    decode 0x61105000#32 = .ok (.jmul 1 0 5) := by
  decide +kernel
/-- V-E8 to V-E13, V-E15: each illegal word is refused by the reason the spec gives. -/
theorem test_decode_illegal :
    decode 0x42204000#32 = .error (.pointNumber .rb) ∧ decode 0x10312001#32 = .error (.nonzeroField .imm) ∧
    decode 0x00000001#32 = .error (.nonzeroField .imm) ∧ decode 0x04000000#32 = .error .reservedOpcode ∧
    decode 0xFF000000#32 = .error .reservedOpcode ∧ decode 0x12211000#32 = .error (.nonzeroField .rb) ∧
    decode 0x52340000#32 = .error (.pointNumber .ra) := by
  decide +kernel
theorem test_encode_worked :
    encode (.fmuli 4 4 3) = 0x22440003#32 ∧ encode (.fdiv 3 0 1) = 0x31301000#32 ∧ encode (.jmul 1 0 5) = 0x61105000#32 := by
  decide +kernel
theorem test_table_word : decodeTableWord 32 0x61105000 = some (.jmul 1 0 5) ∧ decodeTableWord 32 0x42204000 = none := by
  decide +kernel
/-- The examples of 30_encoding.md R88. -/
theorem test_assembly :
    asm (.fadd 3 1 2) = "FADD F3, F1, F2" ∧ asm (.fmuli 4 4 3) = "FMULI F4, F4, 3" ∧ asm (.amul 1 0 5) = "AMUL P1, P0, F5" ∧
    asm .cfgcommit = "CFGCOMMIT" := by
  decide +kernel
theorem test_pseudo_fdbl : encode (pseudoFdbl 2 1) = 0x22210002#32 := by decide +kernel
/-- 20_memory.md R61: the ends of each range of the index map. -/
theorem test_index_map :
    indexOf 0x0F#8 = .field 15 ∧ indexOf 0x10#8 = .unmapped ∧ indexOf 0x1F#8 = .unmapped ∧ indexOf 0x20#8 = .point 0 .x ∧
    indexOf 0x2F#8 = .point 3 .inf ∧ indexOf 0x25#8 = .point 1 .y ∧ indexOf 0x2A#8 = .point 2 .z ∧ indexOf 0x30#8 = .unmapped ∧
    indexOf 0x3F#8 = .unmapped ∧ indexOf 0x40#8 = .modulus ∧ indexOf 0x46#8 = .ctrl ∧ indexOf 0x47#8 = .unmapped ∧
    indexOf 0x50#8 = .cmd ∧ indexOf 0x51#8 = .status ∧ indexOf 0x52#8 = .unmapped ∧ indexOf 0xFF#8 = .unmapped := by
  decide +kernel

/-! ### Small states -/

/-- An idle block with a configuration, the first field registers and the first point registers given, the others 0. FIELD_OK and
MONT_OK are as CFGCOMMIT leaves them. -/
def block (w : Width) (m rc ri a : Nat) (vt : Bool) (fs : List Nat) (ps : List (Nat × Nat × Nat × Bool)) : State :=
  { width := w
    f := Vector.ofFn fun i => Word.ofNat w (fs.getD i.val 0)
    p := Vector.ofFn fun i =>
      let q := ps.getD i.val (0, 0, 0, false)
      { x := Word.ofNat w q.1, y := Word.ofNat w q.2.1, z := Word.ofNat w q.2.2.1, inf := q.2.2.2 }
    modulus := Word.ofNat w m
    rconst := Word.ofNat w rc
    rinv := Word.ofNat w ri
    curveA := Word.ofNat w a
    curveGx := Word.ofNat w 2
    curveGy := Word.ofNat w 6
    vtype := vt
    err := .noError
    sticky := false
    fieldOk := decide (2 ≤ m)
    montOk := decide (2 ≤ m) && decide (rc * ri % m = 1)
    busyWr := false
    lastCmd := 0
    inflight := none
    delay := 0
    draws := 32
    hostOps := []
    hostReads := [] }

/-- Field F19 of 95_test_vectors.md with its Montgomery constants. -/
def f19 (fs : List Nat) : State := block .w64 19 17 9 1 false fs []
/-- Field F64. -/
def f64 (fs : List Nat) : State := block .w64 (2 ^ 64 - 59) 0 0 0 false fs []
/-- Field F256. -/
def f256 (fs : List Nat) : State := block .w256 (2 ^ 256 - 189) 0 0 0 false fs []
/-- Composite modulus 15. -/
def f15 (fs : List Nat) (ps : List (Nat × Nat × Nat × Bool)) : State := block .w64 15 2 8 1 false fs ps
def p : Nat := 1125899839733759
/-- Curve C. -/
def curveC (fs : List Nat) (ps : List (Nat × Nat × Nat × Bool)) : State := block .w64 p 0 0 7 false fs ps
/-- Curve C in Montgomery form. -/
def curveM (fs : List Nat) (ps : List (Nat × Nat × Nat × Bool)) : State :=
  { block .w64 p 1099511644160 343597359104 7696581509120 true fs ps with
    curveGx := 2199023288320#64, curveGy := 6597069864960#64 }
def k : Nat := 570768668753918
def G : Nat × Nat × Nat × Bool := (2, 6, 0, false)
def J : Nat × Nat × Nat × Bool := (2, 6, 1, false)

/-- Whether the outcome is a next state with a property. -/
def nextWith (o : Host.Outcome State Fault Refusal) (q : State → Bool) : Bool :=
  match o with
  | .next t => q t
  | .fault _ => false
  | .refused _ => false

theorem exists_next {o : Host.Outcome State Fault Refusal} {q : State → Bool} (h : nextWith o q = true) :
    ∃ t, o = .next t ∧ q t = true := by
  cases o with
  | next t => exact ⟨t, rfl, h⟩
  | fault _ => exact absurd h (by simp [nextWith])
  | refused _ => exact absurd h (by simp [nextWith])

/-- The field register `r` and ERR after a command. -/
def fAfter (i : Instr) (s : State) (r : FReg) : Option (Nat × Nat) :=
  match exec i s with
  | .next t => some (t.F r, t.err.code)
  | .fault _ => none
  | .refused _ => none

/-- The point register `r` after a command that completed with ERR 0. -/
def pAfter (i : Instr) (s : State) (r : Fin 4) : Option (Nat × Nat × Nat × Bool) :=
  match exec i s with
  | .next t => if t.err = .noError then some (t.PX r, t.PY r, t.PZ r, t.PINF r) else none
  | .fault _ => none
  | .refused _ => none

/-- STATUS after a command. -/
def statusAfter (i : Instr) (s : State) : Option Nat :=
  match exec i s with
  | .next t => some t.statusWord
  | .fault _ => none
  | .refused _ => none

/-! ### Vectors of 95_test_vectors.md, at most two theorems for each command -/

/-- V-C1, V-X6. -/
theorem test_nop : statusAfter .nop (f19 []) = some 0x600 ∧ statusAfter .nop (block .w64 0 0 0 0 false [] []) = some 0 := by decide +kernel
/-- V-C2, V-C3, V-C4, V-C5. -/
theorem test_cfgcommit : statusAfter .cfgcommit (block .w64 0 0 0 0 false [] []) = some 0x130 ∧ statusAfter .cfgcommit (block .w64 1 0 0 0 false [] []) = some 0x130 ∧
    statusAfter .cfgcommit (block .w64 19 0 0 0 false [] []) = some 0x200 ∧ statusAfter .cfgcommit (block .w64 19 0 0 0 true [] []) = some 0x330 := by decide +kernel
/-- V-C6, V-C7, V-C8. -/
theorem test_cfgcommit_reduces : statusAfter .cfgcommit (block .w64 19 17 9 0 false [] []) = some 0x600 ∧ statusAfter .cfgcommit (block .w64 19 36 28 0 false [] []) = some 0x600 ∧
    statusAfter .cfgcommit (block .w64 19 5 4 0 false [] []) = some 0x600 := by decide +kernel
/-- V-C9, V-X7. -/
theorem test_fmov_raw : fAfter (.fmov 2 1) (block .w64 0 0 0 0 false [0, 2 ^ 64 - 1] []) 2 = some (2 ^ 64 - 1, 0) := by decide +kernel
/-- V-C10. -/
theorem test_pmov_raw : pAfter (.pmov 3 0) (curveC [] [G]) 3 = some (2, 6, 0, false) ∧ pAfter (.pmov 3 0) (curveC [] [(p + 2, 5, 7, true)]) 3 = some (p + 2, 5, 7, true) := by decide +kernel
/-- V-A1, V-A8, V-A9. -/
theorem test_fadd : fAfter (.fadd 3 1 2) (f19 [0, 6, 16]) 3 = some (3, 0) ∧ fAfter (.fadd 3 1 2) (f19 [0, 2 ^ 64 - 1, 19]) 3 = some (16, 0) ∧
    fAfter (.fadd 1 1 1) (f19 [0, 6]) 1 = some (12, 0) := by decide +kernel
/-- V-A13, V-A16. -/
theorem test_fadd_wide : fAfter (.fadd 0 1 1) (f64 [0, 2 ^ 64 - 60]) 0 = some (18446744073709551555, 0) ∧ fAfter (.fadd 0 1 1) (f256 [0, 2 ^ 256 - 190]) 0 =
    some (115792089237316195423570985008687907853269984665640564039457584007913129639745, 0) := by decide +kernel
/-- V-A2, V-A3, V-A4. -/
theorem test_fsub : fAfter (.fsub 3 1 2) (f19 [0, 6, 16]) 3 = some (9, 0) ∧ fAfter (.fsub 3 2 1) (f19 [0, 6, 16]) 3 = some (10, 0) ∧
    fAfter (.fsub 3 1 1) (f19 [0, 7]) 3 = some (0, 0) := by decide +kernel
/-- V-A15. -/
theorem test_fsub_wide : fAfter (.fsub 2 0 1) (f64 [0, 1]) 2 = some (18446744073709551556, 0) := by decide +kernel
/-- V-A5, V-A6, V-A7. -/
theorem test_fneg : fAfter (.fneg 2 1) (f19 [0, 6]) 2 = some (13, 0) ∧ fAfter (.fneg 2 1) (f19 [0, 0, 5]) 2 = some (0, 0) ∧ fAfter (.fneg 2 1) (f19 [0, 19, 5]) 2 = some (0, 0) := by decide +kernel
/-- V-A10, V-A14, V-A17. -/
theorem test_fred : fAfter (.fred 1 1) (f19 [0, 100]) 1 = some (5, 0) ∧ fAfter (.fred 1 0) (f64 [2 ^ 64 - 1]) 1 = some (58, 0) ∧
    fAfter (.fred 1 0) (f256 [2 ^ 256 - 1]) 1 = some (188, 0) := by decide +kernel
/-- V-A11. -/
theorem test_fzero : fAfter (.fzero 0) (f19 [7]) 0 = some (0, 0) := by decide +kernel
/-- V-A12. -/
theorem test_fone : fAfter (.fone 0) (f19 [7]) 0 = some (1, 0) := by decide +kernel
/-- V-A18. -/
theorem test_field_not_configured : fAfter (.fadd 3 1 2) (block .w64 1 0 0 0 false [0, 6, 16, 8] []) 3 = some (8, 4) := by decide +kernel
/-- V-M1, V-M7c, V-M7d. -/
theorem test_fmul : fAfter (.fmul 3 1 2) (f19 [0, 6, 16]) 3 = some (1, 0) ∧ fAfter (.fmul 3 1 1) (f64 [0, 2 ^ 64 - 60]) 3 = some (1, 0) ∧
    fAfter (.fmul 3 1 1) (f256 [0, 2 ^ 256 - 190]) 3 = some (1, 0) := by decide +kernel
/-- V-M2. -/
theorem test_fsqr : fAfter (.fsqr 2 1) (f19 [0, 6]) 2 = some (17, 0) := by decide +kernel
/-- V-M3, V-M4. -/
theorem test_fmuli : fAfter (.fmuli 2 1 4095) (f19 [0, 6]) 2 = some (3, 0) ∧ fAfter (.fmuli 2 1 0) (f19 [0, 2 ^ 64 - 1, 5]) 2 = some (0, 0) ∧
    fAfter (.fmuli 2 1 1) (f19 [0, 2 ^ 64 - 1]) 2 = some (16, 0) := by decide +kernel
/-- V-M5, V-M6, V-M7, V-M7a. -/
theorem test_fpow : fAfter (.fpow 3 1 2) (f19 [0, 6, 5]) 3 = some (5, 0) ∧ fAfter (.fpow 3 1 1) (f19 []) 3 = some (1, 0) ∧ fAfter (.fpow 3 1 2) (f19 [0, 0, 5]) 3 = some (0, 0) ∧
    fAfter (.fpow 3 1 2) (f19 [0, 2, 2 ^ 64 - 1]) 3 = some (12, 0) ∧ fAfter (.fpow 3 2 3) (f19 [0, 0, 2, 5]) 3 = some (13, 0) := by decide +kernel
/-- V-M7e. -/
theorem test_fpow_wide : fAfter (.fpow 2 0 1) (f256 [3, 2 ^ 256 - 1]) 2 = some (140376651850118021374176667111932786297688265892421886295983839501296907403, 0) := by decide +kernel
/-- V-M10, V-M15, and the other constants. -/
theorem test_mmul : fAfter (.mmul 2 0 1) (f19 [7, 6]) 2 = some (17, 0) ∧ fAfter (.mmul 2 0 1) (f19 [11, 17]) 2 = some (11, 0) ∧
    fAfter (.mmul 2 0 1) (block .w64 19 5 4 0 false [11, 4] []) 2 = some (5, 0) ∧ fAfter (.mmul 2 0 1) (block .w256 19 16 6 0 false [1, 9] []) 2 = some (16, 0) := by decide +kernel
/-- V-M17, V-X2. -/
theorem test_mmul_not_configured : fAfter (.mmul 2 0 1) (block .w64 19 0 0 0 false [7, 6, 3] []) 2 = some (3, 5) ∧ fAfter (.mmul 2 0 1) (block .w64 0 0 0 0 false [7, 6, 3] []) 2 = some (3, 4) := by decide +kernel
/-- V-M11. -/
theorem test_msqr : fAfter (.msqr 1 0) (f19 [7]) 1 = some (4, 0) := by decide +kernel
/-- V-M8. -/
theorem test_tomont : fAfter (.tomont 1 0) (f19 [6]) 1 = some (7, 0) := by decide +kernel
/-- V-M9. -/
theorem test_frommont : fAfter (.frommont 2 1) (f19 [0, 7]) 2 = some (6, 0) := by decide +kernel
/-- V-M12, V-M16. -/
theorem test_mone : fAfter (.mone 5) (f19 []) 5 = some (17, 0) ∧ fAfter (.mone 5) (block .w64 19 36 28 0 false [] []) 5 = some (17, 0) := by decide +kernel
/-- V-M13, V-M14, and the other constants. -/
theorem test_mpow : fAfter (.mpow 2 0 1) (f19 [7, 5]) 2 = some (9, 0) ∧ fAfter (.mpow 2 0 1) (f19 [7, 0]) 2 = some (17, 0) ∧
    fAfter (.mpow 2 0 1) (block .w256 19 16 6 0 false [1, 5] []) 2 = some (4, 0) := by decide +kernel
/-- V-I1 to V-I4, V-I9. -/
theorem test_finv : fAfter (.finv 2 1) (f19 [0, 6]) 2 = some (16, 0) ∧ fAfter (.finv 2 1) (f19 [0, 18]) 2 = some (18, 0) ∧ fAfter (.finv 2 1) (f19 [0, 0, 4]) 2 = some (4, 1) ∧
    fAfter (.finv 2 1) (f19 [0, 19, 4]) 2 = some (4, 1) ∧ fAfter (.finv 2 1) (f15 [0, 5, 4] []) 2 = some (4, 2) ∧ fAfter (.finv 2 1) (f15 [0, 7, 4] []) 2 = some (13, 0) := by decide +kernel
/-- V-I10, V-I11, V-I12. -/
theorem test_finv_wide : fAfter (.finv 2 1) (f64 [0, 3]) 2 = some (6148914691236517186, 0) ∧ fAfter (.finv 2 1) (curveC [0, 3] []) 2 = some (375299946577920, 0) ∧
    fAfter (.finv 2 1) (f256 [0, 2]) 2 = some (57896044618658097711785492504343953926634992332820282019728792003956564819874, 0) := by decide +kernel
/-- V-I5 to V-I8. -/
theorem test_fdiv : fAfter (.fdiv 3 0 1) (f19 [16, 6]) 3 = some (9, 0) ∧ fAfter (.fdiv 3 0 0) (f19 [7]) 3 = some (1, 0) ∧ fAfter (.fdiv 3 0 1) (f19 [0, 0, 0, 8]) 3 = some (8, 1) ∧
    fAfter (.fdiv 3 0 1) (f19 [0, 5, 0, 8]) 3 = some (0, 0) := by decide +kernel
/-- V-I13, V-I14. -/
theorem test_minv : fAfter (.minv 1 0) (f19 [7]) 1 = some (6, 0) ∧ fAfter (.minv 1 0) (f19 [17]) 1 = some (17, 0) := by decide +kernel
/-- V-I15, V-I16, V-I17. -/
theorem test_mdiv : fAfter (.mdiv 2 0 1) (f19 [6, 7]) 2 = some (1, 0) ∧ fAfter (.mdiv 2 0 0) (f19 [5]) 2 = some (17, 0) ∧ fAfter (.mdiv 2 0 1) (f19 [5, 0, 8]) 2 = some (8, 1) := by decide +kernel
/-- V-P1. -/
theorem test_ainf : pAfter (.ainf 2) (curveC [] []) 2 = some (0, 0, 0, true) := by decide +kernel
/-- V-P2 and the Montgomery form. -/
theorem test_agen : pAfter (.agen 0) (curveC [] []) 0 = some (2, 6, 0, false) ∧ pAfter (.agen 0) (curveM [] []) 0 = some (2199023288320, 6597069864960, 0, false) := by decide +kernel
/-- V-X3, V-X4. -/
theorem test_agen_domains : statusAfter (.agen 0) (block .w64 19 0 0 0 true [] []) = some 0x350 ∧ statusAfter (.agen 0) (block .w64 19 0 0 0 false [] []) = some 0x200 := by decide +kernel
/-- V-P4 to V-P7. -/
theorem test_aadd : pAfter (.aadd 2 0 1) (curveC [] [G, (570768668753918, 222182780873386, 0, false)]) 2 = some (537613624567015, 945163207984607, 0, false) ∧
    pAfter (.aadd 2 0 0) (curveC [] [G]) 2 = some (570768668753918, 222182780873386, 0, false) ∧ pAfter (.aadd 2 0 1) (curveC [] [G, (2, p - 6, 0, false)]) 2 = some (0, 0, 0, true) := by decide +kernel
/-- V-P8, V-P9, V-P10, V-P12, V-P20. -/
theorem test_aadd_corners : pAfter (.aadd 2 1 0) (curveC [] [G, (5, 5, 5, true)]) 2 = some (2, 6, 0, false) ∧ pAfter (.aadd 2 0 0) (curveC [] [(5, 5, 5, true)]) 2 = some (0, 0, 0, true) ∧
    pAfter (.aadd 2 0 1) (curveC [] [(2 + p, 6, 7, false), (0, 0, 0, true)]) 2 = some (2, 6, 0, false) ∧
    pAfter (.aadd 2 0 1) (curveC [] [G, (702186713048147, 0, 0, false)]) 2 = some (112161941926554, 432361043278525, 0, false) ∧
    pAfter (.aadd 2 0 1) (block .w64 19 0 0 1 false [] [(0, 0, 0, false), (1, 1, 0, false)]) 2 = some (0, 0, 0, false) := by decide +kernel
/-- V-P3, V-P11, V-P19, V-P21. -/
theorem test_adbl : pAfter (.adbl 1 0) (curveC [] [G]) 1 = some (570768668753918, 222182780873386, 0, false) ∧ pAfter (.adbl 1 0) (curveC [] [(702186713048147, 0, 0, false)]) 1 = some (0, 0, 0, true) ∧
    pAfter (.adbl 1 0) (block .w64 19 0 0 1 false [] []) 1 = some (0, 0, 0, true) ∧ statusAfter (.adbl 1 0) (block .w64 2 0 0 1 false [] [(1, 1, 0, false)]) = some 0x310 := by decide +kernel
/-- the Montgomery form of V-P3. -/
theorem test_adbl_montgomery : pAfter (.adbl 1 0) (curveM [] [(2199023288320, 6597069864960, 0, false)]) 1 = some (999158225572408, 666683872652752, 0, false) := by decide +kernel
/-- V-P13, V-P14 and the Montgomery form. -/
theorem test_atoj : pAfter (.atoj 0 0) (curveC [] [G]) 0 = some (2, 6, 1, false) ∧ pAfter (.atoj 0 0) (curveC [] [(5, 5, 5, true)]) 0 = some (0, 1, 0, false) ∧
    pAfter (.atoj 0 0) (curveM [] [(2199023288320, 6597069864960, 0, false)]) 0 = some (2199023288320, 6597069864960, 1099511644160, false) := by decide +kernel
/-- V-P15, V-P16, V-P17. -/
theorem test_jtoa : pAfter (.jtoa 2 1) (curveC [] [G, (1125899839733544, 1125899839732948, 12, false)]) 2 = some (570768668753918, 222182780873386, 0, false) ∧ pAfter (.jtoa 2 1) (curveC [] [G, (5, 9, 0, false)]) 2 = some (0, 0, 0, true) ∧
    pAfter (.jtoa 2 1) (curveC [] [G, (5, 9, p, false)]) 2 = some (0, 0, 0, true) := by decide +kernel
/-- V-P22, V-P23. -/
theorem test_jtoa_composite : statusAfter (.jtoa 2 1) (f15 [] [G, (1, 1, 5, false)]) = some 0x720 ∧ pAfter (.jtoa 2 1) (f15 [] [G, (1, 1, 15, false)]) 2 = some (0, 0, 0, true) := by decide +kernel
/-- V-J1, V-J12. -/
theorem test_jinf : pAfter (.jinf 3) (curveC [] []) 3 = some (0, 1, 0, false) ∧ pAfter (.jinf 3) (curveM [] []) 3 = some (0, 1099511644160, 0, false) := by decide +kernel
/-- V-J3, V-J4, V-J8, V-J9. -/
theorem test_jadd : pAfter (.jadd 2 0 1) (curveC [] [J, (1125899839733544, 1125899839732948, 12, false)]) 2 = some (106500384, 1695460408704, 1125899839727723, false) ∧
    pAfter (.jadd 2 0 0) (curveC [] [J]) 2 = some (1125899839733544, 1125899839732948, 12, false) ∧ pAfter (.jadd 2 0 1) (curveC [] [J, (2, p - 6, 1, false)]) 2 = some (0, 1, 0, false) ∧
    pAfter (.jadd 2 0 1) (curveC [] [J, (50, 750, 5, false)]) 2 = some (1125899839733544, 1125899839732948, 12, false) := by decide +kernel
/-- V-J5, V-J6, V-J7. -/
theorem test_jadd_infinity : pAfter (.jadd 2 1 0) (curveC [] [J, (0, 1, 0, false)]) 2 = some J ∧ pAfter (.jadd 2 0 1) (curveC [] [J, (7, 8, 0, false)]) 2 = some J ∧
    pAfter (.jadd 2 0 0) (curveC [] [(0, 1, 0, false)]) 2 = some (0, 1, 0, false) := by decide +kernel
/-- V-J2, V-J10, V-J11. -/
theorem test_jdbl : pAfter (.jdbl 1 0) (curveC [] [J]) 1 = some (1125899839733544, 1125899839732948, 12, false) ∧ pAfter (.jdbl 1 0) (curveC [] [(702186713048147, 0, 1, false)]) 1 =
    some (315844430123395, 1003233833915836, 0, false) ∧ pAfter (.jdbl 1 0) (curveC [] [(5, 9, 0, false)]) 1 = some (0, 1, 0, false) := by decide +kernel
/-- V-J13. -/
theorem test_jdbl_montgomery : pAfter (.jdbl 1 0) (curveM [] [(2199023288320, 6597069864960, 1099511644160, false)]) 1 =
    some (889504836239359, 234195896319999, 13194139729920, false) := by decide +kernel
/-- V-K1, V-K2, V-K3, V-K5, V-K16. -/
theorem test_amul : pAfter (.amul 1 0 5) (curveC [] [G]) 1 = some (0, 0, 0, true) ∧ pAfter (.amul 1 0 5) (curveC [0, 0, 0, 0, 0, 1] [G]) 1 = some G ∧
    pAfter (.amul 1 0 5) (curveC [0, 0, 0, 0, 0, 2] [G]) 1 = some (570768668753918, 222182780873386, 0, false) ∧
    pAfter (.amul 1 0 5) (curveC [0, 0, 0, 0, 0, k] [G]) 1 = some (210159848059198, 473433224346301, 0, false) ∧
    statusAfter (.amul 1 0 5) (block .w64 2 0 0 1 false [0, 0, 0, 0, 0, 1] [(1, 1, 0, false)]) = some 0x310 := by decide +kernel
/-- V-K6, V-K15. -/
theorem test_amul_every_bit : pAfter (.amul 1 0 5) (curveC [0, 0, 0, 0, 0, 2 ^ 64 - 1] [G]) 1 = some (790035015755286, 723258164225741, 0, false) ∧
    pAfter (.amul 1 0 5) (block .w256 p 0 0 7 false [0, 0, 0, 0, 0, k] [G]) 1 = some (210159848059198, 473433224346301, 0, false) := by decide +kernel
/-- V-K8, V-K9, V-K10, V-K12, V-K14. -/
theorem test_jmul : pAfter (.jmul 1 0 5) (curveC [] [J]) 1 = some (0, 1, 0, false) ∧ pAfter (.jmul 1 0 5) (curveC [0, 0, 0, 0, 0, 1] [J]) 1 = some J ∧
    pAfter (.jmul 1 0 5) (curveC [0, 0, 0, 0, 0, 2] [J]) 1 = some (1125899839733544, 1125899839732948, 12, false) ∧
    pAfter (.jmul 1 0 5) (curveC [0, 0, 0, 0, 0, k] [J]) 1 = some (801476729104722, 242510688820409, 403527753988415, false) ∧
    pAfter (.jmul 1 0 5) (curveC [0, 0, 0, 0, 0, k] [G]) 1 = some (0, 1, 0, false) := by decide +kernel
/-- the Montgomery form of V-K12. -/
theorem test_jmul_montgomery : pAfter (.jmul 1 0 5) (curveM [0, 0, 0, 0, 0, k] [(2199023288320, 6597069864960, 1099511644160, false)]) 1 =
    some (496911784825541, 176602531586676, 925450406219374, false) := by decide +kernel

/-! ### The host and the engine -/

/-- `s` with a word in flight, a latency and the host's next transactions. -/
def inFlight (s : State) (w : BitVec 32) (d : Nat) (ops : List HostOp) : State :=
  { s with inflight := some w, lastCmd := w, delay := d, hostOps := ops }

/-- V-H1: a write while busy is dropped, sets BUSYWR, and the command stays in flight. -/
theorem test_busy_write :
    nextWith (step (inFlight (f19 []) 0x10312000#32 2 [.write 0x40#8 5])) (fun t =>
      decide (t.M = 19 ∧ t.busyWr = true ∧ t.inflight = some 0x10312000#32 ∧ t.delay = 1)) = true := by
  decide +kernel
/-- V-H2: a second command while busy is dropped. -/
theorem test_busy_issue :
    nextWith (step (inFlight (f19 []) 0x10312000#32 2 [issue 0x00000000#32])) (fun t =>
      decide (t.lastCmd = 0x10312000#32 ∧ t.inflight = some 0x10312000#32)) = true := by
  decide +kernel
/-- V-H3: W1C of STICKY and BUSYWR leaves ERR. -/
theorem test_status_clear :
    nextWith (step { f19 [] with sticky := true, busyWr := true, err := .notConfigured, hostOps := [.write 0x51#8 0x900] }) (fun t =>
      t.statusWord == 0x640) = true := by
  decide +kernel
/-- V-H4: while FADD F3, F1, F2 is in flight, F1 reads as it is, and F3 is unspecified. -/
theorem test_busy_read :
    nextWith (step (inFlight (f19 [0, 6, 16]) 0x10312000#32 1 [.read 0x01#8])) (fun t => decide (t.hostReads = [⟨0x01#8, 6⟩])) = true ∧
    (inFlight (f19 []) 0x10312000#32 1 []).readIsFree 0x03#8 = true ∧
    (inFlight (f19 []) 0x42205000#32 1 []).readIsFree 0x2B#8 = true := by
  decide +kernel
/-- V-H5: HostReset while busy. -/
theorem test_busy_reset :
    nextWith (step (inFlight (f19 []) 0x10312000#32 1 [.reset])) (fun t =>
      decide (t.inflight = none ∧ t.statusWord = 0 ∧ t.M = 0 ∧ t.lastCmd = 0)) = true := by
  decide +kernel
/-- V-X1: an illegal word completes with ILLEGAL_COMMAND before the configuration is looked at. -/
theorem test_illegal_first :
    nextWith (step (inFlight (block .w64 0 0 0 0 false [] []) 0x42204000#32 0 [])) (fun t => t.statusWord == 0x160) = true := by
  decide +kernel
/-- 30_encoding.md R90: WAIT polls STATUS until BUSY is 0. -/
theorem test_wait :
    nextWith (step (inFlight (f19 []) 0#32 2 [.wait, .reset])) (fun t =>
      decide (t.hostOps = [.wait, .reset] ∧ t.hostReads = [⟨0x51#8, 0x601⟩])) = true ∧
    nextWith (step { f19 [] with hostOps := [.wait, .reset] }) (fun t =>
      decide (t.hostOps = [.reset] ∧ t.hostReads = [⟨0x51#8, 0x600⟩])) = true := by
  decide +kernel
/-- V-C11, V-C12: an idle write of MODULUS clears the flags, one of CURVE_A does not. -/
theorem test_descriptor_write :
    nextWith (step { f19 [] with hostOps := [.write 0x40#8 19] }) (fun t => decide (t.fieldOk = false ∧ t.montOk = false ∧ t.M = 19)) = true ∧
    nextWith (step { f19 [] with hostOps := [.write 0x43#8 3] }) (fun t => decide (t.fieldOk = true ∧ t.montOk = true ∧ t.A = 3)) = true := by
  decide +kernel
/-- The step after `withFetchWord` runs the word, also as the first command after reset. -/
theorem test_fetch_word :
    nextWith (step (State.reset.withFetchWord 32 0x01000000)) (fun t => t.statusWord == 0x130) = true ∧
    nextWith (step (State.reset.withFetchWord 32 0x00000000)) (fun t => t.statusWord == 0 && t.inflight == none) = true := by
  decide +kernel
/-- Section 12: what HostRead returns after reset; reset lists nothing to do. -/
theorem test_reset_reads :
    State.reset.current .status = 0 ∧ State.reset.current .cmd = 0 ∧ State.reset.current .modulus = 0 ∧
    State.reset.current .ctrl = 0 ∧ State.reset.current .unmapped = 0 ∧ State.reset.hostOps = [] := by
  decide +kernel


/-! ### For every statement with hypotheses: a state and operands that meet them, each clause at a boundary of its range -/

/-- A command that is in flight with latency `d`, in field F19. -/
def busy19 (d : Nat) (ops : List HostOp) : State := inFlight (f19 [0, 6, 16]) 0x10312000#32 d ops
/-- Modulus 2, the least usable, in domain 1 with `R' = RI' = 1`. -/
def f2 (fs : List Nat) : State := block .w64 2 1 1 1 true fs [(1, 1, 1, false)]
/-- The largest modulus of W = 64, in domain 1 with `R' = RI' = 1`. -/
def fMax (fs : List Nat) (ps : List (Nat × Nat × Nat × Bool)) : State := block .w64 (2 ^ 64 - 1) 1 1 3 true fs ps
/-- Modulus 3, the least prime above 2. -/
def f3 (vt : Bool) (fs : List Nat) (ps : List (Nat × Nat × Nat × Bool)) : State := block .w64 3 2 2 1 vt fs ps
/-- No configuration. -/
def f0 : State := block .w64 0 0 0 0 false [1, 2, 3] []
/-- FIELD_OK without MONT_OK, in domain 1. -/
def noMont : State := block .w64 19 0 0 0 true [1, 2, 3] []

theorem witness_DecodeOfEncode : Instr.wf (.aadd 3 0 3) = true ∧ Instr.wf (.fmuli 15 0 4095) = true := by decide
theorem witness_EncodeOfDecode : decode 0x6130F000#32 = .ok (.jmul 3 0 15) := by decide +kernel
theorem witness_DecoderAcceptsExactlyLegalWords : legal 0x42204000#32 = false ∧ legal 0x42203000#32 = true := by decide +kernel
theorem witness_ReservedOpcodesAreIllegal :
    formatOf (opcOf 0x04FFFFFF#32) = none ∧ formatOf (opcOf 0xFF000000#32) = none ∧
    (inFlight f0 0x04FFFFFF#32 0 [.wait]).inflight = some 0x04FFFFFF#32 ∧ (inFlight f0 0x04FFFFFF#32 0 [.wait]).engineTurn = true ∧
    (inFlight f0 0x04FFFFFF#32 1 []).engineTurn = true := by
  decide +kernel
theorem witness_StepRunsCommandInFlight :
    ((busy19 0 [.wait]).inflight = some 0x10312000#32 ∧ (busy19 0 [.wait]).delay = 0) ∧
    ((busy19 1 []).inflight = some 0x10312000#32 ∧ (busy19 1 []).hostOps = []) ∧ decode 0x10312000#32 = .ok (.fadd 3 1 2) ∧
    ((busy19 1 [.wait]).delay ≠ 0 ∧ (busy19 1 [.wait]).hostOps = [.wait]) ∧
    ({ f19 [] with hostOps := [.reset] } : State).inflight = none ∧ ((f19 []).inflight = none ∧ (f19 []).hostOps = []) := by
  decide +kernel
theorem witness_StepKeepsInvariant :
    (busy19 1 [.write 0x40#8 0]).Inv ∧ (busy19 0 []).Inv ∧ (f19 []).Inv ∧
    (∃ t, step (busy19 1 [.write 0x40#8 0]) = .next t ∧ decide (t.busyWr = true) = true) ∧
    ∃ t, step (busy19 0 []) = .next t ∧ decide (t.F 3 = 3) = true :=
  ⟨by decide +kernel, by decide +kernel, by decide +kernel, exists_next (by decide +kernel), exists_next (by decide +kernel)⟩
theorem witness_HostResetDiscardsEverything :
    ((busy19 1 [.reset]).delay ≠ 0 ∧ (busy19 1 [.reset]).hostOps = [.reset]) ∧
    ({ f19 [] with hostOps := [.reset] } : State).inflight = none ∧
    ((f19 [1]).width = (curveC [2] [G]).width ∧ SameHost (f19 [1]) (curveC [2] [G])) :=
  ⟨by decide +kernel, by decide +kernel, by decide +kernel, by decide +kernel, by decide +kernel, by decide +kernel⟩
theorem witness_CommandAcceptanceAndCompletion :
    (f19 []).inflight = none ∧ (busy19 1 []).inflight ≠ none ∧
    ∃ t, exec (.finv 0 0) (f19 []) = .next t ∧ decide (t.err = .inverseOfZero) = true :=
  ⟨by decide +kernel, by decide +kernel, exists_next (by decide +kernel)⟩
theorem witness_LastCmdHoldsLastAcceptedWord :
    ∃ t, engineStep 0x42204000#32 (inFlight f0 0x42204000#32 0 []) = .next t ∧ decide (t.lastCmd = 0x42204000#32) = true :=
  exists_next (by decide +kernel)
theorem witness_DescriptorWriteClearsFlags :
    (f19 []).inflight = none ∧ 0x40#8 ∈ [0x40#8, 0x41#8, 0x42#8] ∧ 0x42#8 ∈ [0x40#8, 0x41#8, 0x42#8] ∧
    0x43#8 ∈ [0x43#8, 0x44#8, 0x45#8, 0x46#8] ∧ 0x46#8 ∈ [0x43#8, 0x44#8, 0x45#8, 0x46#8] := by
  decide +kernel
theorem witness_UnmappedIndices :
    (∀ n ∈ [0x10, 0x1F, 0x30, 0x3F, 0x47, 0x4F, 0x52, 0xFF],
      (0x10 ≤ n ∧ n ≤ 0x1F) ∨ (0x30 ≤ n ∧ n ≤ 0x3F) ∨ (0x47 ≤ n ∧ n ≤ 0x4F) ∨ 0x52 ≤ n) ∧
    (f19 []).inflight = none ∧ (busy19 0 []).inflight ≠ none := by
  decide +kernel
theorem witness_IdleWriteThenRead :
    (f19 []).inflight = none ∧
    (∀ n ∈ [0, 0x0F, 0x20, 0x23, 0x2F, 0x40, 0x46], n < 0x10 ∨ (0x20 ≤ n ∧ n < 0x30) ∨ (0x40 ≤ n ∧ n ≤ 0x46)) ∧
    (0x50#8 ≠ 0x46#8 ∧ 0x50#8 ≠ 0x51#8) ∧ 0x43#8 ∉ [0x40#8, 0x41#8, 0x42#8] := by
  decide +kernel
theorem witness_StatusRegister : (f19 []).inflight = none := by decide +kernel
theorem witness_BusyWriteIsDropped :
    (busy19 1 [.write 0x51#8 0x900]).inflight ≠ none ∧ (busy19 1 [.write 0x51#8 0x900]).delay ≠ 0 ∧
    (busy19 1 [.write 0x51#8 0x900]).hostOps = [.write 0x51#8 0x900] := by
  decide +kernel
theorem witness_BusyReads :
    (∀ idx ∈ [0x03#8, 0x51#8, 0x01#8], (busy19 1 [.read idx]).inflight = some 0x10312000#32 ∧ (busy19 1 [.read idx]).delay ≠ 0 ∧
      (busy19 1 [.read idx]).hostOps = [.read idx]) ∧
    isDestination 0x10312000#32 (indexOf 0x01#8) = false ∧ isDestination 0x10312000#32 (indexOf 0x51#8) = false ∧
    (busy19 1 []).FlightSound := by
  decide +kernel
theorem witness_OperandsStableWhileBusy :
    (busy19 1 [.wait]).inflight ≠ none ∧ (busy19 1 [.wait]).delay ≠ 0 ∧ (busy19 1 [.wait]).hostOps = [.wait] ∧ HostOp.wait ≠ .reset ∧
    ∃ t, step (busy19 1 [.wait]) = .next t ∧ decide (t.hostOps = [.wait]) = true :=
  ⟨by decide +kernel, by decide +kernel, by decide +kernel, by decide, exists_next (by decide +kernel)⟩
theorem witness_CommandInFlightCompletes : (busy19 7 [.wait]).inflight ≠ none ∧ (busy19 0 []).inflight ≠ none := by decide +kernel
theorem witness_ResultIgnoresHostSide :
    ∃ t, engineStep 0x10312000#32 (busy19 3 [.wait]) = .next t ∧ decide (t.F 3 = 3) = true := exists_next (by decide +kernel)
theorem witness_ResultIndependentOfLatency :
    (busy19 3 [.read 0x03#8, .wait]).inflight = some 0x10312000#32 ∧ HostOp.reset ∉ (busy19 3 [.read 0x03#8, .wait]).hostOps ∧
    ∃ t, engineStep 0x10312000#32 (busy19 3 [.read 0x03#8, .wait]) = .next t ∧ decide (t.F 3 = 3) = true :=
  ⟨by decide +kernel, by decide +kernel, exists_next (by decide +kernel)⟩
theorem witness_FailingCommandWritesNothing :
    (∃ t, exec (.finv 2 1) (f15 [0, 5] []) = .next t ∧ decide (t.err ≠ .noError) = true) ∧
    (∃ t, exec .cfgcommit f0 = .next t ∧ decide (t.err ≠ .noError) = true) ∧ Instr.finv 2 1 ≠ .cfgcommit :=
  ⟨exists_next (by decide +kernel), exists_next (by decide +kernel), by decide⟩
theorem witness_ConfigurationClasses :
    (∃ t, exec (.jmul 4 0 0) f0 = .next t ∧ decide (t.err = .illegalCommand) = true) ∧
    (∃ t, exec (.jmul 3 0 0) f0 = .next t ∧ decide (t.err = .notConfigured) = true) ∧
    (∃ t, exec (.jmul 3 0 0) noMont = .next t ∧ decide (t.err = .montNotConfigured) = true) ∧
    ∃ t, exec (.mone 0) noMont = .next t ∧ decide (t.err = .montNotConfigured) = true :=
  ⟨exists_next (by decide +kernel), exists_next (by decide +kernel), exists_next (by decide +kernel), exists_next (by decide +kernel)⟩
theorem witness_WhoRaisesWhichCode :
    (∃ t, exec .cfgcommit f0 = .next t ∧ decide (t.err = .configInvalid) = true) ∧
    (∃ t, exec (.mdiv 2 0 1) (f19 [5, 0]) = .next t ∧ decide (t.err = .inverseOfZero) = true) ∧
    ∃ t, exec (.jtoa 2 1) (f15 [] [G, (1, 1, 5, false)]) = .next t ∧ decide (t.err = .notInvertible) = true :=
  ⟨exists_next (by decide +kernel), exists_next (by decide +kernel), exists_next (by decide +kernel)⟩
theorem witness_FieldCommandFrame :
    destF (.fadd 15 0 1) = some 15 ∧ (∃ t, exec (.fadd 15 0 1) (f19 [6, 16]) = .next t ∧ decide (t.F 15 = 3 ∧ t.err = .noError) = true) :=
  ⟨by decide, exists_next (by decide +kernel)⟩
theorem witness_PointCommandFrame :
    destP (.adbl 3 0) = some 3 ∧ (∃ t, exec (.adbl 3 0) (curveC [] [G]) = .next t ∧ decide (t.err = .noError) = true) :=
  ⟨by decide, exists_next (by decide +kernel)⟩
theorem witness_WrittenElementsAreCanonical :
    (fMax [2 ^ 64 - 1] [(2 ^ 64 - 1, 1, 2 ^ 64 - 1, false)]).ConfigSound ∧
    (∃ t, exec (.fred 0 0) (fMax [2 ^ 64 - 1] []) = .next t ∧ decide (t.err = .noError ∧ t.F 0 = 0) = true) ∧
    ∃ t, exec (.jadd 3 0 0) (fMax [] [(2 ^ 64 - 1, 1, 2 ^ 64 - 1, false)]) = .next t ∧ decide (t.err = .noError) = true :=
  ⟨by decide +kernel, exists_next (by decide +kernel), exists_next (by decide +kernel)⟩
theorem witness_PointResultViews :
    (3 : Fin 4).val = (3 : PReg).val ∧ destP (.aadd 3 0 1) = some 3 ∧
    (∃ t, exec (.aadd 3 0 1) (curveC [] [G, (2, p - 6, 0, false)]) = .next t ∧ decide (t.err = .noError ∧ t.PINF 3 = true) = true) ∧
    destP (.atoj 3 0) = some 3 ∧ ∃ t, exec (.atoj 3 0) (curveC [] [G]) = .next t ∧ decide (t.err = .noError) = true :=
  ⟨by decide, by decide, exists_next (by decide +kernel), by decide, exists_next (by decide +kernel)⟩
theorem witness_NopOnlyCompletes : (inFlight f0 0x00000000#32 0 []).inflight = some 0x00000000#32 := by decide +kernel
/-- The legal and the illegal clause of `EncodedAs`, for each format: the largest legal fields, and the least illegal one. -/
theorem witness_EncodedAs :
    (legalField Format.N.rd 0 = true ∧ legalField Format.N.imm 1 = false) ∧
    (legalField Format.F1.rd 15 = true ∧ legalField Format.F1.ra 1 = false) ∧
    (legalField Format.F2.ra 15 = true ∧ legalField Format.F2.rb 1 = false) ∧
    (legalField Format.F3.rb 15 = true ∧ legalField Format.F3.imm 1 = false) ∧
    (legalField Format.FI.imm 4095 = true ∧ legalField Format.FI.rb 1 = false) ∧
    (legalField Format.P1.rd 3 = true ∧ legalField Format.P1.rd 4 = false) ∧
    (legalField Format.P2.ra 3 = true ∧ legalField Format.P2.ra 4 = false) ∧
    (legalField Format.P3.rb 3 = true ∧ legalField Format.P3.rb 4 = false) ∧
    (legalField Format.PK.rb 15 = true ∧ legalField Format.PK.ra 4 = false) := by
  decide
/-- The hypotheses of `NeedsField`, `NeedsMont` and `NeedsCurve`. -/
theorem witness_Needs :
    f0.fieldOk = false ∧ (noMont.fieldOk = true ∧ noMont.montOk = false) ∧
    (noMont.fieldOk = true ∧ noMont.vtype = true ∧ noMont.montOk = false) := by
  decide +kernel
theorem witness_CfgcommitValidatesDescriptor :
    (2 ≤ (f2 []).M ∧ (f2 []).vtype = true ∧ ((f2 []).rconst.toNat * (f2 []).rinv.toNat) % (f2 []).M = 1) ∧
    ¬ 2 ≤ (block .w64 1 0 0 0 false [] []).M ∧ (noMont.vtype = true ∧ (noMont.rconst.toNat * noMont.rinv.toNat) % noMont.M ≠ 1) := by
  decide +kernel
/-- `FieldReady`, the hypothesis of the statements about the commands of class field: at the least and the largest modulus, at both
widths. -/
theorem witness_FieldReady : (f2 [1]).FieldReady ∧ (fMax [2 ^ 64 - 1] []).FieldReady ∧ (f256 [2 ^ 256 - 1]).FieldReady := by decide +kernel
/-- `MontReady`, the hypothesis of the statements about the commands of class mont. -/
theorem witness_MontReady :
    (f2 [1]).MontReady ∧ (fMax [2 ^ 64 - 1] []).MontReady ∧ (f19 [6]).MontReady ∧ (block .w256 19 16 6 0 false [1, 9] []).MontReady := by
  decide +kernel
/-- `CurveReady`, the hypothesis of the statements about the point commands, in both domains. -/
theorem witness_CurveReady :
    (f2 []).CurveReady ∧ (f2 []).vtype = true ∧ (fMax [] []).CurveReady ∧ (curveC [] [G]).CurveReady ∧ (curveC [] [G]).vtype = false ∧
    (curveM [] []).CurveReady := by
  decide +kernel
theorem witness_TomontFrommontMone :
    (f19 [6]).MontReady ∧ ∃ t, exec (.tomont 1 0) (f19 [6]) = .next t ∧ decide (t.F 1 = 7) = true :=
  ⟨by decide +kernel, exists_next (by decide +kernel)⟩
theorem witness_MontgomeryMirrorsStandard :
    2 ≤ 2 ∧ (1 * 1) % 2 = 1 ∧ (2 ≤ 19 ∧ 17 < 19 ∧ 9 < 19 ∧ (17 * 9) % 19 = 1) ∧ (18 < 19 ∧ 0 < 19) ∧
    (Affine.pt 18 0).Canonical 19 ∧ Affine.inf.Canonical 19 ∧ (Jacobian.mk 18 0 18).Canonical 19 :=
  ⟨by decide, by decide, by decide, by decide, ⟨by decide, by decide⟩, trivial, ⟨by decide, by decide, by decide⟩⟩
/-- The three clauses of FINV, FDIV, MINV and MDIV. -/
theorem witness_InverseClauses :
    ((f15 [15, 10, 7] []).MontReady ∧ (f15 [15, 10, 7] []).M = 15) ∧ (f15 [15, 10, 7] []).F 0 % 15 = 0 ∧
    ((f15 [15, 10, 7] []).F 1 % 15 ≠ 0 ∧ Nat.gcd ((f15 [15, 10, 7] []).F 1) 15 ≠ 1) ∧ Nat.gcd ((f15 [15, 10, 7] []).F 2) 15 = 1 := by
  decide +kernel
theorem witness_AaddAdblApplyGroupLaw :
    affAdd (f3 true [] []).curve (f3 true [] []).A (.pt 1 1) (.pt 2 0) = .ok (.pt 2 0) ∧
    affAdd (f15 [] []).curve (f15 [] []).A (.pt 0 1) (.pt 5 1) = .error .notInvertible ∧
    affAdd (f2 []).curve (f2 []).A ((f2 []).readAff 0) ((f2 []).readAff 0) = .error .inverseOfZero ∧ (f2 []).CurveReady := by
  decide +kernel
/-- Every case of `AaddFollowsChordAndTangent`: infinity on either side, inverse points, `y = 0`, the tangent and the chord. -/
theorem witness_AaddFollowsChordAndTangent :
    (curveC [] [G]).CurveReady ∧
    (∀ q ∈ [(5, 5, 5, true), (2, p - 6, 0, false), G, (570768668753918, 222182780873386, 0, false)],
      nextWith (exec (.aadd 2 0 1) (curveC [] [G, q])) (fun t => decide (t.err = .noError)) = true) ∧
    (curveC [] [G, (5, 5, 5, true)]).readAff 1 = .inf ∧ (curveC [] [G]).readAff 0 = .pt 2 6 ∧
    (curveC [] [(702186713048147, 0, 0, false)]).readAff 0 = .pt 702186713048147 0 := by
  decide +kernel
theorem prime_three : (f3 true [] []).M.Prime ∧ 2 < (f3 true [] []).M := by
  have h : (f3 true [] []).M = 3 := by decide +kernel
  rw [h]; exact ⟨by norm_num, by norm_num⟩
theorem witness_PrimeModulusNeverFailsInversion :
    ((f3 true [3, 2] []).MontReady ∧ (f3 true [3, 2] []).F 1 % (f3 true [3, 2] []).M ≠ 0) ∧
    (f3 true [3] [(1, 1, 2, false)]).CurveReady ∧ (f3 true [3] [(1, 1, 2, false)]).M.Prime ∧ 2 < (f3 true [3] [(1, 1, 2, false)]).M :=
  ⟨by decide +kernel, by decide +kernel, prime_three⟩
/-- The three clauses of JTOA. -/
theorem witness_JtoaDividesByPowersOfZ :
    (f15 [] [(1, 1, 15, false), (1, 1, 10, false), (1, 1, 14, false)]).CurveReady ∧
    (f15 [] [(1, 1, 15, false)]).PZ 0 % 15 = 0 ∧
    ((f15 [] [(1, 1, 10, false)]).PZ 0 % 15 ≠ 0 ∧ Nat.gcd ((f15 [] [(1, 1, 10, false)]).PZ 0) 15 ≠ 1) ∧
    Nat.gcd ((f15 [] [(1, 1, 14, false)]).PZ 0) 15 = 1 := by
  decide +kernel
theorem witness_AtojThenJtoaIsIdentity :
    (f2 []).CurveReady ∧ ∃ t, exec (.atoj (pnum 3) (pnum 0)) (f2 []) = .next t ∧ decide (t.PZ 3 = 1) = true :=
  ⟨by decide +kernel, exists_next (by decide +kernel)⟩
/-- The cases of `JacobianFormulas`: V-J7, V-J5, V-J6, V-J8, V-J4 and V-J3. -/
theorem witness_JacobianFormulas :
    (curveC [] [(0, 1, 0, false), J]).CurveReady ∧
    ((curveC [] [(0, 1, 0, false), J]).readJac 0).z = 0 ∧ ((curveC [] [(0, 1, 0, false), J]).readJac 1).z ≠ 0 ∧
    jacAdd (curveC [] []).curve 7 ⟨2, 6, 1⟩ ⟨2, p - 6, 1⟩ = jacInf (curveC [] []).curve ∧
    (jacAdd (curveC [] []).curve 7 ⟨2, 6, 1⟩ ⟨50, 750, 5⟩).z = 12 ∧
    (jacAdd (curveC [] []).curve 7 ⟨2, 6, 1⟩ ⟨1125899839733544, 1125899839732948, 12⟩).z = 1125899839727723 := by
  decide +kernel
theorem witness_JacobianAddAgreesWithAffine : (f3 true [] [(1, 1, 2, false)]).CurveReady ∧ (f3 true [] []).M.Prime ∧ 2 < (f3 true [] []).M :=
  ⟨by decide +kernel, prime_three⟩
theorem witness_AmulAppliesDoubleAndAdd :
    affMul (f3 true [] []).curve (f3 true [] []).A 64 (.pt 1 1) 0 = .ok .inf ∧
    affMul (f2 []).curve (f2 []).A 64 ((f2 []).readAff 0) 1 = .error .inverseOfZero := by
  decide +kernel
theorem witness_AmulBySmallScalars :
    (∀ n ∈ [0, 1, 2], (curveC [n] [G]).F 0 = n ∧
      nextWith (exec (.amul (pnum 1) (pnum 0) 0) (curveC [n] [G])) (fun t => decide (t.err = .noError)) = true) ∧
    (curveC [9] [(5, 5, 5, true)]).readAff 0 = .inf ∧
    nextWith (exec (.amul (pnum 1) (pnum 0) 0) (curveC [9] [(5, 5, 5, true)])) (fun t => decide (t.err = .noError)) = true := by
  decide +kernel
theorem witness_JmulAppliesDoubleAndAdd :
    (curveC [0] [G]).F 0 = 0 ∧ (curveC [1] [G]).PZ 0 % p = 0 ∧ ((curveC [1] [J]).PZ 0 % p ≠ 0 ∧ (curveC [1] [J]).F 0 = 1) ∧
    ((curveC [2] [J]).F 0 = 2 ∧ (jacAdd (curveC [2] [J]).curve (curveC [2] [J]).A ((curveC [2] [J]).readJac 0) ((curveC [2] [J]).readJac 0)).z ≠ 0) := by
  decide +kernel
theorem witness_JmulAgreesWithAmul : (f3 true [5] [(1, 1, 2, false)]).CurveReady ∧ (f3 true [] []).M.Prime ∧ 2 < (f3 true [] []).M :=
  ⟨by decide +kernel, prime_three⟩

end Sys2Proof.Tests
end

section
/-! LASTCMD and the configuration flags under the host's transactions and the engine's step (10_state.md R34, R35). -/

namespace Sys2Proof.Machine

/-! ### The indices of CMD and of the field descriptor (20_memory.md R61) -/

theorem indexOf_eq_cmd {idx : BitVec 8} : indexOf idx = .cmd ↔ idx = 0x50#8 := by
  constructor
  · unfold indexOf
    split
    · simp
    · split
      · simp
      · split <;> simp
  · rintro rfl; rfl

/-- The three indices of the field descriptor are those of MODULUS, RCONST and RINV. -/
theorem indexOf_mem_descriptor {idx : BitVec 8} :
    indexOf idx ∈ [Index.modulus, .rconst, .rinv] ↔ idx ∈ [0x40#8, 0x41#8, 0x42#8] := by
  constructor
  · unfold indexOf
    split
    · simp
    · split
      · simp
      · split <;> simp
  · intro h
    simp only [List.mem_cons, List.not_mem_nil, or_false] at h
    rcases h with rfl | rfl | rfl <;> decide

/-! ### A command word fits in either operand width (00_scope.md R8) -/

theorem thirtyTwo_le_bits (w : Width) : 32 ≤ w.bits := by
  cases w <;> decide

/-- A command word survives the widening to an operand. -/
theorem toNat_ofNat_cmdWord (w : Width) (c : BitVec 32) : (Word.ofNat w c.toNat).toNat = c.toNat := by
  have hc : c.toNat < 2 ^ w.bits := c.isLt.trans_le (Nat.pow_le_pow_right (by decide) (thirtyTwo_le_bits w))
  rw [BitVec.toNat_ofNat, Nat.mod_eq_of_lt hc]

/-- The narrowing to an operand keeps the low 32 bits. -/
theorem cmdWord_ofNat_toNat (w : Width) (v : Nat) : BitVec.ofNat 32 (Word.ofNat w v).toNat = BitVec.ofNat 32 v := by
  apply BitVec.eq_of_toNat_eq
  simp only [BitVec.toNat_ofNat]
  exact Nat.mod_mod_of_dvd v (Nat.pow_dvd_pow 2 (thirtyTwo_le_bits w))

/-! ### LASTCMD -/

/-- CMD is no destination of any command, so a read of it is never free. -/
theorem readIsFree_cmd (s : State) : s.readIsFree 0x50#8 = false := by
  unfold State.readIsFree
  split <;> rfl

theorem hostReadValue_cmd (s : State) : (hostReadValue 0x50#8 s).toNat = s.lastCmd.toNat := by
  rw [hostReadValue, readIsFree_cmd, indexOf_eq_cmd.2 rfl]
  exact toNat_ofNat_cmdWord s.width s.lastCmd

/-- Of the idle writes only the one of CMD sets LASTCMD. -/
theorem hostWriteIdle_lastCmd (s : State) (v : Word s.width) (i : Index) :
    (hostWriteIdle s v i).lastCmd = if i = .cmd then BitVec.ofNat 32 v.toNat else s.lastCmd := by
  cases i with
  | point i f => cases f <;> rfl
  | _ => rfl

theorem hostWrite_lastCmd (s : State) (idx : BitVec 8) (v : Nat) :
    (hostWrite idx v s).lastCmd = if s.inflight = none ∧ idx = 0x50#8 then BitVec.ofNat 32 v else s.lastCmd := by
  by_cases h : s.inflight = none
  · rw [hostWrite_idle h, hostWriteIdle_lastCmd, cmdWord_ofNat_toNat]
    simp [h, indexOf_eq_cmd]
  · simp [hostWrite_busy h, h]

/-- The engine's step ends with ILLEGAL_COMMAND or in one of the ends of the command it decoded. -/
theorem engineStep_ends {w : BitVec 32} {s t : State} (h : engineStep w s = .next t) :
    t = s.raise .illegalCommand ∨ ∃ i, decode w = .ok i ∧ Ends i s t := by
  unfold engineStep at h
  split at h
  · exact .inl (Host.Outcome.next.inj h).symm
  · next i hi => exact .inr ⟨i, hi, exec_ends h⟩

theorem Ends.lastCmd_eq {i : Instr} {s t : State} (h : Ends i s t) : t.lastCmd = s.lastCmd := by
  cases h <;> rfl

theorem engineStep_lastCmd {w : BitVec 32} {s t : State} (h : engineStep w s = .next t) : t.lastCmd = s.lastCmd := by
  obtain rfl | ⟨i, -, hi⟩ := engineStep_ends h
  · rfl
  · exact hi.lastCmd_eq

/-! ### FIELD_OK and MONT_OK -/

/-- A write of the field descriptor clears both flags, whatever the value. -/
theorem hostWriteIdle_flags_of_descriptor (s : State) (v : Word s.width) {i : Index} (h : i ∈ [Index.modulus, .rconst, .rinv]) :
    (hostWriteIdle s v i).fieldOk = false ∧ (hostWriteIdle s v i).montOk = false := by
  simp only [List.mem_cons, List.not_mem_nil, or_false] at h
  rcases h with rfl | rfl | rfl <;> exact ⟨rfl, rfl⟩

/-- Every other idle write leaves both flags. -/
theorem hostWriteIdle_flags_of_not_descriptor (s : State) (v : Word s.width) {i : Index}
    (h : i ∉ [Index.modulus, .rconst, .rinv]) :
    (hostWriteIdle s v i).fieldOk = s.fieldOk ∧ (hostWriteIdle s v i).montOk = s.montOk := by
  cases i with
  | modulus | rconst | rinv => simp at h
  | point i f => cases f <;> exact ⟨rfl, rfl⟩
  | _ => exact ⟨rfl, rfl⟩

/-- The indices of the curve registers and CTRL are none of the descriptor's. -/
theorem not_mem_descriptor_of_mem_curve {idx : BitVec 8} (h : idx ∈ [0x43#8, 0x44#8, 0x45#8, 0x46#8]) :
    idx ∉ [0x40#8, 0x41#8, 0x42#8] := by
  simp only [List.mem_cons, List.not_mem_nil, or_false] at h
  rcases h with rfl | rfl | rfl | rfl <;> decide

/-! ### The statements -/

/-- Settles O13: reset by definition, the host's transactions by their LASTCMD lemmas, the engine's step by the ends of a command. -/
theorem lastCmdHoldsLastAcceptedWord : Obligations.LastCmdHoldsLastAcceptedWord :=
  ⟨fun _ => rfl, hostReadValue_cmd, hostWrite_lastCmd, fun _ _ => rfl, fun _ _ _ => engineStep_lastCmd⟩

/-- Settles O14: an idle write reaches the register of its index, and only those of the field descriptor touch the two flags. -/
theorem descriptorWriteClearsFlags : Obligations.DescriptorWriteClearsFlags := by
  refine ⟨fun s idx v hidle hidx => ?_, fun s idx v hidle hidx => ?_⟩
  · rw [hostWrite_idle hidle]
    exact hostWriteIdle_flags_of_descriptor s _ (indexOf_mem_descriptor.2 hidx)
  · rw [hostWrite_idle hidle]
    exact hostWriteIdle_flags_of_not_descriptor s _ (mt indexOf_mem_descriptor.1 (not_mem_descriptor_of_mem_curve hidx))

end Sys2Proof.Machine
end

section
/-! The unmapped indices under the host's reads and writes (20_memory.md R62). -/

namespace Sys2Proof.Machine

/-- The four ranges left free by the index map (20_memory.md R61) name no register. -/
theorem indexOf_eq_unmapped {idx : BitVec 8}
    (h : (0x10 ≤ idx.toNat ∧ idx.toNat ≤ 0x1F) ∨ (0x30 ≤ idx.toNat ∧ idx.toNat ≤ 0x3F) ∨
      (0x47 ≤ idx.toNat ∧ idx.toNat ≤ 0x4F) ∨ 0x52 ≤ idx.toNat) :
    indexOf idx = .unmapped := by
  have hfield : ¬ idx.toNat < 0x10 := by omega
  have hpoint : ¬ (0x20 ≤ idx.toNat ∧ idx.toNat < 0x30) := by omega
  unfold indexOf
  rw [if_neg hfield, if_neg hpoint]
  split
  case h_10 => rfl
  all_goals exact absurd h (by decide)

/-- No command has an unmapped index as its destination, so a read of one is never free. -/
theorem readIsFree_unmapped {idx : BitVec 8} (h : indexOf idx = .unmapped) (s : State) : s.readIsFree idx = false := by
  rw [State.readIsFree, h]
  split <;> rfl

/-- Idle or busy, an unmapped index reads 0. -/
theorem hostReadValue_unmapped {idx : BitVec 8} (h : indexOf idx = .unmapped) (s : State) : hostReadValue idx s = 0 := by
  simp [hostReadValue, readIsFree_unmapped h, h, State.current]

/-- An idle write to an unmapped index reaches no register. -/
theorem hostWrite_unmapped_idle {idx : BitVec 8} (h : indexOf idx = .unmapped) {s : State} (hidle : s.inflight = none) (v : Nat) :
    hostWrite idx v s = s := by
  rw [hostWrite_idle hidle, h, hostWriteIdle]

/-- Settles O15: the four ranges name no register, so a read finds 0 and an idle write nothing to change; a busy write is dropped
whatever its index. -/
theorem unmappedIndices : Obligations.UnmappedIndices := by
  intro idx s hrange
  have hidx : indexOf idx = .unmapped := indexOf_eq_unmapped hrange
  refine ⟨?_, fun v hidle => hostWrite_unmapped_idle hidx hidle v, fun v hbusy => hostWrite_busy hbusy idx v⟩
  rw [hostReadValue_unmapped hidx]
  rfl

end Sys2Proof.Machine
end

section
/-! The command word, the legal words and the worked encodings (30_encoding.md R80, R86, R91). -/

namespace Sys2Proof

/-! ### What a format asks of the fields of a word (30_encoding.md R82, R86) -/

/-- The fields of a word are as a format asks: 0 where it marks 0, at most 3 where it marks P. -/
def FieldsLegal (fmt : Format) (w : BitVec 32) : Prop :=
  (fmt.rd = .zero → rdOf w = 0) ∧ (fmt.rd = .pointReg → (rdOf w).val ≤ 3) ∧
  (fmt.ra = .zero → raOf w = 0) ∧ (fmt.ra = .pointReg → (raOf w).val ≤ 3) ∧
  (fmt.rb = .zero → rbOf w = 0) ∧ (fmt.rb = .pointReg → (rbOf w).val ≤ 3) ∧
  (fmt.imm = .zero → immOf w = 0)

theorem legalField_iff {k : FieldKind} {v : Nat} : legalField k v = true ↔ (k = .zero → v = 0) ∧ (k = .pointReg → v ≤ 3) := by
  cases k <;> simp [legalField]

/-- No format marks the immediate P, so of its check only the 0 is left. -/
theorem Format.imm_ne_pointReg (fmt : Format) : fmt.imm ≠ .pointReg := by
  cases fmt <;> decide

/-- A word with an opcode of format `fmt` is legal exactly when its fields are. -/
theorem legal_iff_of_format {w : BitVec 32} {fmt : Format} (h : formatOf (opcOf w) = some fmt) :
    legal w = true ↔ FieldsLegal fmt w := by
  rw [← commandWord_fields w, legal_commandWord h, commandWord_fields]
  simp [FieldsLegal, legalField_iff, Format.imm_ne_pointReg, BitVec.toNat_eq, and_assoc]

theorem not_legal_of_reserved {w : BitVec 32} (h : formatOf (opcOf w) = none) : legal w = false := by
  rw [legal, h]

theorem legal_iff_fieldsLegal (w : BitVec 32) : (∃ fmt, formatOf (opcOf w) = some fmt ∧ FieldsLegal fmt w) ↔ legal w = true := by
  cases h : formatOf (opcOf w) with
  | none => simp [not_legal_of_reserved h]
  | some fmt => simp [legal_iff_of_format h]

/-! ### A format's decoder answers exactly on the fields its format asks for -/

section
variable (w : BitVec 32)

theorem decodeN_answers (k : Instr) : (∃ i, decodeN w k = .ok i) ↔ FieldsLegal .N w := by
  simp [decodeN_ok, FieldsLegal, Format.rd, Format.ra, Format.rb, Format.imm]

theorem decodeF1_answers (k : FReg → Instr) : (∃ i, decodeF1 w k = .ok i) ↔ FieldsLegal .F1 w := by
  simp [decodeF1_ok, FieldsLegal, Format.rd, Format.ra, Format.rb, Format.imm]

theorem decodeF2_answers (k : FReg → FReg → Instr) : (∃ i, decodeF2 w k = .ok i) ↔ FieldsLegal .F2 w := by
  simp [decodeF2_ok, FieldsLegal, Format.rd, Format.ra, Format.rb, Format.imm]

theorem decodeF3_answers (k : FReg → FReg → FReg → Instr) : (∃ i, decodeF3 w k = .ok i) ↔ FieldsLegal .F3 w := by
  simp [decodeF3_ok, FieldsLegal, Format.rd, Format.ra, Format.rb, Format.imm]

theorem decodeFI_answers (k : FReg → FReg → Imm → Instr) : (∃ i, decodeFI w k = .ok i) ↔ FieldsLegal .FI w := by
  simp [decodeFI_ok, FieldsLegal, Format.rd, Format.ra, Format.rb, Format.imm]

theorem decodeP1_answers (k : PReg → Instr) : (∃ i, decodeP1 w k = .ok i) ↔ FieldsLegal .P1 w := by
  simp [decodeP1_ok, FieldsLegal, legalPoint, Format.rd, Format.ra, Format.rb, Format.imm]

theorem decodeP2_answers (k : PReg → PReg → Instr) : (∃ i, decodeP2 w k = .ok i) ↔ FieldsLegal .P2 w := by
  simp [decodeP2_ok, FieldsLegal, legalPoint, Format.rd, Format.ra, Format.rb, Format.imm]

theorem decodeP3_answers (k : PReg → PReg → PReg → Instr) : (∃ i, decodeP3 w k = .ok i) ↔ FieldsLegal .P3 w := by
  simp [decodeP3_ok, FieldsLegal, legalPoint, Format.rd, Format.ra, Format.rb, Format.imm]

theorem decodePK_answers (k : PReg → PReg → FReg → Instr) : (∃ i, decodePK w k = .ok i) ↔ FieldsLegal .PK w := by
  simp [decodePK_ok, FieldsLegal, legalPoint, Format.rd, Format.ra, Format.rb, Format.imm]

end

/-! ### The decoder answers exactly the legal words -/

theorem decode_of_reserved {w : BitVec 32} (h : formatOf (opcOf w) = none) : decode w = .error .reservedOpcode := by
  unfold decode
  split
  case h_36 => rfl
  all_goals next hopc => rw [hopc] at h; exact absurd h (by decide)

/-- Each of the 35 opcodes has its format's decoder; the arm of the reserved opcodes is not reached, since they have no format. -/
theorem decode_answers_iff_of_format {w : BitVec 32} {fmt : Format} (h : formatOf (opcOf w) = some fmt) :
    (∃ i, decode w = .ok i) ↔ FieldsLegal fmt w := by
  unfold decode
  split
  case h_36 =>
    unfold formatOf at h
    split at h <;> contradiction
  all_goals
    next hopc =>
    rw [hopc] at h
    cases h
    simp only [decodeN_answers, decodeF1_answers, decodeF2_answers, decodeF3_answers, decodeFI_answers, decodeP1_answers,
      decodeP2_answers, decodeP3_answers, decodePK_answers]

theorem decode_answers_iff_legal (w : BitVec 32) : (∃ i, decode w = .ok i) ↔ legal w = true := by
  cases h : formatOf (opcOf w) with
  | none => simp [decode_of_reserved h, not_legal_of_reserved h]
  | some fmt => rw [decode_answers_iff_of_format h, legal_iff_of_format h]

end Sys2Proof

namespace Sys2Proof.Machine

/-- An illegal word completes with ILLEGAL_COMMAND, whatever the state. -/
theorem engineStep_of_not_legal {w : BitVec 32} (h : legal w = false) (s : State) :
    engineStep w s = .next (failed s .illegalCommand) := by
  unfold engineStep
  split
  · rfl
  · next i hi =>
    have hlegal : legal w = true := (decode_answers_iff_legal w).1 ⟨i, hi⟩
    rw [h] at hlegal
    contradiction

/-! ### The statements -/

/-- Settles O1: the word's number, its five fields read back, and the word of its own fields. -/
theorem commandWordFields : Obligations.CommandWordFields :=
  ⟨fun opc rd ra rb imm =>
    ⟨commandWord_toNat opc rd ra rb imm, opcOf_commandWord opc rd ra rb imm, rdOf_commandWord opc rd ra rb imm,
      raOf_commandWord opc rd ra rb imm, rbOf_commandWord opc rd ra rb imm, immOf_commandWord opc rd ra rb imm⟩,
    commandWord_fields⟩

/-- Settles O4: each format's decoder checks the fields its format asks for, and a reserved opcode has none. -/
theorem decoderAcceptsExactlyLegalWords : Obligations.DecoderAcceptsExactlyLegalWords :=
  fun w => ⟨decode_answers_iff_legal w, legal_iff_fieldsLegal w, engineStep_of_not_legal⟩

/-- Settles O6: nine closed runs of the decoder. -/
theorem workedEncodings : Obligations.WorkedEncodings := by
  unfold Obligations.WorkedEncodings
  decide

end Sys2Proof.Machine
end

section
/-! The encoding clause of the command rules, and the control commands (30_encoding.md R86; 40_control.md). -/

namespace Sys2Proof.Machine

/-! ### The encoding clause: legality is the format's, so only the command of a word that decodes is left to say -/

/-- The format decides which words of an opcode decode and which are illegal; `h` says what a word that decodes stands for. -/
theorem encodedAs_of_decode_ok {opc : BitVec 8} {fmt : Format} {k : Fin 16 → Fin 16 → Fin 16 → Imm → Instr}
    (hfmt : formatOf opc = some fmt)
    (h : ∀ w i, opcOf w = opc → decode w = .ok i → k (rdOf w) (raOf w) (rbOf w) (immOf w) = i) : EncodedAs opc fmt k := by
  intro rd ra rb imm
  dsimp only
  rw [← legal_commandWord hfmt rd ra rb imm]
  refine ⟨fun hlegal => ?_, engineStep_of_not_legal⟩
  obtain ⟨i, hi⟩ := (decode_answers_iff_legal _).2 hlegal
  have hk := h _ i (opcOf_commandWord opc rd ra rb imm) hi
  rw [rdOf_commandWord, raOf_commandWord, rbOf_commandWord, immOf_commandWord] at hk
  rw [hk, hi]

/-- An opcode whose words the decoder of format N reads as `c`. -/
theorem encodedAs_N {opc : BitVec 8} {c : Instr} (hfmt : formatOf opc = some .N)
    (hdec : ∀ w, opcOf w = opc → decode w = decodeN w c) : EncodedAs opc .N (fun _ _ _ _ => c) :=
  encodedAs_of_decode_ok hfmt fun w i hopc hi => by
    obtain ⟨-, -, -, -, hc⟩ := decodeN_ok.1 (hdec w hopc ▸ hi)
    exact hc

/-- An opcode whose words the decoder of format F2 reads as `c`. -/
theorem encodedAs_F2 {opc : BitVec 8} {c : FReg → FReg → Instr} (hfmt : formatOf opc = some .F2)
    (hdec : ∀ w, opcOf w = opc → decode w = decodeF2 w c) : EncodedAs opc .F2 (fun rd ra _ _ => c rd ra) :=
  encodedAs_of_decode_ok hfmt fun w i hopc hi => by
    obtain ⟨-, -, hc⟩ := decodeF2_ok.1 (hdec w hopc ▸ hi)
    exact hc

/-- An opcode whose words the decoder of format P2 reads as `c`. -/
theorem encodedAs_P2 {opc : BitVec 8} {c : PReg → PReg → Instr} (hfmt : formatOf opc = some .P2)
    (hdec : ∀ w, opcOf w = opc → decode w = decodeP2 w c) : EncodedAs opc .P2 (fun rd ra _ _ => c rd ra) :=
  encodedAs_of_decode_ok hfmt fun w i hopc hi => by
    obtain ⟨-, -, -, -, hc⟩ := decodeP2_ok.1 (hdec w hopc ▸ hi)
    exact hc

/-! ### CFGCOMMIT (40_control.md R101; 10_state.md R36) -/

/-- The Montgomery check on the constants as they stand: reducing them first changes nothing modulo `M`. -/
theorem State.montUsable_eq (s : State) :
    s.montUsable = (decide (2 ≤ s.M) && decide ((s.rconst.toNat * s.rinv.toNat) % s.M = 1)) := by
  rw [State.montUsable, State.fieldUsable, State.R', State.RI', red, red, ← Nat.mul_mod]

theorem exec_cfgcommit_usable {s : State} (hfield : s.fieldUsable = true) (hmont : s.vtype = true → s.montUsable = true) :
    exec .cfgcommit s = .next (done { s with fieldOk := s.fieldUsable, montOk := s.montUsable }) := by
  have hno : ¬ (s.vtype = true ∧ s.montUsable = false) := fun ⟨hv, hm⟩ => by simp [hmont hv] at hm
  simp only [exec, execCfgcommit]
  rw [if_neg (by simp [hfield]), if_neg hno]
  rfl

theorem exec_cfgcommit_unusable {s : State} (h : s.fieldUsable = false ∨ (s.vtype = true ∧ s.montUsable = false)) :
    exec .cfgcommit s = .next (failed { s with fieldOk := s.fieldUsable, montOk := s.montUsable } .configInvalid) := by
  simp only [exec, execCfgcommit]
  by_cases hfield : s.fieldUsable = false
  · rw [if_pos hfield]; rfl
  · rw [if_neg hfield, if_pos (h.resolve_left hfield)]; rfl

/-! ### Raw copies (40_control.md R102, R103): a register's number written back is the register's word -/

@[simp] theorem pointNumber_pnum (d : Fin 4) : pointNumber (pnum d) = .ok d := pointNumber_ok.2 rfl

/-- The state in which a field command ends is a write and the completion. -/
theorem wroteF_eq_complete (s : State) (d : FReg) (v : Nat) : wroteF s d v = (s.writeF d v).complete := rfl

/-- The state in which a point command ends is a write and the completion. -/
theorem wroteP_eq_complete (s : State) (d : Fin 4) (x y z : Nat) (inf : Bool) :
    wroteP s d x y z inf = (s.writeP d x y z inf).complete := rfl

theorem State.writeF_F (s : State) (rd ra : FReg) : s.writeF rd (s.F ra) = s.setF rd (s.f.get ra) := by
  rw [State.writeF, State.F, Word.ofNat, BitVec.ofNat_toNat, BitVec.setWidth_eq]

theorem State.writeP_P (s : State) (d a : Fin 4) : s.writeP d (s.PX a) (s.PY a) (s.PZ a) (s.PINF a) = s.setP d (s.p.get a) := by
  simp only [State.writeP, State.PX, State.PY, State.PZ, State.PINF, Word.ofNat, BitVec.ofNat_toNat, BitVec.setWidth_eq]

theorem exec_fmov (s : State) (rd ra : FReg) : exec (.fmov rd ra) s = .next (wroteF s rd (s.F ra)) := by
  rw [wroteF_eq_complete, State.writeF_F, exec, execFmov, finish_ok]

theorem exec_pmov (s : State) (d a : Fin 4) :
    exec (.pmov (pnum d) (pnum a)) s = .next (wroteP s d (s.PX a) (s.PY a) (s.PZ a) (s.PINF a)) := by
  rw [wroteP_eq_complete, State.writeP_P, exec, execPmov]
  simp only [pointNumber_pnum, ok_bind, pure_eq_ok, finish_ok]

/-! ### The statements -/

/-- Settles O31: format N leaves one legal word, the command writes nothing, and a word in flight is what busy means. -/
theorem nopOnlyCompletes : Obligations.NopOnlyCompletes :=
  ⟨encodedAs_N rfl fun w hopc => by simp only [decode, hopc], fun _ => rfl, fun s h => by rw [State.busy, h, Option.isSome_some]⟩

/-- Settles O32: the two flags are the model's checks of the descriptor, and the two clauses are the two ends of CFGCOMMIT. -/
theorem cfgcommitValidatesDescriptor : Obligations.CfgcommitValidatesDescriptor := by
  refine ⟨encodedAs_N rfl fun w hopc => by simp only [decode, hopc], fun s => ?_⟩
  dsimp only
  rw [← State.montUsable_eq]
  exact ⟨fun ⟨hfield, hmont⟩ => exec_cfgcommit_usable hfield hmont, exec_cfgcommit_unusable⟩

/-- Settles O33: both copies write the word they read, with no reduction and before no check of the configuration. -/
theorem fmovPmovCopyRaw : Obligations.FmovPmovCopyRaw :=
  ⟨encodedAs_F2 rfl fun w hopc => by simp only [decode, hopc],
    encodedAs_P2 rfl fun w hopc => by simp only [decode, hopc], exec_fmov, exec_pmov⟩

end Sys2Proof.Machine
end

section
/-! The commands of class field, and field_adder_subtracter (60_exceptions.md R253, R254; 41_field_add_sub.md). -/

namespace Sys2Proof.Machine

/-! ### The encoding clause, for the formats of one and of three field registers -/

/-- An opcode whose words the decoder of format F1 reads as `c`. -/
theorem encodedAs_F1 {opc : BitVec 8} {c : FReg → Instr} (hfmt : formatOf opc = some .F1)
    (hdec : ∀ w, opcOf w = opc → decode w = decodeF1 w c) : EncodedAs opc .F1 (fun rd _ _ _ => c rd) :=
  encodedAs_of_decode_ok hfmt fun w i hopc hi => by
    obtain ⟨-, -, -, hc⟩ := decodeF1_ok.1 (hdec w hopc ▸ hi)
    exact hc

/-- An opcode whose words the decoder of format F3 reads as `c`. -/
theorem encodedAs_F3 {opc : BitVec 8} {c : FReg → FReg → FReg → Instr} (hfmt : formatOf opc = some .F3)
    (hdec : ∀ w, opcOf w = opc → decode w = decodeF3 w c) : EncodedAs opc .F3 (fun rd ra rb _ => c rd ra rb) :=
  encodedAs_of_decode_ok hfmt fun w i hopc hi => by
    obtain ⟨-, hc⟩ := decodeF3_ok.1 (hdec w hopc ▸ hi)
    exact hc

/-! ### The two ends of the configuration check -/

/-- Every class but none stops at FIELD_OK = 0. -/
theorem requireConfig_of_not_fieldOk {c : ConfigClass} {s : State} (hc : c ≠ .none) (h : s.fieldOk = false) :
    requireConfig c s = .error .notConfigured :=
  requireConfig_error.2 (.inl ⟨hc, h, rfl⟩)

/-- Class field asks for FIELD_OK alone. -/
theorem requireConfig_field {s : State} (h : s.fieldOk = true) : requireConfig .field s = .ok () :=
  requireConfig_ok.2 ⟨fun _ => h, nofun, nofun⟩

/-- A command that begins with the check of its class needs the field, whatever it computes after the check. -/
theorem needsField_of_requireConfig {i : Instr} {c : ConfigClass} {rest : State → Except StatusCode State} (hc : c ≠ .none)
    (hexec : ∀ s, exec i s = finish s (requireConfig c s >>= fun _ => rest s)) : NeedsField i := by
  intro s h
  rw [hexec, requireConfig_of_not_fieldOk hc h, error_bind, finish_error]
  rfl

/-- A command of class field that computes one number: with the field configured it writes that number and completes. -/
theorem finish_writeF_of_fieldReady {s : State} (h : s.FieldReady) (rd : FReg) (v : Nat) :
    finish s (requireConfig .field s >>= fun _ => pure (s.writeF rd v)) = .next (wroteF s rd v) := by
  rw [requireConfig_field h.1, ok_bind, pure_eq_ok, finish_ok, wroteF_eq_complete]

/-! ### The primitives of the adder on raw contents: reducing the operands first changes nothing modulo `M` -/

theorem modAdd_red (M a b : Nat) : modAdd M (red M a) (red M b) = (a + b) % M :=
  (Nat.add_mod a b M).symm

/-- 41_field_add_sub.md R122: the wrapped difference is the residue of the integer difference. -/
theorem modSub_eq_emod {M a b : Nat} (ha : a < M) (hb : b < M) : (modSub M a b : Int) = ((a : Int) - b) % M := by
  unfold modSub
  split
  · rw [Int.emod_eq_of_lt (by omega) (by omega)]
    omega
  · rw [← Int.add_emod_right, Int.emod_eq_of_lt (by omega) (by omega)]
    omega

/-- 41_field_add_sub.md R123: the negation is the residue of the integer negation. -/
theorem modNeg_eq_emod {M a : Nat} (ha : a ≤ M) : (modNeg M a : Int) = (-(a : Int)) % M := by
  rw [modNeg, Int.natCast_emod, Int.natCast_sub ha, sub_eq_neg_add, Int.add_emod_right]

theorem red_modEq (M v : Nat) : (red M v : Int) ≡ v [ZMOD M] := by
  rw [red, Int.natCast_emod]
  exact Int.mod_modEq v M

theorem modSub_red {M : Nat} (hM : 0 < M) (a b : Nat) :
    modSub M (red M a) (red M b) = (((a : Int) - (b : Int)) % (M : Int)).toNat := by
  rw [← ((red_modEq M a).sub (red_modEq M b)).eq, ← modSub_eq_emod (red_lt hM a) (red_lt hM b), Int.toNat_natCast]

theorem modNeg_red {M : Nat} (hM : 0 < M) (a : Nat) : modNeg M (red M a) = ((-(a : Int)) % (M : Int)).toNat := by
  rw [← (red_modEq M a).neg.eq, ← modNeg_eq_emod (red_lt hM a).le, Int.toNat_natCast]

/-! ### The commands with the field configured (41_field_add_sub.md R124 to R129) -/

section
variable {s : State} (h : s.FieldReady)
include h

theorem State.FieldReady.M_pos : 0 < s.M := by
  have hM : 2 ≤ s.M := h.2
  omega

theorem exec_fadd (rd ra rb : FReg) : exec (.fadd rd ra rb) s = .next (wroteF s rd ((s.F ra + s.F rb) % s.M)) := by
  rw [← modAdd_red]
  exact finish_writeF_of_fieldReady h rd _

theorem exec_fsub (rd ra rb : FReg) :
    exec (.fsub rd ra rb) s = .next (wroteF s rd (((s.F ra : Int) - (s.F rb : Int)) % (s.M : Int)).toNat) := by
  rw [← modSub_red h.M_pos]
  exact finish_writeF_of_fieldReady h rd _

theorem exec_fneg (rd ra : FReg) : exec (.fneg rd ra) s = .next (wroteF s rd ((-(s.F ra : Int)) % (s.M : Int)).toNat) := by
  rw [← modNeg_red h.M_pos]
  exact finish_writeF_of_fieldReady h rd _

theorem exec_fred (rd ra : FReg) : exec (.fred rd ra) s = .next (wroteF s rd (s.F ra % s.M)) :=
  finish_writeF_of_fieldReady h rd _

theorem exec_fzero (rd : FReg) : exec (.fzero rd) s = .next (wroteF s rd 0) :=
  finish_writeF_of_fieldReady h rd 0

theorem exec_fone (rd : FReg) : exec (.fone rd) s = .next (wroteF s rd 1) :=
  finish_writeF_of_fieldReady h rd 1

end

/-! ### The statements -/

/-- Settles O34: sum and difference of the reduced operands are the residues of the exact sum and difference. -/
theorem faddFsubModuloM : Obligations.FaddFsubModuloM :=
  ⟨encodedAs_F3 rfl fun w hopc => by simp only [decode, hopc],
    encodedAs_F3 rfl fun w hopc => by simp only [decode, hopc],
    fun _ _ _ => ⟨needsField_of_requireConfig (c := .field) nofun fun _ => rfl,
      needsField_of_requireConfig (c := .field) nofun fun _ => rfl⟩,
    fun _ rd ra rb h => ⟨exec_fadd h rd ra rb, exec_fsub h rd ra rb⟩⟩

/-- Settles O35: the negation of the reduced operand is the residue of the integer negation, and FRED writes the operand reduced. -/
theorem fnegFredModuloM : Obligations.FnegFredModuloM :=
  ⟨encodedAs_F2 rfl fun w hopc => by simp only [decode, hopc],
    encodedAs_F2 rfl fun w hopc => by simp only [decode, hopc],
    fun _ _ => ⟨needsField_of_requireConfig (c := .field) nofun fun _ => rfl,
      needsField_of_requireConfig (c := .field) nofun fun _ => rfl⟩,
    fun _ rd ra h => ⟨exec_fneg h rd ra, exec_fred h rd ra⟩⟩

/-- Settles O36: the two constants pass the check of class field, and FONE's is the one of the standard domain. -/
theorem fzeroFoneConstants : Obligations.FzeroFoneConstants :=
  ⟨encodedAs_F1 rfl fun w hopc => by simp only [decode, hopc],
    encodedAs_F1 rfl fun w hopc => by simp only [decode, hopc],
    fun _ => ⟨needsField_of_requireConfig (c := .field) nofun fun _ => rfl,
      needsField_of_requireConfig (c := .field) nofun fun _ => rfl⟩,
    fun _ rd h => ⟨exec_fzero h rd, exec_fone h rd⟩⟩

end Sys2Proof.Machine
end

section
/-! The commands of class mont, and montgomery_multiplier (60_exceptions.md R253, R254; 42_multiplier.md). -/

namespace Sys2Proof.Machine

/-! ### The encoding clause, for the format with an immediate -/

/-- An opcode whose words the decoder of format FI reads as `c`. -/
theorem encodedAs_FI {opc : BitVec 8} {c : FReg → FReg → Imm → Instr} (hfmt : formatOf opc = some .FI)
    (hdec : ∀ w, opcOf w = opc → decode w = decodeFI w c) : EncodedAs opc .FI (fun rd ra _ imm => c rd ra imm) :=
  encodedAs_of_decode_ok hfmt fun w i hopc hi => by
    obtain ⟨-, hc⟩ := decodeFI_ok.1 (hdec w hopc ▸ hi)
    exact hc

/-! ### The three ends of the configuration check of class mont -/

/-- With FIELD_OK = 1, class mont stops at MONT_OK = 0. -/
theorem requireConfig_mont_of_not_montOk {s : State} (hf : s.fieldOk = true) (hm : s.montOk = false) :
    requireConfig .mont s = .error .montNotConfigured :=
  requireConfig_error.2 (.inr ⟨hf, hm, .inl rfl, rfl⟩)

/-- Class mont asks for both flags. -/
theorem requireConfig_mont {s : State} (hf : s.fieldOk = true) (hm : s.montOk = true) : requireConfig .mont s = .ok () :=
  requireConfig_ok.2 ⟨fun _ => hf, fun _ => hm, nofun⟩

/-- A command that begins with the check of class mont needs the constants, whatever it computes after the check. -/
theorem needsMont_of_requireConfig {i : Instr} {rest : State → Except StatusCode State}
    (hexec : ∀ s, exec i s = finish s (requireConfig .mont s >>= fun _ => rest s)) : NeedsMont i := by
  refine ⟨needsField_of_requireConfig (c := .mont) nofun hexec, fun s hf hm => ?_⟩
  rw [hexec, requireConfig_mont_of_not_montOk hf hm, error_bind, finish_error]
  rfl

/-- A command of class mont that computes one number: with the constants configured it writes that number and completes. -/
theorem finish_writeF_of_montReady {s : State} (h : s.MontReady) (rd : FReg) (v : Nat) :
    finish s (requireConfig .mont s >>= fun _ => pure (s.writeF rd v)) = .next (wroteF s rd v) := by
  obtain ⟨hfield, hmont, -⟩ := h
  rw [requireConfig_mont hfield.1 hmont, ok_bind, pure_eq_ok, finish_ok, wroteF_eq_complete]

/-! ### The primitives of the multiplier on raw contents: reducing the operands first changes nothing modulo `M` -/

theorem red_natModEq (M v : Nat) : red M v ≡ v [MOD M] := Nat.mod_modEq v M

theorem modMul_red (M a b : Nat) : modMul M (red M a) (red M b) = (a * b) % M :=
  (Nat.mul_mod a b M).symm

theorem modMulSmall_red (M k a : Nat) : modMulSmall M k (red M a) = (k * a) % M :=
  Nat.mul_mod_mod k a M

theorem mulReduce_red (M a b c : Nat) : mulReduce M (red M a) (red M b) (red M c) = (a * b * c) % M := by
  rw [mulReduce, modMul_red]
  exact modMul_red M (a * b) c

/-! ### The power in either domain (42_multiplier.md R147) -/

section
variable {D : Domain}

/-- The loop of `powd` keeps its accumulator canonical. -/
theorem powLoop_lt (hM : 0 < D.M) (b e : Nat) : ∀ (i : Nat) {acc : Nat}, acc < D.M → powLoop D b e i acc < D.M
  | 0, _, hacc => hacc
  | i + 1, acc, _ => by
    rw [powLoop]
    refine powLoop_lt hM b e i ?_
    split <;> exact mulD_lt hM _ _

theorem powD_lt (hD : D.Usable) (W b e : Nat) : powD D W b e < D.M := by
  obtain ⟨hM, hR, -, -⟩ := hD
  exact powLoop_lt (by omega) b e W (oneD_lt hM hR)

/-- On logical values the loop squares its accumulator once for each bit, and multiplies in the power the bits left stand for. -/
theorem logical_powLoop (b e : Nat) : ∀ (i acc : Nat),
    logical D (powLoop D b e i acc) = logical D acc ^ 2 ^ i * logical D b ^ (e % 2 ^ i)
  | 0, acc => by simp [powLoop, Nat.mod_one]
  | i + 1, acc => by
    have hbit : e % 2 ^ (i + 1) = e % 2 ^ i + 2 ^ i * (e.testBit i).toNat := by rw [Nat.mod_pow_succ, Nat.toNat_testBit]
    have hturn : logical D (if e.testBit i then mulD D (mulD D acc acc) b else mulD D acc acc) =
        logical D acc ^ 2 * logical D b ^ (e.testBit i).toNat := by
      cases e.testBit i <;> simp [logical_mulD, sq]
    rw [powLoop, logical_powLoop b e i, hturn, hbit]
    ring

/-- `powd` is the power of the logical value, for an exponent of `W` bits. -/
theorem logical_powD (hD : D.Usable) {W : Nat} (b : Nat) {e : Nat} (he : e < 2 ^ W) :
    logical D (powD D W b e) = logical D b ^ e := by
  rw [powD, logical_powLoop, logical_oneD hD, one_pow, one_mul, Nat.mod_eq_of_lt he]

/-- `powd` in the Montgomery domain leaves the domain, takes the power and enters it again. -/
theorem powD_montgomery (hD : D.Usable) (hm : D.mont = true) {W : Nat} (b : Nat) {e : Nat} (he : e < 2 ^ W) :
    powD D W b e = ((b * D.RI) ^ e * D.R) % D.M := by
  have hM : 0 < D.M := by
    have := hD.1
    omega
  refine eq_of_logical_eq hD (powD_lt hD W b e) (Nat.mod_lt _ hM) ?_
  calc logical D (powD D W b e)
      = (b * D.RI) ^ e := by rw [logical_powD hD b he, logical_montgomery hm]
    _ = (b * D.RI) ^ e * (D.R * D.RI) := by rw [hD.cast hm, mul_one]
    _ = logical D (((b * D.RI) ^ e * D.R) % D.M) := by rw [logical_montgomery hm, ZMod.natCast_mod]; push_cast; ring

end

/-! ### The commands with the field configured (42_multiplier.md R148 to R151) -/

section
variable {s : State} (h : s.FieldReady)
include h

theorem exec_fmul (rd ra rb : FReg) : exec (.fmul rd ra rb) s = .next (wroteF s rd ((s.F ra * s.F rb) % s.M)) := by
  rw [← modMul_red]
  exact finish_writeF_of_fieldReady h rd _

theorem exec_fsqr (rd ra : FReg) : exec (.fsqr rd ra) s = .next (wroteF s rd (s.F ra ^ 2 % s.M)) := by
  rw [sq, ← modMul_red]
  exact finish_writeF_of_fieldReady h rd _

theorem exec_fmuli (rd ra : FReg) (imm : Imm) :
    exec (.fmuli rd ra imm) s = .next (wroteF s rd ((imm.toNat * s.F ra) % s.M)) := by
  rw [← modMulSmall_red]
  exact finish_writeF_of_fieldReady h rd _

/-- The exponent is a register's content, so it has `W` bits and the loop reads it whole. -/
theorem exec_fpow (rd ra rb : FReg) : exec (.fpow rd ra rb) s = .next (wroteF s rd (s.F ra ^ s.F rb % s.M)) := by
  have hpow : powD (s.domain false) s.width.bits (s.elem ra) (s.F rb) = s.F ra ^ s.F rb % s.M :=
    (powD_standard (D := s.domain false) rfl h.2 (s.elem ra) (s.F_lt rb)).trans ((red_natModEq s.M (s.F ra)).pow (s.F rb))
  rw [← hpow]
  exact finish_writeF_of_fieldReady h rd _

end

/-! ### What a field command leaves of the operands of the next one -/

section
variable {s : State} (rd : FReg) {v : Nat}

@[simp] theorem wroteF_M : (wroteF s rd v).M = s.M := rfl

@[simp] theorem wroteF_rinv : (wroteF s rd v).rinv.toNat = s.rinv.toNat := rfl

/-- The written register holds the number, when that is canonical. -/
theorem wroteF_F_self (hv : v < s.M) : (wroteF s rd v).F rd = v := by
  rw [wroteF_eq_complete, State.complete_F, State.writeF, State.setF_F_self, s.ofNat_of_lt_M hv]

/-- A field command keeps the configuration. -/
theorem montReady_wroteF (h : s.MontReady) : (wroteF s rd v).MontReady := h

end

/-! ### The commands with the constants configured (42_multiplier.md R152 to R157) -/

section
variable {s : State} (h : s.MontReady)
include h

/-- The constants as they stand are inverse to each other modulo `M`. -/
theorem State.MontReady.rconst_mul_rinv : s.rconst.toNat * s.rinv.toNat ≡ 1 [MOD s.M] := by
  obtain ⟨⟨-, hM⟩, -, hone⟩ := h
  calc s.rconst.toNat * s.rinv.toNat
      ≡ s.R' * s.RI' [MOD s.M] := ((red_natModEq _ _).mul (red_natModEq _ _)).symm
    _ ≡ 1 [MOD s.M] := hone.trans (Nat.mod_eq_of_lt hM).symm

theorem exec_mmul (rd ra rb : FReg) :
    exec (.mmul rd ra rb) s = .next (wroteF s rd ((s.F ra * s.F rb * s.rinv.toNat) % s.M)) := by
  rw [← mulReduce_red]
  exact finish_writeF_of_montReady h rd _

theorem exec_msqr (rd ra : FReg) : exec (.msqr rd ra) s = .next (wroteF s rd ((s.F ra ^ 2 * s.rinv.toNat) % s.M)) := by
  rw [sq, ← mulReduce_red]
  exact finish_writeF_of_montReady h rd _

theorem exec_tomont (rd ra : FReg) : exec (.tomont rd ra) s = .next (wroteF s rd ((s.F ra * s.rconst.toNat) % s.M)) := by
  rw [← modMul_red]
  exact finish_writeF_of_montReady h rd _

theorem exec_frommont (rd ra : FReg) : exec (.frommont rd ra) s = .next (wroteF s rd ((s.F ra * s.rinv.toNat) % s.M)) := by
  rw [← modMul_red]
  exact finish_writeF_of_montReady h rd _

theorem exec_mone (rd : FReg) : exec (.mone rd) s = .next (wroteF s rd (s.rconst.toNat % s.M)) :=
  finish_writeF_of_montReady h rd _

theorem exec_mpow (rd ra rb : FReg) :
    exec (.mpow rd ra rb) s = .next (wroteF s rd (((s.F ra * s.rinv.toNat) ^ s.F rb * s.rconst.toNat) % s.M)) := by
  have hraw : (s.elem ra * s.RI') ^ s.F rb * s.R' ≡ (s.F ra * s.rinv.toNat) ^ s.F rb * s.rconst.toNat [MOD s.M] :=
    (((red_natModEq _ _).mul (red_natModEq _ _)).pow _).mul (red_natModEq _ _)
  have hpow : powD (s.domain true) s.width.bits (s.elem ra) (s.F rb) =
      ((s.F ra * s.rinv.toNat) ^ s.F rb * s.rconst.toNat) % s.M :=
    (powD_montgomery h.usable rfl (s.elem ra) (s.F_lt rb)).trans hraw
  rw [← hpow]
  exact finish_writeF_of_montReady h rd _

/-- 42_multiplier.md R155: FROMMONT of what TOMONT wrote is the operand reduced. -/
theorem exec_frommont_of_tomont {rd ra : FReg} {t : State} (ht : exec (.tomont rd ra) s = .next t) (rd' : FReg) :
    exec (.frommont rd' rd) t = .next (wroteF t rd' (s.F ra % s.M)) := by
  rw [exec_tomont h rd ra] at ht
  obtain rfl := Host.Outcome.next.inj ht
  have hback : s.F ra * s.rconst.toNat % s.M * s.rinv.toNat ≡ s.F ra [MOD s.M] := by
    calc s.F ra * s.rconst.toNat % s.M * s.rinv.toNat
        ≡ s.F ra * s.rconst.toNat * s.rinv.toNat [MOD s.M] := (Nat.mod_modEq _ _).mul_right _
      _ = s.F ra * (s.rconst.toNat * s.rinv.toNat) := Nat.mul_assoc _ _ _
      _ ≡ s.F ra * 1 [MOD s.M] := h.rconst_mul_rinv.mul_left _
      _ = s.F ra := Nat.mul_one _
  rw [exec_frommont (montReady_wroteF rd h), wroteF_F_self rd (Nat.mod_lt _ h.1.M_pos), wroteF_rinv, wroteF_M, hback]

end

/-! ### The statements -/

/-- Settles O38: the loop's power of the reduced base is the power of the base as it stands. -/
theorem fpowIsModularPower : Obligations.FpowIsModularPower :=
  ⟨encodedAs_F3 rfl fun w hopc => by simp only [decode, hopc],
    fun _ _ _ => needsField_of_requireConfig (c := .field) nofun fun _ => rfl,
    fun _ rd ra rb h => exec_fpow h rd ra rb⟩

/-- Settles O40: three reduced products, and the round trip by `R * RI = 1`. -/
theorem tomontFrommontMone : Obligations.TomontFrommontMone :=
  ⟨encodedAs_F2 rfl fun w hopc => by simp only [decode, hopc],
    encodedAs_F2 rfl fun w hopc => by simp only [decode, hopc],
    encodedAs_F1 rfl fun w hopc => by simp only [decode, hopc],
    fun _ _ => ⟨needsMont_of_requireConfig fun _ => rfl, needsMont_of_requireConfig fun _ => rfl,
      needsMont_of_requireConfig fun _ => rfl⟩,
    fun _ rd ra h => ⟨exec_tomont h rd ra, exec_frommont h rd ra, exec_mone h rd,
      fun _ rd' ht => exec_frommont_of_tomont h ht rd'⟩⟩

/-- Settles O41: the power of the logical base, by induction over the exponent's bits, entered into the Montgomery domain. -/
theorem mpowIsMontgomeryPower : Obligations.MpowIsMontgomeryPower :=
  ⟨encodedAs_F3 rfl fun w hopc => by simp only [decode, hopc],
    fun _ _ _ => needsMont_of_requireConfig fun _ => rfl,
    fun _ rd ra rb h => exec_mpow h rd ra rb⟩

/-- Settles O37: the exact products of the reduced operands have the residues of the products of the raw contents. -/
theorem fmulFsqrFmuliModuloM : Obligations.FmulFsqrFmuliModuloM :=
  ⟨encodedAs_F3 rfl fun w hopc => by simp only [decode, hopc],
    encodedAs_F2 rfl fun w hopc => by simp only [decode, hopc],
    encodedAs_FI rfl fun w hopc => by simp only [decode, hopc],
    fun _ _ _ _ => ⟨needsField_of_requireConfig (c := .field) nofun fun _ => rfl,
      needsField_of_requireConfig (c := .field) nofun fun _ => rfl,
      needsField_of_requireConfig (c := .field) nofun fun _ => rfl⟩,
    fun _ rd ra rb imm h => ⟨exec_fmul h rd ra rb, exec_fsqr h rd ra, exec_fmuli h rd ra imm⟩⟩

/-- Settles O39: the product, then the product with the reduced RINV, has the residue of the three raw factors. -/
theorem mmulMsqrRescale : Obligations.MmulMsqrRescale :=
  ⟨encodedAs_F3 rfl fun w hopc => by simp only [decode, hopc],
    encodedAs_F2 rfl fun w hopc => by simp only [decode, hopc],
    fun _ _ _ => ⟨needsMont_of_requireConfig fun _ => rfl, needsMont_of_requireConfig fun _ => rfl⟩,
    fun _ rd ra rb h => ⟨exec_mmul h rd ra rb, exec_msqr h rd ra⟩⟩

end Sys2Proof.Machine
end

section
/-! modular_inverse_engine (43_inverse.md R170 to R175): inverse and division of raw contents, and the four commands on them. -/

namespace Sys2Proof.Machine

/-! ### A command that may fail after the check of its class: one number written, or one code raised -/

section
variable {s : State} {c : ConfigClass} {r : Except StatusCode Nat} (hconfig : requireConfig c s = .ok ()) (rd : FReg)
include hconfig

theorem finish_writeF_of_ok {v : Nat} (hr : r = .ok v) :
    finish s (requireConfig c s >>= fun _ => r >>= fun v => pure (s.writeF rd v)) = .next (wroteF s rd v) := by
  rw [hconfig, ok_bind, hr, ok_bind, pure_eq_ok, finish_ok, wroteF_eq_complete]

theorem finish_failed_of_error {code : StatusCode} (hr : r = .error code) :
    finish s (requireConfig c s >>= fun _ => r >>= fun v => pure (s.writeF rd v)) = .next (failed s code) := by
  rw [hconfig, ok_bind, hr, error_bind, finish_error]
  rfl

end

theorem State.FieldReady.requireConfig_eq_ok {s : State} (h : s.FieldReady) : requireConfig .field s = .ok () :=
  requireConfig_field h.1

theorem State.MontReady.requireConfig_eq_ok {s : State} (h : s.MontReady) : requireConfig .mont s = .ok () :=
  let ⟨hfield, hmont, _⟩ := h
  requireConfig_mont hfield.1 hmont

/-! ### The inverse of a raw content (43_inverse.md R170): reducing it changes neither its being 0 nor its common factors with `M` -/

section
variable {M v : Nat}

theorem gcd_red (M v : Nat) : Nat.gcd (red M v) M = Nat.gcd v M := (red_natModEq M v).gcd_eq

theorem modInv_red_of_zero (h0 : v % M = 0) : modInv M (red M v) = .error .inverseOfZero := by
  rw [red, h0, modInv_zero]

theorem modInv_red_of_not_coprime (hM : 1 < M) (h0 : v % M ≠ 0) (hg : Nat.gcd v M ≠ 1) :
    modInv M (red M v) = .error .notInvertible :=
  modInv_of_not_coprime h0 hM (gcd_red M v ▸ hg)

theorem modInv_red_of_coprime (hM : 1 < M) (hg : Nat.gcd v M = 1) :
    ∃ x, modInv M (red M v) = .ok x ∧ 0 < x ∧ x < M ∧ v * x % M = 1 := by
  obtain ⟨x, hx, hpos, hlt, hinv⟩ := modInv_of_coprime hM (red_lt (by omega) v) ((gcd_red M v).trans hg)
  exact ⟨x, hx, hpos, hlt, Eq.trans ((red_natModEq M v).mul_right x).symm hinv⟩

end

/-! ### The quotient by a raw content, in either domain (43_inverse.md R171): the rescale constant is `one_d` -/

section
variable {D : Domain} {v : Nat} (a : Nat)

theorem divD_red_of_zero (h0 : v % D.M = 0) : divD D a (red D.M v) = .error .inverseOfZero :=
  divD_eq_error.2 (modInv_red_of_zero h0)

theorem divD_red_of_not_coprime (hM : 1 < D.M) (h0 : v % D.M ≠ 0) (hg : Nat.gcd v D.M ≠ 1) :
    divD D a (red D.M v) = .error .notInvertible :=
  divD_eq_error.2 (modInv_red_of_not_coprime hM h0 hg)

/-- `div_d` is the product with the inverse, rescaled by `one_d`. -/
theorem divD_of_modInv {b i : Nat} (hi : modInv D.M b = .ok i) :
    ∃ x, divD D a b = .ok x ∧ x ≡ a * i * oneD D [MOD D.M] := by
  refine ⟨_, by rw [divD, hi, ok_bind, pure_eq_ok], ?_⟩
  cases hm : D.mont
  · rw [if_neg nofun, oneD, hm, if_neg nofun, Nat.mul_one]
    exact Nat.mod_modEq _ _
  · rw [if_pos rfl, oneD, hm, if_pos rfl]
    exact (Nat.mod_modEq _ _).trans ((Nat.mod_modEq _ _).mul_right D.R)

theorem divD_red_of_coprime (hM : 1 < D.M) (hg : Nat.gcd v D.M = 1) :
    ∃ x, divD D a (red D.M v) = .ok x ∧ x < D.M ∧ x * v ≡ a * oneD D [MOD D.M] := by
  obtain ⟨i, hi, -, -, hinv⟩ := modInv_red_of_coprime hM hg
  have hone : v * i ≡ 1 [MOD D.M] := hinv.trans (Nat.mod_eq_of_lt hM).symm
  obtain ⟨x, hx, hquot⟩ := divD_of_modInv a hi
  refine ⟨x, hx, divD_lt (by omega) hx, ?_⟩
  calc x * v
      ≡ a * i * oneD D * v [MOD D.M] := hquot.mul_right v
    _ = a * oneD D * (v * i) := by ring
    _ ≡ a * oneD D * 1 [MOD D.M] := hone.mul_left _
    _ = a * oneD D := Nat.mul_one _

end

/-! ### The statements -/

/-- Settles O43: the loop of `modInv` ends with the greatest common divisor of `M` and the operand, and with the inverse if that is 1. -/
theorem finvComputesInverse : Obligations.FinvComputesInverse := by
  refine ⟨encodedAs_F2 rfl fun w hopc => by simp only [decode, hopc],
    fun _ _ => needsField_of_requireConfig (c := .field) nofun fun _ => rfl,
    fun s rd ra h => ⟨fun h0 => ?_, fun h0 hg => ?_, fun hg => ?_⟩⟩
  · exact finish_failed_of_error h.requireConfig_eq_ok rd (modInv_red_of_zero h0)
  · exact finish_failed_of_error h.requireConfig_eq_ok rd (modInv_red_of_not_coprime h.2 h0 hg)
  · obtain ⟨x, hx, hpos, hlt, hinv⟩ := modInv_red_of_coprime h.2 hg
    exact ⟨x, finish_writeF_of_ok h.requireConfig_eq_ok rd hx, hpos, hlt, hinv⟩

/-- Settles O44: in the standard domain `one_d` is 1, so the quotient times the divisor is the dividend. -/
theorem fdivComputesQuotient : Obligations.FdivComputesQuotient := by
  refine ⟨encodedAs_F3 rfl fun w hopc => by simp only [decode, hopc],
    fun _ _ _ => needsField_of_requireConfig (c := .field) nofun fun _ => rfl,
    fun s rd ra rb h => ⟨fun h0 => ?_, fun h0 hg => ?_, fun hg => ?_⟩⟩
  · exact finish_failed_of_error h.requireConfig_eq_ok rd (divD_red_of_zero (D := s.domain false) _ h0)
  · exact finish_failed_of_error h.requireConfig_eq_ok rd (divD_red_of_not_coprime (D := s.domain false) _ h.2 h0 hg)
  · obtain ⟨x, hx, hlt, hquot⟩ := divD_red_of_coprime (D := s.domain false) (s.elem ra) h.2 hg
    have hraw : s.elem ra * 1 ≡ s.F ra [MOD s.M] := by
      rw [Nat.mul_one]
      exact red_natModEq _ _
    exact ⟨x, finish_writeF_of_ok h.requireConfig_eq_ok rd hx, hlt, hquot.trans hraw⟩

/-- Settles O45: in the Montgomery domain `one_d` is `R'`, for the dividend of MINV and for the rescaling of both commands. -/
theorem minvMdivInMontgomeryForm : Obligations.MinvMdivInMontgomeryForm := by
  refine ⟨encodedAs_F2 rfl fun w hopc => by simp only [decode, hopc],
    encodedAs_F3 rfl fun w hopc => by simp only [decode, hopc],
    fun _ _ _ => ⟨needsMont_of_requireConfig fun _ => rfl, needsMont_of_requireConfig fun _ => rfl⟩,
    fun s rd ra rb h => ?_⟩
  have hR : s.R' ≡ s.rconst.toNat [MOD s.M] := red_natModEq _ _
  refine ⟨fun h0 => ?_, fun h0 hg => ?_, fun hg => ⟨?_, ?_⟩⟩
  · have hzero (a : Nat) := divD_red_of_zero (D := s.domain true) a h0
    exact ⟨finish_failed_of_error h.requireConfig_eq_ok rd (hzero _), finish_failed_of_error h.requireConfig_eq_ok rd (hzero _)⟩
  · have hshared (a : Nat) := divD_red_of_not_coprime (D := s.domain true) a h.1.2 h0 hg
    exact ⟨finish_failed_of_error h.requireConfig_eq_ok rd (hshared _), finish_failed_of_error h.requireConfig_eq_ok rd (hshared _)⟩
  · obtain ⟨x, hx, hlt, hquot⟩ := divD_red_of_coprime (D := s.domain true) s.R' h.1.2 hg
    exact ⟨x, finish_writeF_of_ok h.requireConfig_eq_ok rd hx, hlt, hquot.trans (sq s.rconst.toNat ▸ hR.mul hR)⟩
  · obtain ⟨x, hx, hlt, hquot⟩ := divD_red_of_coprime (D := s.domain true) (s.elem ra) h.1.2 hg
    exact ⟨x, finish_writeF_of_ok h.requireConfig_eq_ok rd hx, hlt, hquot.trans ((red_natModEq _ _).mul hR)⟩

end Sys2Proof.Machine
end

section
/-! The commands of class curve on one or two points, and affine_point_add_double_unit's loads and conversions (60_exceptions.md R253,
R254; 44_affine.md R193 to R195, R198, R199). -/

namespace Sys2Proof.Machine

/-! ### The encoding clause, for the format of one point register -/

/-- An opcode whose words the decoder of format P1 reads as `c`. -/
theorem encodedAs_P1 {opc : BitVec 8} {c : PReg → Instr} (hfmt : formatOf opc = some .P1)
    (hdec : ∀ w, opcOf w = opc → decode w = decodeP1 w c) : EncodedAs opc .P1 (fun rd _ _ _ => c rd) :=
  encodedAs_of_decode_ok hfmt fun w i hopc hi => by
    obtain ⟨-, -, -, -, hc⟩ := decodeP1_ok.1 (hdec w hopc ▸ hi)
    exact hc

/-! ### The three ends of the configuration check of class curve -/

/-- With FIELD_OK = 1 and VTYPE = 1, class curve stops at MONT_OK = 0. -/
theorem requireConfig_curve_of_not_montOk {s : State} (hf : s.fieldOk = true) (hv : s.vtype = true) (hm : s.montOk = false) :
    requireConfig .curve s = .error .montNotConfigured :=
  requireConfig_error.2 (.inr ⟨hf, hm, .inr ⟨rfl, hv⟩, rfl⟩)

/-- Class curve asks for FIELD_OK, and for MONT_OK when VTYPE is 1. -/
theorem State.CurveReady.requireConfig_eq_ok {s : State} (h : s.CurveReady) : requireConfig .curve s = .ok () :=
  let ⟨hfield, hmont⟩ := h
  requireConfig_ok.2 ⟨fun _ => hfield.1, nofun, fun _ hv => (hmont hv).1⟩

/-- A command that begins with the check of class curve needs the curve, whatever it computes after the check. -/
theorem needsCurve_of_requireConfig {i : Instr} {rest : State → Except StatusCode State}
    (hexec : ∀ s, exec i s = finish s (requireConfig .curve s >>= fun _ => rest s)) : NeedsCurve i := by
  refine ⟨needsField_of_requireConfig (c := .curve) nofun hexec, fun s hf hv hm => ?_⟩
  rw [hexec, requireConfig_curve_of_not_montOk hf hv hm, error_bind, finish_error]
  rfl

/-! ### The end of a command that computes a point: one point written, or one code raised -/

/-- The state in which an affine result is written is a write and the completion. -/
theorem wroteAff_eq_complete (s : State) (d : Fin 4) (r : Affine) : wroteAff s d r = (s.writeAff d r).complete := by
  cases r <;> rfl

section
variable {s : State} (h : s.CurveReady) (d : Fin 4)
include h

theorem finish_writeAff_of_ok {x : Except StatusCode Affine} {r : Affine} (hx : x = .ok r) :
    finish s (requireConfig .curve s >>= fun _ => x >>= fun r => pure (s.writeAff d r)) = .next (wroteAff s d r) := by
  rw [h.requireConfig_eq_ok, ok_bind, hx, ok_bind, pure_eq_ok, finish_ok, wroteAff_eq_complete]

theorem finish_writeAff_of_error {x : Except StatusCode Affine} {c : StatusCode} (hx : x = .error c) :
    finish s (requireConfig .curve s >>= fun _ => x >>= fun r => pure (s.writeAff d r)) = .next (failed s c) := by
  rw [h.requireConfig_eq_ok, ok_bind, hx, error_bind, finish_error]
  rfl

theorem finish_writeJac_of_curveReady (J : Jacobian) :
    finish s (requireConfig .curve s >>= fun _ => pure (s.writeJac d J)) = .next (wroteP s d J.x J.y J.z false) := by
  rw [h.requireConfig_eq_ok, ok_bind, pure_eq_ok, finish_ok, State.writeJac, wroteP_eq_complete]

end

/-! ### The commands on the numbers of point registers: what is left of them is the check of class curve and the result -/

theorem exec_ainf_pnum (s : State) (d : Fin 4) :
    exec (.ainf (pnum d)) s = finish s (requireConfig .curve s >>= fun _ => pure (s.writeAff d .inf)) := by
  simp only [exec, execAinf, pointNumber_pnum, ok_bind]

theorem exec_agen_pnum (s : State) (d : Fin 4) :
    exec (.agen (pnum d)) s = finish s (requireConfig .curve s >>= fun _ => pure (s.writeAff d s.generator)) := by
  simp only [exec, execAgen, pointNumber_pnum, ok_bind]

theorem exec_atoj_pnum (s : State) (d a : Fin 4) :
    exec (.atoj (pnum d) (pnum a)) s =
      finish s (requireConfig .curve s >>= fun _ => pure (s.writeJac d (toJac s.curve (s.readAff a)))) := by
  simp only [exec, execAtoj, pointNumber_pnum, ok_bind]

theorem exec_jtoa_pnum (s : State) (d a : Fin 4) :
    exec (.jtoa (pnum d) (pnum a)) s =
      finish s (requireConfig .curve s >>= fun _ => toAff s.curve (s.readJac a) >>= fun r => pure (s.writeAff d r)) := by
  simp only [exec, execJtoa, pointNumber_pnum, ok_bind]

/-! ### The affine form of a Jacobian value (44_affine.md R193) -/

section
variable {D : Domain} {J : Jacobian}

theorem toAff_of_z_eq_zero (hz : J.z = 0) : toAff D J = .ok .inf := if_pos hz

theorem toAff_of_not_coprime (hM : 1 < D.M) (hz : J.z ≠ 0) (hg : Nat.gcd J.z D.M ≠ 1) : toAff D J = .error .notInvertible := by
  rw [toAff, if_neg hz, divD_eq_error.2 (modInv_of_not_coprime hz hM hg), error_bind]

/-- The one inversion is `one_d / Z`; its square and its cube scale `X` and `Y`. -/
theorem toAff_of_divD {zi : Nat} (hz : J.z ≠ 0) (hzi : divD D (oneD D) J.z = .ok zi) :
    toAff D J = .ok (.pt (mulD D J.x (mulD D zi zi)) (mulD D J.y (mulD D (mulD D zi zi) zi))) := by
  rw [toAff, if_neg hz, hzi, ok_bind, pure_eq_ok]

/-- A `Z` without a common factor with `M` has an affine form, the canonical `(X/Z², Y/Z³)` on logical values. -/
theorem toAff_of_coprime (hD : D.Usable) (hz : J.z < D.M) (hg : Nat.gcd J.z D.M = 1) :
    ∃ x y, toAff D J = .ok (.pt x y) ∧ x < D.M ∧ y < D.M ∧
      logical D x * logical D J.z ^ 2 = logical D J.x ∧ logical D y * logical D J.z ^ 3 = logical D J.y := by
  have hM : 1 < D.M := hD.1
  have hM0 : 0 < D.M := by omega
  have hz0 : J.z ≠ 0 := fun h0 => by
    rw [h0, Nat.gcd_zero_left] at hg
    omega
  obtain ⟨i, hi, -⟩ := modInv_of_coprime hM hz hg
  obtain ⟨zi, hzi, -⟩ := divD_of_modInv (oneD D) hi
  have hinv : logical D zi * logical D J.z = 1 := (logical_divD hD hz hzi).2.trans (logical_oneD hD)
  have hscale (c n : Nat) : logical D c * logical D zi ^ n * logical D J.z ^ n = logical D c := by
    rw [mul_assoc, ← mul_pow, hinv, one_pow, mul_one]
  refine ⟨_, _, toAff_of_divD hz0 hzi, mulD_lt hM0 _ _, mulD_lt hM0 _ _, ?_, ?_⟩
  · rw [logical_mulD, logical_mulD, ← sq]
    exact hscale J.x 2
  · rw [logical_mulD, logical_mulD, logical_mulD, ← sq, ← pow_succ]
    exact hscale J.y 3

end

/-! ### The commands with the curve configured (44_affine.md R194, R195, R198, R199) -/

section
variable {s : State} (h : s.CurveReady) (d : Fin 4)
include h

theorem exec_ainf : exec (.ainf (pnum d)) s = .next (wroteP s d 0 0 0 true) :=
  (exec_ainf_pnum s d).trans (finish_writeAff_of_ok h d (x := .ok .inf) rfl)

theorem exec_agen : exec (.agen (pnum d)) s = .next (wroteP s d (s.curveGx.toNat % s.M) (s.curveGy.toNat % s.M) 0 false) :=
  (exec_agen_pnum s d).trans (finish_writeAff_of_ok h d (x := .ok s.generator) rfl)

/-- ATOJ writes the Jacobian form of the operand's affine view. -/
theorem exec_atoj (a : Fin 4) :
    exec (.atoj (pnum d) (pnum a)) s =
      let J := toJac s.curve (s.readAff a)
      .next (wroteP s d J.x J.y J.z false) :=
  (exec_atoj_pnum s d a).trans (finish_writeJac_of_curveReady h d _)

/-- JTOA writes the affine form of the operand's Jacobian view. -/
theorem exec_jtoa_of_ok {a : Fin 4} {r : Affine} (hr : toAff s.curve (s.readJac a) = .ok r) :
    exec (.jtoa (pnum d) (pnum a)) s = .next (wroteAff s d r) :=
  (exec_jtoa_pnum s d a).trans (finish_writeAff_of_ok h d hr)

theorem exec_jtoa_of_error {a : Fin 4} {c : StatusCode} (hc : toAff s.curve (s.readJac a) = .error c) :
    exec (.jtoa (pnum d) (pnum a)) s = .next (failed s c) :=
  (exec_jtoa_pnum s d a).trans (finish_writeAff_of_error h d hc)

end

/-! ### The statements -/

/-- Settles O51: the affine form of the Jacobian view, whose `Z` is reduced, which changes no common factor with `M`. -/
theorem jtoaDividesByPowersOfZ : Obligations.JtoaDividesByPowersOfZ := by
  refine ⟨encodedAs_P2 rfl fun w hopc => by simp only [decode, hopc],
    fun d a => needsCurve_of_requireConfig fun s => exec_jtoa_pnum s d a,
    fun s d a h => ⟨fun h0 => ?_, fun h0 hg => ?_, fun hg => ?_⟩⟩
  · exact exec_jtoa_of_ok h d (toAff_of_z_eq_zero h0)
  · have hshared : Nat.gcd (s.readJac a).z s.M ≠ 1 := (gcd_red s.M (s.PZ a)).trans_ne hg
    exact exec_jtoa_of_error h d (toAff_of_not_coprime h.usable.1 h0 hshared)
  · obtain ⟨-, -, hz⟩ := h.readJac_canonical a
    obtain ⟨x, y, hr, hrest⟩ := toAff_of_coprime h.usable hz ((gcd_red s.M (s.PZ a)).trans hg)
    exact ⟨x, y, exec_jtoa_of_ok h d hr, hrest⟩

/-- Settles O46: both commands write an affine value that needs no computation, infinity or the reduced generator. -/
theorem ainfAgenLoadPoints : Obligations.AinfAgenLoadPoints :=
  ⟨encodedAs_P1 rfl fun w hopc => by simp only [decode, hopc],
    encodedAs_P1 rfl fun w hopc => by simp only [decode, hopc],
    fun d => ⟨needsCurve_of_requireConfig fun s => exec_ainf_pnum s d, needsCurve_of_requireConfig fun s => exec_agen_pnum s d⟩,
    fun _ d h => ⟨exec_ainf h d, exec_agen h d⟩⟩

/-- Settles O50: the operand's tag decides its affine view, and `Z` is `one_d` of the curve's domain in both cases. -/
theorem atojWritesUnitZ : Obligations.AtojWritesUnitZ := by
  refine ⟨encodedAs_P2 rfl fun w hopc => by simp only [decode, hopc],
    fun d a => needsCurve_of_requireConfig fun s => exec_atoj_pnum s d a, fun s d a h => ?_⟩
  dsimp only
  rw [exec_atoj h d a, State.readAff]
  cases hinf : s.PINF a
  case true => rfl
  case false => rfl

end Sys2Proof.Machine
end

section
/-! jacobian_point_add_double_unit's load of the conventional infinity (45_jacobian.md R217). -/

namespace Sys2Proof.Machine

theorem exec_jinf_pnum (s : State) (d : Fin 4) :
    exec (.jinf (pnum d)) s = finish s (requireConfig .curve s >>= fun _ => pure (s.writeJac d (jacInf s.curve))) := by
  simp only [exec, execJinf, pointNumber_pnum, ok_bind]

/-- `one_d` of the curve's domain (42_multiplier.md R144): VTYPE picks the domain, whose `R'` is RCONST reduced. -/
theorem oneD_curve (s : State) : oneD s.curve = if s.vtype = true then s.rconst.toNat % s.M else 1 := rfl

/-- JINF writes the triple of `JInf_d` in the curve's domain, with the infinity tag 0. -/
theorem exec_jinf {s : State} (h : s.CurveReady) (d : Fin 4) :
    exec (.jinf (pnum d)) s = .next (wroteP s d 0 (oneD s.curve) 0 false) :=
  (exec_jinf_pnum s d).trans (finish_writeJac_of_curveReady h d (jacInf s.curve))

/-- Settles O53: `JInf_d` needs no computation, and its `Y` is `one_d` of the curve's domain. -/
theorem jinfWritesConventionalInfinity : Obligations.JinfWritesConventionalInfinity := by
  refine ⟨encodedAs_P1 rfl fun w hopc => by simp only [decode, hopc],
    fun d => needsCurve_of_requireConfig fun s => exec_jinf_pnum s d, fun s d h => ?_⟩
  rw [← oneD_curve]
  exact exec_jinf h d

end Sys2Proof.Machine
end

section
/-! The end of a command that fails, and the code the host reads from STATUS (60_exceptions.md R250). -/

namespace Sys2Proof.Machine

/-! ### The code in the STATUS word (20_memory.md R63) -/

/-- A code fits in the four bits of ERR. -/
theorem StatusCode.code_lt (c : StatusCode) : c.code < 2 ^ 4 := by
  cases c <;> decide

/-- The code's four bits lie above BUSY and below the flags. -/
theorem bitField_statusWord_err (s : State) : bitField s.statusWord 7 4 = s.err.code := by
  have hbusy := s.busy.toNat_lt
  have hcode := s.err.code_lt
  simp only [bitField, State.statusWord, Nat.shiftRight_eq_div_pow]
  omega

theorem statusWord_lt (s : State) : s.statusWord < 2 ^ 32 := by
  have hbusy := s.busy.toNat_lt
  have hcode := s.err.code_lt
  have hsticky := s.sticky.toNat_lt
  have hfield := s.fieldOk.toNat_lt
  have hmont := s.montOk.toNat_lt
  have hbusyWr := s.busyWr.toNat_lt
  simp only [State.statusWord]
  omega

/-- STATUS is no destination of any command, so a read of it is never free. -/
theorem readIsFree_status (s : State) : s.readIsFree 0x51#8 = false := by
  unfold State.readIsFree
  split <;> rfl

/-- Idle or busy, a read of STATUS returns the STATUS word, which fits in either operand width. -/
theorem hostReadValue_status (s : State) : (hostReadValue 0x51#8 s).toNat = s.statusWord := by
  have hlt : s.statusWord < 2 ^ s.width.bits :=
    (statusWord_lt s).trans_le (Nat.pow_le_pow_right (by decide) (thirtyTwo_le_bits s.width))
  rw [hostReadValue, readIsFree_status]
  exact (BitVec.toNat_ofNat ..).trans (Nat.mod_eq_of_lt hlt)

/-! ### The ends with an error -/

/-- Of the ends of a command only CFGCOMMIT's rejection and a raised error leave an error code, and neither writes a destination. -/
theorem Ends.eq_of_err {i : Instr} {s t : State} (h : Ends i s t) (herr : t.err ≠ .noError) :
    t = { s with err := t.err, sticky := true, inflight := none, delay := 0, fieldOk := t.fieldOk, montOk := t.montOk } := by
  cases h with
  | reject | error => rfl
  | nop | commit | field | point => exact absurd rfl herr

/-- Only CFGCOMMIT validates the configuration. -/
theorem Ends.flags_eq {i : Instr} {s t : State} (h : Ends i s t) (hi : i ≠ .cfgcommit) :
    t.fieldOk = s.fieldOk ∧ t.montOk = s.montOk := by
  cases h with
  | commit hc | reject hc => exact absurd hc hi
  | nop | error | field | point => exact ⟨rfl, rfl⟩

/-- Settles O24: the two ends with an error are whole states, and the code is a field of the STATUS word the host reads. -/
theorem failingCommandWritesNothing : Obligations.FailingCommandWritesNothing := by
  intro i s t hexec herr
  have hends : Ends i s t := exec_ends hexec
  refine ⟨hends.eq_of_err herr, hends.flags_eq, ?_⟩
  rw [hostReadValue_status]
  exact bitField_statusWord_err t

end Sys2Proof.Machine
end

section
/-! Encoding and decoding are inverse, and the reserved opcodes (30_encoding.md R80 to R86). -/

namespace Sys2Proof

/-! ### Decoding the word of a command -/

/-- The decoder of the command's format finds the operands in their fields, and the checks it makes are those of `wf`. -/
theorem decode_encode {i : Instr} (hwf : i.wf = true) : decode (encode i) = .ok i := by
  cases i
  all_goals simp only [encode, decode, opcOf_commandWord]
  case nop | cfgcommit => exact decodeN_ok.2 (by simp)
  case fzero | fone | mone => exact decodeF1_ok.2 (by simp)
  case fmov | fneg | fred | fsqr | msqr | tomont | frommont | finv | minv => exact decodeF2_ok.2 (by simp)
  case fadd | fsub | fmul | fpow | mmul | mpow | fdiv | mdiv => exact decodeF3_ok.2 (by simp)
  case fmuli => exact decodeFI_ok.2 (by simp)
  case ainf | agen | jinf => exact decodeP1_ok.2 (by simpa [Instr.wf] using hwf)
  case pmov | adbl | atoj | jtoa | jdbl => exact decodeP2_ok.2 (by simpa [Instr.wf] using hwf)
  case aadd | jadd => exact decodeP3_ok.2 (by simpa [Instr.wf, and_assoc] using hwf)
  case amul | jmul => exact decodePK_ok.2 (by simpa [Instr.wf] using hwf)

/-! ### The word of a decoded command -/

/-- A word is known by its five fields. -/
theorem commandWord_eq_of_fields {w : BitVec 32} {opc : BitVec 8} {rd ra rb : Fin 16} {imm : Imm} (hopc : opcOf w = opc)
    (hrd : rdOf w = rd) (hra : raOf w = ra) (hrb : rbOf w = rb) (himm : immOf w = imm) : commandWord opc rd ra rb imm = w := by
  rw [← hopc, ← hrd, ← hra, ← hrb, ← himm, commandWord_fields]

/-- What is to show of a word that decodes to `i`. -/
abbrev IsWordOf (w : BitVec 32) (i : Instr) : Prop := i.wf = true ∧ encode i = w

section
variable {w : BitVec 32} {opc : BitVec 8} {i : Instr} (hopc : opcOf w = opc)
include hopc

theorem isWordOf_of_decodeN {k : Instr} (h : decodeN w k = .ok i) (hwf : k.wf = true) (hk : encode k = commandWord opc 0 0 0 0) :
    IsWordOf w i := by
  obtain ⟨hrd, hra, hrb, himm, rfl⟩ := decodeN_ok.1 h
  exact ⟨hwf, hk.trans (commandWord_eq_of_fields hopc hrd hra hrb himm)⟩

theorem isWordOf_of_decodeF1 {k : FReg → Instr} (h : decodeF1 w k = .ok i) (hwf : ∀ rd, (k rd).wf = true)
    (hk : ∀ rd, encode (k rd) = commandWord opc rd 0 0 0) : IsWordOf w i := by
  obtain ⟨hra, hrb, himm, rfl⟩ := decodeF1_ok.1 h
  exact ⟨hwf _, (hk _).trans (commandWord_eq_of_fields hopc rfl hra hrb himm)⟩

theorem isWordOf_of_decodeF2 {k : FReg → FReg → Instr} (h : decodeF2 w k = .ok i) (hwf : ∀ rd ra, (k rd ra).wf = true)
    (hk : ∀ rd ra, encode (k rd ra) = commandWord opc rd ra 0 0) : IsWordOf w i := by
  obtain ⟨hrb, himm, rfl⟩ := decodeF2_ok.1 h
  exact ⟨hwf _ _, (hk _ _).trans (commandWord_eq_of_fields hopc rfl rfl hrb himm)⟩

theorem isWordOf_of_decodeF3 {k : FReg → FReg → FReg → Instr} (h : decodeF3 w k = .ok i)
    (hwf : ∀ rd ra rb, (k rd ra rb).wf = true) (hk : ∀ rd ra rb, encode (k rd ra rb) = commandWord opc rd ra rb 0) :
    IsWordOf w i := by
  obtain ⟨himm, rfl⟩ := decodeF3_ok.1 h
  exact ⟨hwf _ _ _, (hk _ _ _).trans (commandWord_eq_of_fields hopc rfl rfl rfl himm)⟩

theorem isWordOf_of_decodeFI {k : FReg → FReg → Imm → Instr} (h : decodeFI w k = .ok i)
    (hwf : ∀ rd ra imm, (k rd ra imm).wf = true) (hk : ∀ rd ra imm, encode (k rd ra imm) = commandWord opc rd ra 0 imm) :
    IsWordOf w i := by
  obtain ⟨hrb, rfl⟩ := decodeFI_ok.1 h
  exact ⟨hwf _ _ _, (hk _ _ _).trans (commandWord_eq_of_fields hopc rfl rfl hrb rfl)⟩

theorem isWordOf_of_decodeP1 {k : PReg → Instr} (h : decodeP1 w k = .ok i) (hwf : ∀ rd, (k rd).wf = legalPoint rd)
    (hk : ∀ rd, encode (k rd) = commandWord opc rd 0 0 0) : IsWordOf w i := by
  obtain ⟨hd, hra, hrb, himm, rfl⟩ := decodeP1_ok.1 h
  exact ⟨(hwf _).trans hd, (hk _).trans (commandWord_eq_of_fields hopc rfl hra hrb himm)⟩

theorem isWordOf_of_decodeP2 {k : PReg → PReg → Instr} (h : decodeP2 w k = .ok i)
    (hwf : ∀ rd ra, (k rd ra).wf = (legalPoint rd && legalPoint ra)) (hk : ∀ rd ra, encode (k rd ra) = commandWord opc rd ra 0 0) :
    IsWordOf w i := by
  obtain ⟨hd, ha, hrb, himm, rfl⟩ := decodeP2_ok.1 h
  exact ⟨by rw [hwf, hd, ha, Bool.and_true], (hk _ _).trans (commandWord_eq_of_fields hopc rfl rfl hrb himm)⟩

theorem isWordOf_of_decodeP3 {k : PReg → PReg → PReg → Instr} (h : decodeP3 w k = .ok i)
    (hwf : ∀ rd ra rb, (k rd ra rb).wf = (legalPoint rd && legalPoint ra && legalPoint rb))
    (hk : ∀ rd ra rb, encode (k rd ra rb) = commandWord opc rd ra rb 0) : IsWordOf w i := by
  obtain ⟨hd, ha, hb, himm, rfl⟩ := decodeP3_ok.1 h
  exact ⟨by rw [hwf, hd, ha, hb, Bool.and_true, Bool.and_true], (hk _ _ _).trans (commandWord_eq_of_fields hopc rfl rfl rfl himm)⟩

theorem isWordOf_of_decodePK {k : PReg → PReg → FReg → Instr} (h : decodePK w k = .ok i)
    (hwf : ∀ rd ra rb, (k rd ra rb).wf = (legalPoint rd && legalPoint ra))
    (hk : ∀ rd ra rb, encode (k rd ra rb) = commandWord opc rd ra rb 0) : IsWordOf w i := by
  obtain ⟨hd, ha, himm, rfl⟩ := decodePK_ok.1 h
  exact ⟨by rw [hwf, hd, ha, Bool.and_true], (hk _ _ _).trans (commandWord_eq_of_fields hopc rfl rfl rfl himm)⟩

end

theorem isWordOf_of_decode {w : BitVec 32} {i : Instr} (h : decode w = .ok i) : IsWordOf w i := by
  unfold decode at h
  split at h
  case h_1 hopc | h_2 hopc => exact isWordOf_of_decodeN hopc h rfl rfl
  case h_9 hopc | h_10 hopc | h_19 hopc => exact isWordOf_of_decodeF1 hopc h (fun _ => rfl) (fun _ => rfl)
  case h_3 hopc | h_7 hopc | h_8 hopc | h_12 hopc | h_16 hopc | h_17 hopc | h_18 hopc | h_21 hopc | h_23 hopc =>
    exact isWordOf_of_decodeF2 hopc h (fun _ _ => rfl) (fun _ _ => rfl)
  case h_5 hopc | h_6 hopc | h_11 hopc | h_14 hopc | h_15 hopc | h_20 hopc | h_22 hopc | h_24 hopc =>
    exact isWordOf_of_decodeF3 hopc h (fun _ _ _ => rfl) (fun _ _ _ => rfl)
  case h_13 hopc => exact isWordOf_of_decodeFI hopc h (fun _ _ _ => rfl) (fun _ _ _ => rfl)
  case h_25 hopc | h_26 hopc | h_31 hopc => exact isWordOf_of_decodeP1 hopc h (fun _ => rfl) (fun _ => rfl)
  case h_4 hopc | h_28 hopc | h_29 hopc | h_30 hopc | h_33 hopc =>
    exact isWordOf_of_decodeP2 hopc h (fun _ _ => rfl) (fun _ _ => rfl)
  case h_27 hopc | h_32 hopc => exact isWordOf_of_decodeP3 hopc h (fun _ _ _ => rfl) (fun _ _ _ => rfl)
  case h_34 hopc | h_35 hopc => exact isWordOf_of_decodePK hopc h (fun _ _ _ => rfl) (fun _ _ _ => rfl)
  case h_36 => cases h

/-! ### The statements -/

/-- Settles O2, by the formats: each one's decoder reads back the fields its commands were written to. -/
theorem decodeOfEncode : Obligations.DecodeOfEncode := fun _ => decode_encode

/-- Settles O3, by the arms of the decoder: each one's checks fix every field of the word. -/
theorem encodeOfDecode : Obligations.EncodeOfDecode := fun _ _ => isWordOf_of_decode

end Sys2Proof

namespace Sys2Proof.Machine

/-! ### The engine's turn -/

/-- On the engine's turn the step is the engine's, on the word in flight. -/
theorem step_of_engineTurn {s : State} {w : BitVec 32} (hw : s.inflight = some w) (hturn : s.engineTurn = true) :
    step s = engineStep w s := by
  rw [step, hw]
  exact if_pos hturn

/-- The count of reserved opcodes: 256 less the 35 of the opcode map. -/
theorem reserved_count : ((List.range 256).filter fun n => (formatOf (BitVec.ofNat 8 n)).isNone).length = 221 := by
  decide +kernel

/-- Settles O5: a count over the opcode map, and a word without a format is not legal. -/
theorem reservedOpcodesAreIllegal : Obligations.ReservedOpcodesAreIllegal := by
  refine ⟨reserved_count, fun w s hreserved hw hturn => ?_⟩
  rw [step_of_engineTurn hw hturn]
  exact engineStep_of_not_legal (not_legal_of_reserved hreserved) s

end Sys2Proof.Machine
end

section
/-! A step: the command in flight or the host's next transaction, its totality, and the invariant (20_memory.md R68;
70_reset_and_hazards.md R285; 00_scope.md R19; 10_state.md R33 to R36). -/

namespace Sys2Proof.Machine

/-! ### Whose step it is -/

theorem engineTurn_eq_true {s : State} : s.engineTurn = true ↔ s.delay = 0 ∨ s.hostOps = [] := by
  simp [State.engineTurn]

/-- The step is the host's when no command is in flight or it is not the engine's turn. -/
theorem step_of_hostTurn {s : State} (h : s.inflight = none ∨ s.engineTurn = false) : step s = .next (hostStep s) := by
  rw [step]
  cases hw : s.inflight with
  | none => rfl
  | some w =>
    have hturn : s.engineTurn = false := h.resolve_left (by simp [hw])
    simp [hturn]

/-- Every step is the engine's on a word in flight, or the host's. -/
theorem step_cases {s t : State} (h : step s = .next t) :
    (∃ w, s.inflight = some w ∧ engineStep w s = .next t) ∨ t = hostStep s := by
  cases hw : s.inflight with
  | none =>
    rw [step_of_hostTurn (.inl hw)] at h
    exact .inr (Host.Outcome.next.inj h).symm
  | some w =>
    cases hturn : s.engineTurn with
    | true => exact .inl ⟨w, rfl, step_of_engineTurn hw hturn ▸ h⟩
    | false =>
      rw [step_of_hostTurn (.inr hturn)] at h
      exact .inr (Host.Outcome.next.inj h).symm

/-- The host's next transaction, when it has one. -/
theorem hostStep_cons {s : State} {op : HostOp} {rest : List HostOp} (h : s.hostOps = op :: rest) :
    hostStep s = hostTransaction op { s with hostOps := rest, delay := s.delay - 1 } := by
  rw [hostStep, h]

theorem hostStep_nil {s : State} (h : s.hostOps = []) : hostStep s = s := by
  rw [hostStep, h]

/-- With a transaction to come, it is performed while no command is in flight or its latency is not over. -/
theorem step_of_hostOps_cons {s : State} {op : HostOp} {rest : List HostOp} (h : s.inflight = none ∨ s.delay ≠ 0)
    (hops : s.hostOps = op :: rest) :
    step s = .next (hostTransaction op { s with hostOps := rest, delay := s.delay - 1 }) := by
  have hturn : s.inflight = none ∨ s.engineTurn = false := h.imp_right fun hd => by simp [State.engineTurn, hd, hops]
  rw [step_of_hostTurn hturn, hostStep_cons hops]

/-- Settles O7: the step's two branches, with the engine's turn read as a latency over or a host with nothing left. -/
theorem stepRunsCommandInFlight : Obligations.StepRunsCommandInFlight := by
  refine ⟨fun s w i hw hturn hdec => ?_, fun s op rest => step_of_hostOps_cons, fun s hidle hops => ?_⟩
  · rw [step_of_engineTurn hw (engineTurn_eq_true.2 hturn), engineStep, hdec]
  · rw [step_of_hostTurn (.inl hidle), hostStep_nil hops]

/-! ### Every command and every step answers a next state -/

theorem finish_answers (s : State) (r : Except StatusCode State) : ∃ t, finish s r = .next t := by
  cases r with
  | ok u => exact ⟨_, finish_ok s u⟩
  | error c => exact ⟨_, finish_error s c⟩

/-- Every meaning is the end of a chain of checks. -/
theorem exec_answers (i : Instr) (s : State) : ∃ t, exec i s = .next t := by
  cases i
  case nop | fmov => exact ⟨_, rfl⟩
  all_goals exact finish_answers _ _

theorem engineStep_answers (w : BitVec 32) (s : State) : ∃ t, engineStep w s = .next t := by
  rw [engineStep]
  split
  · exact finish_answers s _
  · exact exec_answers _ s

theorem Ends.inflight_eq {i : Instr} {s t : State} (h : Ends i s t) : t.inflight = none := by
  cases h <;> rfl

theorem engineStep_inflight {w : BitVec 32} {s t : State} (h : engineStep w s = .next t) : t.inflight = none := by
  obtain rfl | ⟨i, -, hi⟩ := engineStep_ends h
  · rfl
  · exact hi.inflight_eq

/-- Settles O8: a chain of checks ends in a next state whether it answers or fails, and every end of a command is idle. -/
theorem everyStepAnswersNext : Obligations.EveryStepAnswersNext := by
  refine ⟨fun w s => ?_, fun i s => ?_, fun s => ?_⟩
  · obtain ⟨t, ht⟩ := engineStep_answers w s
    exact ⟨t, ht, engineStep_inflight ht⟩
  · obtain ⟨t, ht⟩ := exec_answers i s
    exact ⟨t, ht, (exec_ends ht).inflight_eq⟩
  · cases hw : s.inflight with
    | none => exact ⟨_, step_of_hostTurn (.inl hw)⟩
    | some w =>
      cases hturn : s.engineTurn with
      | true => exact step_of_engineTurn hw hturn ▸ engineStep_answers w s
      | false => exact ⟨_, step_of_hostTurn (.inr hturn)⟩

/-! ### The invariant under the engine's step -/

/-- CFGCOMMIT's flags tell the truth, whatever the outcome. -/
theorem configSound_of_commit {s t : State} (hM : t.M = s.M) (hR : t.R' = s.R') (hRI : t.RI' = s.RI')
    (hfield : t.fieldOk = s.fieldUsable) (hmont : t.montOk = s.montUsable) : t.ConfigSound := by
  simp_all [State.ConfigSound, State.montUsable, State.fieldUsable]

/-- No other command writes the configuration or its flags. -/
theorem Ends.configSound {i : Instr} {s t : State} (h : Ends i s t) (hs : s.ConfigSound) : t.ConfigSound := by
  cases h with
  | commit | reject => exact configSound_of_commit (s := s) rfl rfl rfl rfl rfl
  | nop | error | field | point => exact hs

/-- Every command ends idle with no completion awaited. -/
theorem Ends.flightSound {i : Instr} {s t : State} (h : Ends i s t) : t.FlightSound := by
  cases h <;> exact .inl ⟨rfl, rfl⟩

theorem Ends.width_eq {i : Instr} {s t : State} (h : Ends i s t) : t.width = s.width := by
  cases h <;> rfl

theorem engineStep_keeps_inv {w : BitVec 32} {s t : State} (h : engineStep w s = .next t) (hs : s.Inv) :
    t.Inv ∧ t.width = s.width := by
  obtain ⟨hconfig, -⟩ := hs
  obtain rfl | ⟨i, -, hi⟩ := engineStep_ends h
  · exact ⟨⟨hconfig, .inl ⟨rfl, rfl⟩⟩, rfl⟩
  · exact ⟨⟨hi.configSound hconfig, hi.flightSound⟩, hi.width_eq⟩

/-! ### The invariant under the host's step -/

theorem resetAt_inv (w : Width) (d : Nat) (ops : List HostOp) (reads : List HostRead) : (State.resetAt w d ops reads).Inv :=
  ⟨⟨nofun, nofun⟩, .inl ⟨rfl, rfl⟩⟩

/-- `s` with other values of BUSYWR and of the model's own fields. -/
def State.withHostSide (s : State) (b : Bool) (n d : Nat) (r : List HostRead) (o : List HostOp) : State :=
  { s with busyWr := b, draws := n, delay := d, hostReads := r, hostOps := o }

/-- None of them is part of the invariant but the latency, which is 0 while idle. -/
theorem State.Inv.withHostSide {s : State} (h : s.Inv) {b : Bool} {n d : Nat} {r : List HostRead} {o : List HostOp}
    (hd : s.inflight = none → d = 0) : (s.withHostSide b n d r o).Inv := by
  obtain ⟨hconfig, ⟨hidle, -⟩ | hbusy⟩ := h
  · exact ⟨hconfig, .inl ⟨hidle, hd hidle⟩⟩
  · exact ⟨hconfig, .inr hbusy⟩

/-- An idle write clears the flags with the field descriptor, puts a word in flight with ERR 0, or touches neither. -/
theorem hostWriteIdle_inv {s : State} (h : s.Inv) (v : Word s.width) (i : Index) : (hostWriteIdle s v i).Inv := by
  obtain ⟨hconfig, hflight⟩ := h
  cases i with
  | modulus | rconst | rinv => exact ⟨⟨nofun, nofun⟩, hflight⟩
  | cmd => exact ⟨hconfig, .inr ⟨rfl, rfl⟩⟩
  | point i f => cases f <;> exact ⟨hconfig, hflight⟩
  | field | curveA | curveGx | curveGy | ctrl | status | unmapped => exact ⟨hconfig, hflight⟩

theorem hostWriteIdle_width (s : State) (v : Word s.width) (i : Index) : (hostWriteIdle s v i).width = s.width := by
  cases i with
  | point i f => cases f <;> rfl
  | _ => rfl

theorem hostWrite_keeps_inv {s : State} (h : s.Inv) (idx : BitVec 8) (v : Nat) :
    (hostWrite idx v s).Inv ∧ (hostWrite idx v s).width = s.width := by
  by_cases hidle : s.inflight = none
  · rw [hostWrite_idle hidle]
    exact ⟨hostWriteIdle_inv h _ _, hostWriteIdle_width s _ _⟩
  · rw [hostWrite_busy hidle]
    exact ⟨h.withHostSide fun hn => absurd hn hidle, rfl⟩

/-- While idle the invariant has no completion awaited. -/
theorem State.Inv.delay_eq_zero {s : State} (h : s.Inv) (hidle : s.inflight = none) : s.delay = 0 := by
  obtain ⟨-, ⟨-, hd⟩ | ⟨hbusy, -⟩⟩ := h
  · exact hd
  · rw [hidle] at hbusy
    cases hbusy

theorem hostTransaction_keeps_inv {s : State} (h : s.Inv) (op : HostOp) :
    (hostTransaction op s).Inv ∧ (hostTransaction op s).width = s.width := by
  cases op with
  | read idx => exact ⟨h.withHostSide h.delay_eq_zero, rfl⟩
  | write idx v => exact hostWrite_keeps_inv h idx v
  | wait =>
    rw [hostTransaction]
    split <;> exact ⟨h.withHostSide h.delay_eq_zero, rfl⟩
  | reset => exact ⟨resetAt_inv _ _ _ _, rfl⟩

theorem hostStep_keeps_inv {s : State} (h : s.Inv) : (hostStep s).Inv ∧ (hostStep s).width = s.width := by
  cases hops : s.hostOps with
  | nil => rw [hostStep_nil hops]; exact ⟨h, rfl⟩
  | cons op rest =>
    rw [hostStep_cons hops]
    exact hostTransaction_keeps_inv
      (h.withHostSide (b := s.busyWr) (n := s.draws) (r := s.hostReads) fun hidle => by rw [h.delay_eq_zero hidle]) op

/-! ### The statements -/

/-- Settles O9: the engine's step by the ends of a command, the host's by its four transactions. -/
theorem stepKeepsInvariant : Obligations.StepKeepsInvariant := by
  intro s t hs hstep
  obtain ⟨w, -, hengine⟩ | rfl := step_cases hstep
  · exact engineStep_keeps_inv hengine hs
  · exact hostStep_keeps_inv hs

/-- Settles O10: after a reset both flags are 0 and nothing is in flight. -/
theorem resetEstablishesInvariant : Obligations.ResetEstablishesInvariant :=
  ⟨resetAt_inv _ _ _ _, resetAt_inv⟩

end Sys2Proof.Machine
end

section
/-! The STATUS register, acceptance of a command and reset (10_state.md R31, R33, R37; 70_reset_and_hazards.md R270, R286). -/

namespace Sys2Proof.Machine

/-! ### The bits of STATUS (20_memory.md R63) -/

theorem testBit_of_div_mod {v k : Nat} {b : Bool} (h : v / 2 ^ k % 2 = b.toNat) : v.testBit k = b := by
  rw [Nat.testBit_eq_decide_div_mod_eq, h]
  cases b <;> rfl

/-- BUSY, the lowest bit, is read off by the parity. -/
theorem statusWord_mod_two (s : State) : s.statusWord % 2 = s.busy.toNat := by
  have hbusy := s.busy.toNat_lt
  simp only [State.statusWord]
  omega

/-- Each flag stands at its bit, and the reserved bits are 0. -/
theorem statusWord_bits (s : State) :
    s.statusWord.testBit 0 = s.busy ∧ bitField s.statusWord 3 1 = 0 ∧ s.statusWord.testBit 8 = s.sticky ∧
      s.statusWord.testBit 9 = s.fieldOk ∧ s.statusWord.testBit 10 = s.montOk ∧ s.statusWord.testBit 11 = s.busyWr ∧
      s.statusWord / 2 ^ 12 = 0 := by
  have hbusy := s.busy.toNat_lt
  have hcode := s.err.code_lt
  have hsticky := s.sticky.toNat_lt
  have hfield := s.fieldOk.toNat_lt
  have hmont := s.montOk.toNat_lt
  have hbusyWr := s.busyWr.toNat_lt
  refine ⟨testBit_of_div_mod ?_, ?_, testBit_of_div_mod ?_, testBit_of_div_mod ?_, testBit_of_div_mod ?_, testBit_of_div_mod ?_, ?_⟩
  all_goals
    simp only [bitField, State.statusWord, Nat.shiftRight_eq_div_pow]
    omega

/-- A bit of the operand a write transfers is that bit of the number. -/
theorem getLsbD_wordOfNat {w : Width} {v k : Nat} (hk : k < 32) : (Word.ofNat w v).getLsbD k = v.testBit k := by
  have hlt : k < w.bits := hk.trans_le (thirtyTwo_le_bits w)
  rw [BitVec.getLsbD_ofNat, decide_eq_true hlt, Bool.true_and]

theorem hostWrite_status {s : State} (hidle : s.inflight = none) (v : Nat) :
    hostWrite 0x51#8 v s = { s with sticky := s.sticky && !v.testBit 8, busyWr := s.busyWr && !v.testBit 11 } := by
  rw [hostWrite_idle hidle, show indexOf 0x51#8 = .status from rfl, hostWriteIdle, State.clearStatus,
    getLsbD_wordOfNat (by decide), getLsbD_wordOfNat (by decide)]

/-- Settles O17: the fields of the STATUS word at their bits, and the two bits an idle write clears. -/
theorem statusRegister : Obligations.StatusRegister := by
  refine ⟨fun s => ?_, fun s v hidle => hostWrite_status hidle v⟩
  obtain ⟨hbusy, hreserved, hsticky, hfield, hmont, hbusyWr, hhigh⟩ := statusWord_bits s
  dsimp only
  rw [hostReadValue_status]
  exact ⟨hbusy, hreserved, bitField_statusWord_err s, hsticky, hfield, hmont, hbusyWr, hhigh⟩

/-! ### Acceptance and completion (10_state.md R33) -/

theorem busy_eq_true {s : State} : s.busy = true ↔ s.inflight ≠ none := by
  rw [State.busy, Option.isSome_iff_ne_none]

theorem statusWord_odd_iff (s : State) : s.statusWord % 2 = 1 ↔ s.inflight ≠ none := by
  rw [statusWord_mod_two, ← busy_eq_true]
  cases s.busy <;> decide

theorem hostWrite_cmd {s : State} (hidle : s.inflight = none) (v : Nat) :
    hostWrite 0x50#8 v s = accept (BitVec.ofNat 32 v) s := by
  rw [hostWrite_idle hidle, indexOf_eq_cmd.2 rfl, hostWriteIdle, cmdWord_ofNat_toNat]

/-- Settles O12: BUSY is read off INFLIGHT, the idle write is `accept`, every end of a command is idle, a busy write is dropped. -/
theorem commandAcceptanceAndCompletion : Obligations.CommandAcceptanceAndCompletion := by
  refine ⟨statusWord_odd_iff, fun s v hidle => ⟨_, _, hostWrite_cmd hidle v⟩, fun i s t h => ?_, fun s v hbusy => ?_⟩
  · have hidle : t.inflight = none := (exec_ends h).inflight_eq
    have hbit : t.busy = false := by rw [State.busy, hidle, Option.isSome_none]
    exact ⟨hidle, by rw [statusWord_mod_two, hbit, Bool.toNat_false]⟩
  · rw [hostWrite_busy hbusy]

/-- Settles O18: a busy write is dropped, and it is what the step performs while the latency is not over. -/
theorem busyWriteIsDropped : Obligations.BusyWriteIsDropped := by
  refine ⟨fun s idx v hbusy => hostWrite_busy hbusy idx v, fun s idx v rest hbusy hdelay hops => ?_⟩
  rw [step_of_hostOps_cons (.inr hdelay) hops, hostTransaction]
  exact congrArg Host.Outcome.next (hostWrite_busy (s := { s with hostOps := rest, delay := s.delay - 1 }) hbusy idx v)

/-! ### Reset (70_reset_and_hazards.md R270) -/

/-- The reset state depends on the width and on the model's own host side alone. -/
theorem hostReset_congr {s s' : State} (hw : s.width = s'.width) (hside : SameHost s s') : hostReset s = hostReset s' := by
  obtain ⟨hdraws, hops, hreads⟩ := hside
  rw [hostReset, hostReset, hw, hdraws, hops, hreads]

theorem resetAt_statusWord (w : Width) (d : Nat) (ops : List HostOp) (reads : List HostRead) :
    (State.resetAt w d ops reads).statusWord = 0 := by
  simp [State.statusWord, State.busy, State.resetAt, StatusCode.code]

/-- Settles O11: the step is `hostReset`, whose state holds the reset values by definition. -/
theorem hostResetDiscardsEverything : Obligations.HostResetDiscardsEverything := by
  refine ⟨fun s rest hturn hops => ⟨_, step_of_hostOps_cons hturn hops, ?_⟩, fun _ _ => hostReset_congr⟩
  rw [hostReadValue_status]
  exact ⟨rfl, rfl, rfl, rfl, rfl, rfl, rfl, rfl, rfl, rfl, rfl, rfl, rfl, rfl, rfl, resetAt_statusWord _ _ _ _⟩

end Sys2Proof.Machine
end

section
/-! Idle transactions on the register index space (20_memory.md R61, R63, R64, R67). -/

namespace Sys2Proof.Machine

/-! ### The index map is injective on the registers -/

/-- The place of a field in the four indices of a point register (20_memory.md R61). -/
def PointField.number : PointField → Nat
  | .x => 0
  | .y => 1
  | .z => 2
  | .inf => 3

theorem PointField.number_ofFin (f : Fin 4) : (PointField.ofFin f).number = f.val := by
  revert f
  decide

/-- The index of a register: the index map read backwards; the unmapped indices have none. -/
def Index.number : Index → Option Nat
  | .field i => some i.val
  | .point i f => some (0x20 + 4 * i.val + f.number)
  | .modulus => some 0x40
  | .rconst => some 0x41
  | .rinv => some 0x42
  | .curveA => some 0x43
  | .curveGx => some 0x44
  | .curveGy => some 0x45
  | .ctrl => some 0x46
  | .cmd => some 0x50
  | .status => some 0x51
  | .unmapped => none

theorem indexOf_field {idx : BitVec 8} (h : idx.toNat < 0x10) : indexOf idx = .field (Fin.ofNat 16 idx.toNat) := if_pos h

theorem indexOf_point {idx : BitVec 8} (h : 0x20 ≤ idx.toNat ∧ idx.toNat < 0x30) :
    indexOf idx = .point (Fin.ofNat 4 ((idx.toNat - 0x20) / 4)) (PointField.ofFin (Fin.ofNat 4 (idx.toNat - 0x20))) := by
  have hfield : ¬ idx.toNat < 0x10 := by omega
  exact (if_neg hfield).trans (if_pos h)

/-- A register's index is the one the map was asked for. -/
theorem indexOf_number {idx : BitVec 8} (h : indexOf idx ≠ .unmapped) : (indexOf idx).number = some idx.toNat := by
  by_cases hfield : idx.toNat < 0x10
  · rw [indexOf_field hfield]
    simp only [Index.number, Fin.ofNat, Option.some.injEq]
    omega
  · by_cases hpoint : 0x20 ≤ idx.toNat ∧ idx.toNat < 0x30
    · rw [indexOf_point hpoint]
      simp only [Index.number, PointField.number_ofFin, Fin.ofNat, Option.some.injEq]
      omega
    · revert h
      unfold indexOf
      rw [if_neg hfield, if_neg hpoint]
      split
      case h_10 => exact fun h => absurd rfl h
      all_goals exact fun _ => rfl

theorem indexOf_ne {i j : BitVec 8} (hij : j ≠ i) (hi : indexOf i ≠ .unmapped) : indexOf j ≠ indexOf i := by
  intro h
  have hj : indexOf j ≠ .unmapped := h ▸ hi
  have hnumber : some j.toNat = some i.toNat := by rw [← indexOf_number hj, ← indexOf_number hi, h]
  exact hij (BitVec.eq_of_toNat_eq (Option.some.inj hnumber))

/-! ### The plain registers, and those of one bit -/

/-- The registers whose write is a plain store: neither CMD nor STATUS (20_memory.md R64). -/
def Index.plain : Index → Bool
  | .cmd | .status | .unmapped => false
  | .field _ | .point _ _ | .modulus | .rconst | .rinv | .curveA | .curveGx | .curveGy | .ctrl => true

/-- The registers of one bit (20_memory.md R65). -/
def Index.oneBit : Index → Bool
  | .ctrl | .point _ .inf => true
  | _ => false

theorem Index.ne_of_plain {i : Index} (h : i.plain = true) : i ≠ .cmd ∧ i ≠ .status ∧ i ≠ .unmapped := by
  cases i <;> simp_all [Index.plain]

/-- The three ranges of the plain registers. -/
theorem indexOf_plain {idx : BitVec 8}
    (h : idx.toNat < 0x10 ∨ (0x20 ≤ idx.toNat ∧ idx.toNat < 0x30) ∨ (0x40 ≤ idx.toNat ∧ idx.toNat ≤ 0x46)) :
    (indexOf idx).plain = true := by
  by_cases hfield : idx.toNat < 0x10
  · rw [indexOf_field hfield, Index.plain]
  · by_cases hpoint : 0x20 ≤ idx.toNat ∧ idx.toNat < 0x30
    · rw [indexOf_point hpoint, Index.plain]
    · have hconfig : idx = 0x40#8 ∨ idx = 0x41#8 ∨ idx = 0x42#8 ∨ idx = 0x43#8 ∨ idx = 0x44#8 ∨ idx = 0x45#8 ∨ idx = 0x46#8 := by
        bv_omega
      rcases hconfig with rfl | rfl | rfl | rfl | rfl | rfl | rfl <;> rfl

theorem oneBit_point (i f : Fin 4) : (Index.point i (PointField.ofFin f)).oneBit = true ↔ f = 3 := by
  revert f
  decide +revert

/-- INF has the last of the four indices of a point register. -/
theorem indexOf_oneBit {idx : BitVec 8} :
    (indexOf idx).oneBit = true ↔ idx = 0x46#8 ∨ (0x20 ≤ idx.toNat ∧ idx.toNat < 0x30 ∧ idx.toNat % 4 = 3) := by
  by_cases hfield : idx.toNat < 0x10
  · rw [indexOf_field hfield]
    have hctrl : idx ≠ 0x46#8 := by rintro rfl; exact absurd hfield (by decide)
    show false = true ↔ _
    simp only [Bool.false_eq_true, hctrl, false_or, false_iff]
    omega
  · by_cases hpoint : 0x20 ≤ idx.toNat ∧ idx.toNat < 0x30
    · rw [indexOf_point hpoint, oneBit_point, Fin.ext_iff]
      simp only [Fin.ofNat]
      bv_omega
    · have hctrl : (indexOf idx).oneBit = true ↔ idx = 0x46#8 := by
        unfold indexOf
        rw [if_neg hfield, if_neg hpoint]
        split
        case h_10 hne _ _ => exact ⟨nofun, fun h => absurd h hne⟩
        all_goals decide
      rw [hctrl]
      exact ⟨.inl, fun h => h.resolve_right fun ⟨hlo, hhi, _⟩ => hpoint ⟨hlo, hhi⟩⟩

/-! ### What an idle write of a plain register leaves, and what the next read returns -/

/-- The value a register takes of a write: one bit of it, or all. -/
def Index.stored (i : Index) (v : Nat) : Nat := if i.oneBit then v % 2 else v

theorem ofBit_toNat (w : Width) (b : Bool) : (Word.ofBit w b).toNat = b.toNat := by
  have hlt : b.toNat < 2 ^ w.bits := b.toNat_lt.trans_le (Nat.le_self_pow (by have := thirtyTwo_le_bits w; omega) 2)
  rw [BitVec.toNat_ofNat, Nat.mod_eq_of_lt hlt]

theorem ofBit_getLsbD_zero {w : Width} (v : Word w) : (Word.ofBit w (v.getLsbD 0)).toNat = v.toNat % 2 := by
  rw [ofBit_toNat, BitVec.getLsbD, Nat.testBit_zero]
  rcases Nat.mod_two_eq_zero_or_one v.toNat with h | h <;> simp [h]

/-- A field of a point as an operand. -/
def Point.value {w : Width} (u : Point w) : PointField → Word w
  | .x => u.x
  | .y => u.y
  | .z => u.z
  | .inf => Word.ofBit w u.inf

/-- A point with one field written. -/
def Point.store {w : Width} (u : Point w) (f : PointField) (v : Word w) : Point w :=
  match f with
  | .x => { u with x := v }
  | .y => { u with y := v }
  | .z => { u with z := v }
  | .inf => { u with inf := v.getLsbD 0 }

theorem Point.value_store_self {w : Width} (u : Point w) (f : PointField) (v : Word w) (i : Fin 4) :
    ((u.store f v).value f).toNat = (Index.point i f).stored v.toNat := by
  cases f with
  | inf => exact ofBit_getLsbD_zero v
  | x | y | z => rfl

theorem Point.value_store_of_ne {w : Width} (u : Point w) {f g : PointField} (h : g ≠ f) (v : Word w) :
    (u.store f v).value g = u.value g := by
  cases f <;> cases g <;> simp_all [Point.value, Point.store]

theorem current_point (s : State) (i : Fin 4) (f : PointField) : s.current (.point i f) = (s.p.get i).value f := by
  cases f <;> rfl

theorem hostWriteIdle_point (s : State) (v : Word s.width) (i : Fin 4) (f : PointField) :
    hostWriteIdle s v (.point i f) = s.setP i ((s.p.get i).store f v) := by
  cases f <;> rfl

theorem current_setP_point (s : State) (i k : Fin 4) (u : Point s.width) (g : PointField) :
    ((s.setP i u).current (.point k g) : Word s.width) = if i = k then u.value g else s.current (.point k g) := by
  rw [current_point, current_point]
  show Point.value ((s.setP i u).p.get k : Point s.width) g = _
  rw [State.setP_get]
  split <;> rfl

/-- Of a plain register the next read returns what was stored. -/
theorem current_hostWriteIdle_self (s : State) (v : Word s.width) {i : Index} (h : i.plain = true) :
    ((hostWriteIdle s v i).current i).toNat = i.stored v.toNat := by
  cases i with
  | field i => exact s.setF_F_self i v
  | point i f =>
    rw [hostWriteIdle_point, ← Point.value_store_self (s.p.get i)]
    exact congrArg BitVec.toNat ((current_setP_point s i i _ f).trans (if_pos rfl))
  | ctrl => exact ofBit_getLsbD_zero v
  | modulus | rconst | rinv | curveA | curveGx | curveGy => rfl
  | cmd | status | unmapped => cases h

/-- Every other register but STATUS keeps its value. -/
theorem current_hostWriteIdle_of_ne (s : State) (v : Word s.width) {i j : Index} (h : i.plain = true) (hij : j ≠ i)
    (hj : j ≠ .status) : ((hostWriteIdle s v i).current j).toNat = (s.current j).toNat := by
  cases i with
  | field i =>
    cases j with
    | field j => exact s.setF_F_of_ne i j v fun hji => hij (congrArg Index.field hji)
    | point j g => cases g <;> rfl
    | _ => rfl
  | point i f =>
    rw [hostWriteIdle_point]
    cases j with
    | point j g =>
      refine congrArg BitVec.toNat ((current_setP_point s i j _ g).trans ?_)
      split
      · next hpoint =>
        subst hpoint
        exact (Point.value_store_of_ne _ (fun hgf => hij (congrArg (Index.point i) hgf)) v).trans (current_point s i g).symm
      · rfl
    | _ => rfl
  | cmd | status | unmapped => cases h
  | _ =>
    cases j with
    | point j g => cases g <;> rfl
    | status => exact absurd rfl hj
    | _ => simp_all [hostWriteIdle, State.current]

/-- A plain write puts nothing in flight and leaves the fields of STATUS but the two flags. -/
theorem hostWriteIdle_plain_frame (s : State) (v : Word s.width) {i : Index} (h : i.plain = true) :
    let t := hostWriteIdle s v i
    t.inflight = s.inflight ∧ t.err = s.err ∧ t.sticky = s.sticky ∧ t.busyWr = s.busyWr ∧ t.delay = s.delay ∧ SameHost s t := by
  cases i with
  | point i f => rw [hostWriteIdle_point]; exact ⟨rfl, rfl, rfl, rfl, rfl, rfl, rfl, rfl⟩
  | cmd | status | unmapped => cases h
  | _ => exact ⟨rfl, rfl, rfl, rfl, rfl, rfl, rfl, rfl⟩

/-! ### The indices of the registers -/

theorem indexOf_ofNat_field : ∀ i : FReg, indexOf (BitVec.ofNat 8 i.val) = .field i := by decide

theorem indexOf_ofNat_point (d : Fin 4) :
    indexOf (BitVec.ofNat 8 (0x20 + 4 * d.val)) = .point d .x ∧ indexOf (BitVec.ofNat 8 (0x21 + 4 * d.val)) = .point d .y ∧
    indexOf (BitVec.ofNat 8 (0x22 + 4 * d.val)) = .point d .z ∧ indexOf (BitVec.ofNat 8 (0x23 + 4 * d.val)) = .point d .inf := by
  decide +revert

/-! ### The statement -/

section
variable {s : State} (hidle : s.inflight = none)
include hidle

/-- What an idle write of a plain register stores, the next read of its index returns, and every other index but STATUS reads as
before. -/
theorem hostReadValue_hostWrite {idx : BitVec 8} (v : Nat) (hplain : (indexOf idx).plain = true) :
    (hostReadValue idx (hostWrite idx v s)).toNat = (indexOf idx).stored (v % 2 ^ s.width.bits) ∧
    ∀ j : BitVec 8, j ≠ idx → j ≠ 0x51#8 → (hostReadValue j (hostWrite idx v s)).toNat = (hostReadValue j s).toNat := by
  obtain ⟨-, -, hmapped⟩ := Index.ne_of_plain hplain
  obtain ⟨hinflight, -⟩ := hostWriteIdle_plain_frame s (Word.ofNat s.width v) hplain
  have hstill := hinflight.trans hidle
  rw [hostWrite_idle hidle]
  refine ⟨?_, fun j hj hstatus => ?_⟩
  · rw [hostReadValue_idle hstill, current_hostWriteIdle_self s _ hplain, BitVec.toNat_ofNat]
  · rw [hostReadValue_idle hstill, hostReadValue_idle hidle]
    exact current_hostWriteIdle_of_ne s _ hplain (indexOf_ne hj hmapped) (indexOf_ne (i := 0x51#8) hstatus (by decide))

/-- An idle read of a configuration register, CTRL, CMD or STATUS. -/
theorem hostReadValue_configuration :
    (hostReadValue 0x40#8 s).toNat = s.M ∧ (hostReadValue 0x41#8 s).toNat = s.rconst.toNat ∧
    (hostReadValue 0x42#8 s).toNat = s.rinv.toNat ∧ (hostReadValue 0x43#8 s).toNat = s.curveA.toNat ∧
    (hostReadValue 0x44#8 s).toNat = s.curveGx.toNat ∧ (hostReadValue 0x45#8 s).toNat = s.curveGy.toNat ∧
    (hostReadValue 0x46#8 s).toNat = s.vtype.toNat ∧ (hostReadValue 0x50#8 s).toNat = s.lastCmd.toNat ∧
    (hostReadValue 0x51#8 s).toNat = s.statusWord := by
  rw [hostReadValue_cmd, hostReadValue_status]
  simp only [hostReadValue_idle hidle]
  exact ⟨rfl, rfl, rfl, rfl, rfl, rfl, ofBit_toNat _ _, trivial, trivial⟩

end

/-- What a one-bit register stores is the lowest bit of the number written, and any other its low `W` bits. -/
theorem stored_eq (idx : BitVec 8) (w : Width) (v : Nat) : (indexOf idx).stored (v % 2 ^ w.bits) =
    if idx = 0x46#8 ∨ (0x20 ≤ idx.toNat ∧ idx.toNat < 0x30 ∧ idx.toNat % 4 = 3) then v % 2 else v % 2 ^ w.bits := by
  have htwo : 2 ∣ 2 ^ w.bits := dvd_pow_self 2 (by have := thirtyTwo_le_bits w; omega)
  rw [Index.stored]
  simp only [indexOf_oneBit, Nat.mod_mod_of_dvd v htwo]

/-- Settles O16: the write reaches the one register of its index, since the index map is injective on the registers. -/
theorem idleWriteThenRead : Obligations.IdleWriteThenRead := by
  refine ⟨fun s idx v hidle hrange => ?_,
    fun s hidle => ⟨hostRead_idle hidle, fun i => ?_, fun d => ?_, hostReadValue_configuration hidle⟩⟩
  · have hplain : (indexOf idx).plain = true := indexOf_plain hrange
    obtain ⟨hself, hother⟩ := hostReadValue_hostWrite hidle v hplain
    obtain ⟨hinflight, herr, hsticky, hbusyWr, hdelay, hside⟩ := hostWriteIdle_plain_frame s (Word.ofNat s.width v) hplain
    refine ⟨hself.trans (stored_eq idx s.width v), hother, ?_⟩
    rw [hostWrite_idle hidle]
    exact ⟨hinflight.trans hidle, herr, hsticky, hbusyWr, hdelay, hside,
      fun hidx => hostWriteIdle_flags_of_not_descriptor s _ (mt indexOf_mem_descriptor.1 hidx)⟩
  · rw [hostReadValue_idle hidle, indexOf_ofNat_field]
    rfl
  · obtain ⟨hx, hy, hz, hinf⟩ := indexOf_ofNat_point d
    simp only [hostReadValue_idle hidle, hx, hy, hz, hinf]
    exact ⟨rfl, rfl, rfl, ofBit_toNat _ _⟩

end Sys2Proof.Machine
end

section
/-! The block while a command is in flight: the host's transactions, completion, and what the latency changes
(70_reset_and_hazards.md R285 to R288; 00_scope.md R18). -/

namespace Sys2Proof.Machine

/-! ### The destinations of the command in flight (70_reset_and_hazards.md R287) -/

theorem isDestination_field {w : BitVec 32} {i : FReg} :
    isDestination w (.field i) = true ↔ formatOf (opcOf w) ∈ [some .F1, some .F2, some .F3, some .FI] ∧ i = rdOf w := by
  rw [isDestination]
  split <;> simp_all

theorem isDestination_point {w : BitVec 32} {i : Fin 4} {f : PointField} :
    isDestination w (.point i f) = true ↔ formatOf (opcOf w) ∈ [some .P1, some .P2, some .P3, some .PK] ∧ i.val = (rdOf w).val := by
  rw [isDestination]
  split <;> simp_all

/-- A destination is a field register's index, or one of the four of a point register. -/
theorem isDestination_iff (w : BitVec 32) (idx : BitVec 8) : isDestination w (indexOf idx) = true ↔
    (formatOf (opcOf w) ∈ [some .F1, some .F2, some .F3, some .FI] ∧ idx.toNat = (rdOf w).val) ∨
    (formatOf (opcOf w) ∈ [some .P1, some .P2, some .P3, some .PK] ∧ (rdOf w).val ≤ 3 ∧ 0x20 ≤ idx.toNat ∧
      (idx.toNat - 0x20) / 4 = (rdOf w).val) := by
  have hrd : (rdOf w).val < 16 := (rdOf w).isLt
  by_cases hfield : idx.toNat < 0x10
  · rw [indexOf_field hfield, isDestination_field, Fin.ext_iff]
    have hval : (Fin.ofNat 16 idx.toNat).val = idx.toNat := Nat.mod_eq_of_lt hfield
    rw [hval]
    exact ⟨.inl, fun h => h.resolve_right fun ⟨_, _, hlo, _⟩ => by omega⟩
  · by_cases hpoint : 0x20 ≤ idx.toNat ∧ idx.toNat < 0x30
    · rw [indexOf_point hpoint, isDestination_point]
      have hval : (Fin.ofNat 4 ((idx.toNat - 0x20) / 4)).val = (idx.toNat - 0x20) / 4 := Nat.mod_eq_of_lt (by omega)
      rw [hval]
      exact ⟨fun ⟨hfmt, hd⟩ => .inr ⟨hfmt, by omega, hpoint.1, hd⟩,
        fun h => (h.resolve_left fun ⟨_, hd⟩ => by omega).imp_right fun ⟨_, _, hd⟩ => hd⟩
    · have hnone : isDestination w (indexOf idx) = false := by
        unfold indexOf
        rw [if_neg hfield, if_neg hpoint]
        split <;> rfl
      rw [hnone]
      simp only [Bool.false_eq_true, false_iff]
      rintro (⟨-, hd⟩ | ⟨-, hd, hlo, hpt⟩) <;> omega

/-! ### Reads while busy -/

/-- A read that is no destination of the command in flight returns the current value. -/
theorem hostReadValue_of_not_destination {s : State} {w : BitVec 32} {idx : BitVec 8} (hw : s.inflight = some w)
    (h : isDestination w (indexOf idx) = false) : hostReadValue idx s = s.current (indexOf idx) := by
  have hfree : s.readIsFree idx = false := by rw [State.readIsFree, hw]; exact h
  rw [hostReadValue, hfree]
  rfl

/-- A read of STATUS while busy shows BUSY 1, ERR 0 and the other bits as they are. -/
theorem hostReadValue_status_busy {s : State} {w : BitVec 32} (hw : s.inflight = some w) (herr : s.err = .noError) :
    let v := (hostReadValue 0x51#8 s).toNat
    v.testBit 0 = true ∧ bitField v 7 4 = 0 ∧ v.testBit 8 = s.sticky ∧ v.testBit 9 = s.fieldOk ∧ v.testBit 10 = s.montOk ∧
      v.testBit 11 = s.busyWr := by
  have hbusy : s.busy = true := by rw [State.busy, hw, Option.isSome_some]
  obtain ⟨hbit, -, hsticky, hfield, hmont, hbusyWr, -⟩ := statusWord_bits s
  rw [hostReadValue_status]
  exact ⟨hbit.trans hbusy, by rw [bitField_statusWord_err, herr, StatusCode.code], hsticky, hfield, hmont, hbusyWr⟩

/-- While a command is in flight ERR is 0 (10_state.md R31). -/
theorem State.FlightSound.err_eq_of_busy {s : State} (h : s.FlightSound) {w : BitVec 32} (hw : s.inflight = some w) :
    s.err = .noError := by
  obtain ⟨hidle, -⟩ | ⟨-, herr⟩ := h
  · rw [hidle] at hw
    cases hw
  · exact herr

/-- Settles O19: the read is `hostRead` in the state of the host's turn, free on a destination alone; STATUS is none. -/
theorem busyReads : Obligations.BusyReads := by
  refine ⟨fun s w idx rest hw hdelay hops => ?_, isDestination_iff⟩
  refine ⟨_, _, BitVec.isLt _, step_of_hostOps_cons (.inr hdelay) hops, fun hdest => ?_, ?_⟩
  · exact congrArg BitVec.toNat (hostReadValue_of_not_destination (s := { s with hostOps := rest, delay := s.delay - 1 }) hw hdest)
  · rintro rfl hsound
    exact hostReadValue_status_busy (s := { s with hostOps := rest, delay := s.delay - 1 }) hw (hsound.err_eq_of_busy hw)

/-! ### The host's transactions while busy -/

/-- While busy no transaction but a reset reaches more than the host's side, and none loads the host with new ones. -/
theorem hostTransaction_busy {s : State} (hbusy : s.inflight ≠ none) {op : HostOp} (hop : op ≠ .reset) :
    ∃ b n r o, hostTransaction op s = s.withHostSide b n s.delay r o ∧ o ⊆ op :: s.hostOps := by
  cases op with
  | read idx => exact ⟨_, _, _, _, rfl, List.subset_cons_self _ _⟩
  | write idx v => exact ⟨_, _, _, _, hostWrite_busy hbusy idx v, List.subset_cons_self _ _⟩
  | wait =>
    have hpoll : s.busy = true := busy_eq_true.2 hbusy
    rw [hostTransaction, if_pos hpoll]
    exact ⟨_, _, _, _, rfl, List.Subset.refl _⟩
  | reset => exact absurd rfl hop

/-- The host's step while the latency is not over: one transaction less to wait for. -/
theorem step_busy {s : State} {op : HostOp} {rest : List HostOp} (hbusy : s.inflight ≠ none) (hdelay : s.delay ≠ 0)
    (hops : s.hostOps = op :: rest) (hop : op ≠ .reset) :
    ∃ b n r o, step s = .next (s.withHostSide b n (s.delay - 1) r o) ∧ o ⊆ s.hostOps := by
  obtain ⟨b, n, r, o, ht, ho⟩ := hostTransaction_busy (s := { s with hostOps := rest, delay := s.delay - 1 }) hbusy hop
  exact ⟨b, n, r, o, (step_of_hostOps_cons (.inr hdelay) hops).trans (congrArg Host.Outcome.next ht), hops ▸ ho⟩

/-- Settles O20: the step is one of three transactions, none of which reaches a register while busy. -/
theorem operandsStableWhileBusy : Obligations.OperandsStableWhileBusy := by
  intro s t op rest hbusy hdelay hops hop hstep
  obtain ⟨b, n, r, o, ht, -⟩ := step_busy hbusy hdelay hops hop
  rw [ht] at hstep
  exact ⟨b, n, r, o, (Host.Outcome.next.inj hstep).symm⟩

/-! ### Completion -/

/-- A run begins with its first step. -/
theorem core_run_of_step {s u : State} (h : step s = .next u) (k : Nat) : Sys2Proof.core.run (k + 1) s = Sys2Proof.core.run k u := by
  have hcore : Sys2Proof.core.step s = .next u := h
  simp only [Host.Core.run, hcore]

/-- A step with a command in flight is the engine's, or a transaction of a host with one more to come. -/
theorem turn_cases (s : State) : s.engineTurn = true ∨ ∃ op rest, s.delay ≠ 0 ∧ s.hostOps = op :: rest := by
  rw [engineTurn_eq_true]
  cases hops : s.hostOps with
  | nil => exact .inl (.inr rfl)
  | cons op rest =>
    by_cases hdelay : s.delay = 0
    · exact .inl (.inl hdelay)
    · exact .inr ⟨op, rest, hdelay, rfl⟩

/-- On the engine's turn one step completes the command. -/
theorem run_one_of_engineTurn {s u : State} {w : BitVec 32} (hw : s.inflight = some w) (hturn : s.engineTurn = true)
    (h : engineStep w s = .next u) : Sys2Proof.core.run 1 s = Host.Outcome.next u :=
  core_run_of_step ((step_of_engineTurn hw hturn).trans h) 0

/-- By induction on the latency: each transaction lowers it, and a reset ends the command at once. -/
theorem run_completes (d : Nat) {s : State} (hd : s.delay = d) (hbusy : s.inflight ≠ none) :
    ∃ (k : Nat) (t : State), k ≤ d + 1 ∧ Sys2Proof.core.run k s = Host.Outcome.next t ∧ t.inflight = none := by
  obtain ⟨w, hw⟩ := Option.ne_none_iff_exists'.1 hbusy
  induction d generalizing s with
  | zero =>
    obtain ⟨u, hu⟩ := engineStep_answers w s
    exact ⟨1, u, le_rfl, run_one_of_engineTurn hw (engineTurn_eq_true.2 (.inl hd)) hu, engineStep_inflight hu⟩
  | succ d ih =>
    obtain hturn | ⟨op, rest, hdelay, hops⟩ := turn_cases s
    · obtain ⟨u, hu⟩ := engineStep_answers w s
      exact ⟨1, u, by omega, run_one_of_engineTurn hw hturn hu, engineStep_inflight hu⟩
    · by_cases hop : op = .reset
      · subst hop
        exact ⟨1, _, by omega, core_run_of_step (step_of_hostOps_cons (.inr hdelay) hops) 0, rfl⟩
      · obtain ⟨b, n, r, o, hstep, -⟩ := step_busy hbusy hdelay hops hop
        obtain ⟨k, t, hk, hrun, hidle⟩ := ih (s := s.withHostSide b n (s.delay - 1) r o) (Nat.sub_eq_of_eq_add hd) hbusy hw
        exact ⟨k + 1, t, by omega, (core_run_of_step hstep k).trans hrun, hidle⟩

/-- Settles O21: the latency is the bound. -/
theorem commandInFlightCompletes : Obligations.CommandInFlightCompletes := fun s => run_completes s.delay rfl

/-! ### What a command computes, seen from another host's side -/

section
variable {ε α β γ : Type}

/-- A chain whose rest is mapped is a mapped chain. -/
theorem bind_eq_map_bind {x : Except ε α} {f : α → Except ε β} {f' : α → Except ε γ} {g : β → γ}
    (h : ∀ a, f' a = (f a).map g) : (x >>= f') = (x >>= f).map g := by
  cases x with
  | ok a => exact h a
  | error e => rfl

end

section
variable {s t : State} (b : Bool) (n d : Nat) (r : List HostRead) (o : List HostOp)

/-- The end of a command carries the host's side through; its latency is 0 then. -/
theorem finish_withHostSide {x x' : Except StatusCode State} (h : finish s x = .next t)
    (hx : x' = x.map fun u => u.withHostSide b n d r o) :
    finish (s.withHostSide b n d r o) x' = .next { t with busyWr := b, draws := n, hostReads := r, hostOps := o } := by
  subst hx
  obtain ⟨u, rfl, rfl⟩ | ⟨c, rfl, rfl⟩ := finish_eq_next.1 h
  · rfl
  · rfl

theorem writeAff_withHostSide (s : State) (i : Fin 4) (R : Affine) :
    (s.withHostSide b n d r o).writeAff i R = (s.writeAff i R).withHostSide b n d r o := by
  cases R <;> rfl

/-- No check and no result of a command reads the host's side. -/
theorem exec_withHostSide {i : Instr} (h : exec i s = .next t) :
    exec i (s.withHostSide b n d r o) = .next { t with busyWr := b, draws := n, hostReads := r, hostOps := o } := by
  cases i
  case nop | fmov => obtain rfl := Host.Outcome.next.inj h; rfl
  case cfgcommit =>
    by_cases hunusable : s.fieldUsable = false ∨ (s.vtype = true ∧ s.montUsable = false)
    · rw [exec_cfgcommit_unusable hunusable] at h
      obtain rfl := Host.Outcome.next.inj h
      exact exec_cfgcommit_unusable (s := s.withHostSide b n d r o) hunusable
    · obtain ⟨hfield, hmont⟩ : s.fieldUsable = true ∧ (s.vtype = true → s.montUsable = true) := by simpa using hunusable
      rw [exec_cfgcommit_usable hfield hmont] at h
      obtain rfl := Host.Outcome.next.inj h
      exact exec_cfgcommit_usable (s := s.withHostSide b n d r o) hfield hmont
  case pmov => exact finish_withHostSide b n d r o h (bind_eq_map_bind fun _ => bind_eq_map_bind fun _ => rfl)
  case fadd | fsub | fneg | fred | fzero | fone | fmul | fsqr | fmuli | fpow | mmul | msqr | tomont | frommont | mone | mpow =>
    exact finish_withHostSide b n d r o h (bind_eq_map_bind fun _ => rfl)
  case finv | fdiv | minv | mdiv =>
    exact finish_withHostSide b n d r o h (bind_eq_map_bind fun _ => bind_eq_map_bind fun _ => rfl)
  case ainf | agen | jinf => exact finish_withHostSide b n d r o h (bind_eq_map_bind fun _ => bind_eq_map_bind fun _ => rfl)
  case atoj | jdbl | jmul =>
    exact finish_withHostSide b n d r o h (bind_eq_map_bind fun _ => bind_eq_map_bind fun _ => bind_eq_map_bind fun _ => rfl)
  case jadd =>
    exact finish_withHostSide b n d r o h
      (bind_eq_map_bind fun _ => bind_eq_map_bind fun _ => bind_eq_map_bind fun _ => bind_eq_map_bind fun _ => rfl)
  case adbl | jtoa | amul =>
    exact finish_withHostSide b n d r o h (bind_eq_map_bind fun _ => bind_eq_map_bind fun _ => bind_eq_map_bind fun _ =>
      bind_eq_map_bind fun _ => congrArg Except.ok (writeAff_withHostSide b n d r o s _ _))
  case aadd =>
    exact finish_withHostSide b n d r o h (bind_eq_map_bind fun _ => bind_eq_map_bind fun _ => bind_eq_map_bind fun _ =>
      bind_eq_map_bind fun _ => bind_eq_map_bind fun _ => congrArg Except.ok (writeAff_withHostSide b n d r o s _ _))

theorem engineStep_withHostSide {w : BitVec 32} (h : engineStep w s = .next t) :
    engineStep w (s.withHostSide b n d r o) = .next { t with busyWr := b, draws := n, hostReads := r, hostOps := o } := by
  unfold engineStep at h ⊢
  split at h
  · obtain rfl := Host.Outcome.next.inj h
    rfl
  · exact exec_withHostSide b n d r o h

end

/-- Settles O22: an illegal word raises one code whatever the state, and a command reads nothing of the host's side. -/
theorem resultIgnoresHostSide : Obligations.ResultIgnoresHostSide := fun _ _ _ b n d r o => engineStep_withHostSide b n d r o

/-- By induction on the latency: a transaction leaves the command's result but for the host's side. -/
theorem run_reaches_result (d : Nat) {s u : State} {w : BitVec 32} (hd : s.delay = d) (hw : s.inflight = some w)
    (hreset : HostOp.reset ∉ s.hostOps) (hu : engineStep w s = .next u) :
    ∃ (k : Nat) (t : State), Sys2Proof.core.run k s = Host.Outcome.next t ∧ t.inflight = none ∧
      ∃ b n r o, t = { u with busyWr := b, draws := n, hostReads := r, hostOps := o } := by
  induction d generalizing s u with
  | zero => exact ⟨1, u, run_one_of_engineTurn hw (engineTurn_eq_true.2 (.inl hd)) hu, engineStep_inflight hu, _, _, _, _, rfl⟩
  | succ d ih =>
    obtain hturn | ⟨op, rest, hdelay, hops⟩ := turn_cases s
    · exact ⟨1, u, run_one_of_engineTurn hw hturn hu, engineStep_inflight hu, _, _, _, _, rfl⟩
    · have hop : op ≠ .reset := by
        rintro rfl
        exact hreset (hops ▸ List.mem_cons_self)
      obtain ⟨b, n, r, o, hstep, ho⟩ := step_busy (by simp [hw]) hdelay hops hop
      obtain ⟨k, t, hrun, hidle, b', n', r', o', rfl⟩ := ih (s := s.withHostSide b n (s.delay - 1) r o)
        (Nat.sub_eq_of_eq_add hd) hw (fun hmem => hreset (ho hmem)) (engineStep_withHostSide b n _ r o hu)
      exact ⟨k + 1, _, (core_run_of_step hstep k).trans hrun, hidle, b', n', r', o', rfl⟩

/-- Settles O23: the run of the latency's length. -/
theorem resultIndependentOfLatency : Obligations.ResultIndependentOfLatency :=
  fun s _ _ hw hreset hu => run_reaches_result s.delay rfl hw hreset hu

end Sys2Proof.Machine
end

section
/-! Every outcome of a command with what it reports and what it writes, said once; the frames, the codes and the results over all
commands (60_exceptions.md R250 to R254; 10_state.md R22, R25). -/

namespace Sys2Proof.Machine

/-! ### The kinds of command -/

/-- The destination of a command with an affine result (10_state.md R25). -/
def affineDest : Instr → Option PReg
  | .ainf rd | .agen rd | .aadd rd _ _ | .adbl rd _ | .jtoa rd _ | .amul rd _ _ => some rd
  | _ => none

/-- The destination of a command with a Jacobian result (10_state.md R25). -/
def jacobianDest : Instr → Option PReg
  | .jinf rd | .atoj rd _ | .jadd rd _ _ | .jdbl rd _ | .jmul rd _ _ => some rd
  | _ => none

/-- The commands that may invert 0 (43_inverse.md R172 to R175; 44_affine.md R191; 46_scalar_mult.md R230). -/
def mayInvertZero : Instr → Bool
  | .finv _ _ | .fdiv _ _ _ | .minv _ _ | .mdiv _ _ _ | .aadd _ _ _ | .adbl _ _ | .amul _ _ _ => true
  | _ => false

/-- The commands that invert: those and JTOA, which takes `Z = 0` as infinity (44_affine.md R193). -/
def inverts : Instr → Bool
  | .jtoa _ _ => true
  | i => mayInvertZero i

theorem inverts_of_mayInvertZero {i : Instr} (h : mayInvertZero i = true) : inverts i = true := by
  cases i
  case jtoa => rfl
  all_goals exact h

/-- The prologue passes (60_exceptions.md R254): the command is legal and its class is configured. -/
abbrev Ready (i : Instr) (s : State) : Prop := i.wf = true ∧ requireConfig (classOf i) s = .ok ()

/-! ### What a command reports and what it answers -/

/-- The codes a command raises, each with its cause. -/
inductive Reports (i : Instr) (s : State) : StatusCode → Prop where
  | illegal : i.wf = false → Reports i s .illegalCommand
  | config {c : StatusCode} : i.wf = true → requireConfig (classOf i) s = .error c → Reports i s c
  | zero : Ready i s → mayInvertZero i = true → Reports i s .inverseOfZero
  | shared : Ready i s → inverts i = true → Reports i s .notInvertible

/-- The states a command ends in, each with the value it writes; a computed value is canonical when the modulus is usable. -/
inductive Answers (i : Instr) (s : State) : State → Prop where
  | control {t : State} : i = .nop ∨ i = .cfgcommit → t.err = .noError ∨ (i = .cfgcommit ∧ t.err = .configInvalid) → Answers i s t
  | copyF (rd ra : FReg) : i = .fmov rd ra → Answers i s (s.setF rd (s.f.get ra)).complete
  | copyP (rd ra : PReg) (d a : Fin 4) : i = .pmov rd ra → i.wf = true → Answers i s (s.setP d (s.p.get a)).complete
  | error {c : StatusCode} : Reports i s c → Answers i s (s.raise c)
  | field (rd : FReg) (v : Nat) : Ready i s → destF i = some rd → (2 ≤ s.M → v < s.M) → Answers i s (s.writeF rd v).complete
  | affine (rd : PReg) (d : Fin 4) (r : Affine) : Ready i s → affineDest i = some rd → d.val = rd.val →
      (2 ≤ s.M → r.Canonical s.M) → Answers i s (s.writeAff d r).complete
  | jacobian (rd : PReg) (d : Fin 4) (J : Jacobian) : Ready i s → jacobianDest i = some rd → d.val = rd.val →
      (2 ≤ s.M → J.Canonical s.M) → Answers i s (s.writeJac d J).complete

/-! ### The chain of a command, check by check -/

section
variable {i : Instr} {s t : State} {α : Type} {ok : State → Prop}

theorem answers_of_finish {r : Except StatusCode State} (hr : Yields (Reports i s) (fun u => Answers i s u.complete) r)
    (h : finish s r = .next t) : Answers i s t := by
  obtain ⟨u, hu, rfl⟩ | ⟨c, hc, rfl⟩ := finish_eq_next.1 h
  · exact hr.1 u hu
  · exact .error (hr.2 c hc)

/-- A check of a point number the command names. -/
theorem yields_point {r : PReg} {f : Fin 4 → Except StatusCode State} (hwf : legalPoint r = false → i.wf = false)
    (h : ∀ d : Fin 4, d.val = r.val → legalPoint r = true → Yields (Reports i s) ok (f d)) :
    Yields (Reports i s) ok (pointNumber r >>= f) := by
  refine .bind ⟨fun d hd => ?_, fun c hc => ?_⟩
  · have hval : d.val = r.val := pointNumber_ok.1 hd
    exact h d hval (decide_eq_true (by omega))
  · obtain ⟨hr, rfl⟩ := pointNumber_error.1 hc
    exact .illegal (hwf hr)

/-- The check of the command's class, after its point numbers. -/
theorem yields_class {c : ConfigClass} {f : Unit → Except StatusCode State} (hc : classOf i = c) (hwf : i.wf = true)
    (h : Ready i s → Yields (Reports i s) ok (f ())) : Yields (Reports i s) ok (requireConfig c s >>= f) := by
  subst hc
  exact .bind ⟨fun _ hready => h ⟨hwf, hready⟩, fun _ herror => .config hwf herror⟩

/-- The prologue of a point command that names one point. -/
theorem yields_P1 {rd : PReg} {f : Fin 4 → Except StatusCode State} (hwf : i.wf = legalPoint rd) (hc : classOf i = .curve)
    (h : ∀ d : Fin 4, d.val = rd.val → Ready i s → Yields (Reports i s) ok (f d)) :
    Yields (Reports i s) ok (pointNumber rd >>= fun d => requireConfig .curve s >>= fun _ => f d) :=
  yields_point hwf.trans fun d hd hrd => yields_class hc (hwf.trans hrd) (h d hd)

/-- The prologue of a point command that names two points. -/
theorem yields_P2 {rd ra : PReg} {f : Fin 4 → Fin 4 → Except StatusCode State} (hwf : i.wf = (legalPoint rd && legalPoint ra))
    (hc : classOf i = .curve) (h : ∀ d a : Fin 4, d.val = rd.val → Ready i s → Yields (Reports i s) ok (f d a)) :
    Yields (Reports i s) ok
      (pointNumber rd >>= fun d => pointNumber ra >>= fun a => requireConfig .curve s >>= fun _ => f d a) :=
  yields_point (fun hrd => by rw [hwf, hrd, Bool.false_and]) fun d hd hrd =>
    yields_point (fun hra => by rw [hwf, hra, Bool.and_false]) fun a _ hra =>
      yields_class hc (by rw [hwf, hrd, hra, Bool.and_true]) (h d a hd)

/-- The prologue of a point command that names three points. -/
theorem yields_P3 {rd ra rb : PReg} {f : Fin 4 → Fin 4 → Fin 4 → Except StatusCode State}
    (hwf : i.wf = (legalPoint rd && legalPoint ra && legalPoint rb)) (hc : classOf i = .curve)
    (h : ∀ d a b : Fin 4, d.val = rd.val → Ready i s → Yields (Reports i s) ok (f d a b)) :
    Yields (Reports i s) ok (pointNumber rd >>= fun d => pointNumber ra >>= fun a => pointNumber rb >>= fun b =>
      requireConfig .curve s >>= fun _ => f d a b) :=
  yields_point (fun hrd => by rw [hwf, hrd, Bool.false_and, Bool.false_and]) fun d hd hrd =>
    yields_point (fun hra => by rw [hwf, hra, Bool.and_false, Bool.false_and]) fun a _ hra =>
      yields_point (fun hrb => by rw [hwf, hrb, Bool.and_false]) fun b _ hrb =>
        yields_class hc (by rw [hwf, hrd, hra, hrb, Bool.and_true, Bool.and_true]) (h d a b hd)

/-- An inversion, after the prologue. -/
theorem yields_inversion {x : Except StatusCode α} {f : α → Except StatusCode State} (hready : Ready i s) (hi : mayInvertZero i = true)
    (hx : ∀ c, x = .error c → c = .inverseOfZero ∨ c = .notInvertible) (h : ∀ a, x = .ok a → Yields (Reports i s) ok (f a)) :
    Yields (Reports i s) ok (x >>= f) := by
  refine .bind ⟨h, fun c hc => ?_⟩
  obtain rfl | rfl := hx c hc
  · exact .zero hready hi
  · exact .shared hready (inverts_of_mayInvertZero hi)

/-- A command of one number, computed or found. -/
theorem yields_writeF {c : ConfigClass} {rd : FReg} {v : Nat} (hc : classOf i = c) (hwf : i.wf = true) (hd : destF i = some rd)
    (hv : 2 ≤ s.M → v < s.M) :
    Yields (Reports i s) (fun u => Answers i s u.complete) (requireConfig c s >>= fun _ => pure (s.writeF rd v)) :=
  yields_class hc hwf fun hready => .pure (.field rd v hready hd hv)

end

/-! ### Results are canonical -/

section
variable {s : State}

theorem elem_lt (hM : 2 ≤ s.M) (r : FReg) : s.elem r < s.M := red_lt (by omega) _

theorem domain_R_lt (hM : 2 ≤ s.M) (d : Bool) : (s.domain d).R < s.M := red_lt (by omega) _

theorem oneD_domain_lt (hM : 2 ≤ s.M) (d : Bool) : oneD (s.domain d) < s.M := oneD_lt (D := s.domain d) hM (domain_R_lt hM d)

theorem powD_domain_lt (hM : 2 ≤ s.M) (d : Bool) (W b e : Nat) : powD (s.domain d) W b e < s.M :=
  powLoop_lt (D := s.domain d) (by show 0 < s.M; omega) b e W (oneD_domain_lt hM d)

theorem modInv_lt {M a v : Nat} (hM : 1 < M) (h : modInv M a = .ok v) : v < M := by
  obtain ⟨-, hlt, -⟩ := modInvLoop_spec (M := M) (a := a) a M a 0 1 le_rfl (by omega) hM (by simp) (by simp)
  unfold modInv at h
  split at h
  · cases h
  · split at h
    next hloop =>
    rw [hloop] at hlt
    split at h
    · cases h; exact hlt
    · cases h

theorem readAff_canonical (hM : 2 ≤ s.M) (i : Fin 4) : (s.readAff i).Canonical s.M := by
  unfold State.readAff
  split
  · trivial
  · exact ⟨red_lt (by omega) _, red_lt (by omega) _⟩

theorem readJac_canonical (hM : 2 ≤ s.M) (i : Fin 4) : (s.readJac i).Canonical s.M :=
  ⟨red_lt (by omega) _, red_lt (by omega) _, red_lt (by omega) _⟩

end

/-! ### Every command -/

/-- Every next state of a command is one of its answers. -/
theorem answers_of_exec {i : Instr} {s t : State} (h : exec i s = .next t) : Answers i s t := by
  have hpos (hM : 2 ≤ s.M) : 0 < s.M := by omega
  cases i
  case nop => obtain rfl := Host.Outcome.next.inj h; exact .control (.inl rfl) (.inl rfl)
  case cfgcommit =>
    rcases exec_ends h with _ | _ | _ | ⟨_, hne⟩ | _ | _
    · exact .control (.inr rfl) (.inl rfl)
    · exact .control (.inr rfl) (.inl rfl)
    · exact .control (.inr rfl) (.inr ⟨rfl, rfl⟩)
    · exact absurd rfl hne
    · contradiction
    · contradiction
  case fmov rd ra => obtain rfl := Host.Outcome.next.inj h; exact .copyF rd ra rfl
  case pmov rd ra =>
    exact answers_of_finish (yields_point (by simp +contextual [Instr.wf]) fun d _ hd =>
      yields_point (by simp +contextual [Instr.wf]) fun a _ ha => .pure (.copyP rd ra d a rfl (by simp [Instr.wf, hd, ha]))) h
  case fadd | fneg | fred | fmul | fsqr | fmuli | tomont | frommont =>
    exact answers_of_finish (yields_writeF rfl rfl rfl fun hM => Nat.mod_lt _ (hpos hM)) h
  case fsub => exact answers_of_finish (yields_writeF rfl rfl rfl fun hM => modSub_lt (elem_lt hM _)) h
  case fzero => exact answers_of_finish (yields_writeF rfl rfl rfl hpos) h
  case fone | mone => exact answers_of_finish (yields_writeF rfl rfl rfl fun hM => oneD_domain_lt hM _) h
  case fpow | mpow => exact answers_of_finish (yields_writeF rfl rfl rfl fun hM => powD_domain_lt hM _ _ _ _) h
  case mmul | msqr => exact answers_of_finish (yields_writeF rfl rfl rfl fun hM => mulD_lt (hpos hM) _ _) h
  case finv rd ra =>
    exact answers_of_finish (yields_class rfl rfl fun hready => yields_inversion hready rfl (fun _ => modInv_error) fun v hv =>
      .pure (.field rd v hready rfl fun hM => modInv_lt hM hv)) h
  case fdiv rd ra _ | minv rd ra | mdiv rd ra _ =>
    exact answers_of_finish (yields_class rfl rfl fun hready => yields_inversion hready rfl (fun _ => divD_error) fun v hv =>
      .pure (.field rd v hready rfl fun hM => divD_lt (hpos hM) hv)) h
  case ainf rd =>
    exact answers_of_finish (yields_P1 rfl rfl fun d hd hready => .pure (.affine rd d .inf hready rfl hd fun _ => trivial)) h
  case agen rd =>
    exact answers_of_finish (yields_P1 rfl rfl fun d hd hready => .pure (.affine rd d s.generator hready rfl hd fun hM =>
      ⟨Nat.mod_lt _ (hpos hM), Nat.mod_lt _ (hpos hM)⟩)) h
  case jinf rd =>
    exact answers_of_finish (yields_P1 rfl rfl fun d hd hready => .pure (.jacobian rd d _ hready rfl hd fun hM =>
      jacInf_canonical (D := s.curve) hM (domain_R_lt hM _))) h
  case atoj rd ra =>
    exact answers_of_finish (yields_P2 rfl rfl fun d a hd hready => .pure (.jacobian rd d _ hready rfl hd fun hM =>
      toJac_canonical (D := s.curve) hM (domain_R_lt hM _) (readAff_canonical hM a))) h
  case jdbl rd ra =>
    exact answers_of_finish (yields_P2 rfl rfl fun d a hd hready => .pure (.jacobian rd d _ hready rfl hd fun hM =>
      jacAdd_canonical (D := s.curve) hM (domain_R_lt hM _) (readJac_canonical hM a) (readJac_canonical hM a))) h
  case jmul rd ra rb =>
    exact answers_of_finish (yields_P2 rfl rfl fun d a hd hready => .pure (.jacobian rd d _ hready rfl hd fun hM =>
      jacMul_canonical (D := s.curve) hM (domain_R_lt hM _) (readJac_canonical hM a))) h
  case jadd rd ra rb =>
    exact answers_of_finish (yields_P3 rfl rfl fun d a b hd hready => .pure (.jacobian rd d _ hready rfl hd fun hM =>
      jacAdd_canonical (D := s.curve) hM (domain_R_lt hM _) (readJac_canonical hM a) (readJac_canonical hM b))) h
  case adbl rd ra =>
    exact answers_of_finish (yields_P2 rfl rfl fun d a hd hready => yields_inversion hready rfl (fun _ => affAdd_error) fun r hr =>
      .pure (.affine rd d r hready rfl hd fun hM =>
        affAdd_canonical (D := s.curve) (hpos hM) (readAff_canonical hM a) (readAff_canonical hM a) hr)) h
  case aadd rd ra rb =>
    exact answers_of_finish (yields_P3 rfl rfl fun d a b hd hready => yields_inversion hready rfl (fun _ => affAdd_error) fun r hr =>
      .pure (.affine rd d r hready rfl hd fun hM =>
        affAdd_canonical (D := s.curve) (hpos hM) (readAff_canonical hM a) (readAff_canonical hM b) hr)) h
  case amul rd ra rb =>
    exact answers_of_finish (yields_P2 rfl rfl fun d a hd hready => yields_inversion hready rfl (fun _ => affMul_error) fun r hr =>
      .pure (.affine rd d r hready rfl hd fun hM => affMul_canonical (D := s.curve) (hpos hM) (readAff_canonical hM a) hr)) h
  case jtoa rd ra =>
    exact answers_of_finish (yields_P2 rfl rfl fun d a hd hready =>
      .bind ⟨fun r hr => .pure (.affine rd d r hready rfl hd fun hM => toAff_canonical (D := s.curve) (hpos hM) hr),
        fun c hc => toAff_error hc ▸ .shared hready rfl⟩) h

/-! ### The three codes of the prologue (60_exceptions.md R253, R254) -/

/-- The class of NOP, CFGCOMMIT, FMOV and PMOV asks for nothing. -/
theorem ready_of_class_none {i : Instr} (hwf : i.wf = true) (hc : classOf i = .none) (s : State) : Ready i s :=
  ⟨hwf, requireConfig_ok.2 (by rw [hc]; exact ⟨fun h => absurd rfl h, nofun, nofun⟩)⟩

/-- A command fails its prologue with the prologue's code, or passes it and raises none of the three codes. -/
theorem Answers.prologue {i : Instr} {s t : State} (h : Answers i s t) :
    (i.wf = false ∧ t.err = .illegalCommand) ∨ (i.wf = true ∧ requireConfig (classOf i) s = .error t.err) ∨
      (Ready i s ∧ t.err ≠ .illegalCommand ∧ t.err ≠ .notConfigured ∧ t.err ≠ .montNotConfigured) := by
  cases h with
  | control hi herr =>
    have hready : Ready i s := by rcases hi with rfl | rfl <;> exact ready_of_class_none rfl rfl s
    exact .inr (.inr ⟨hready, by rcases herr with herr | ⟨-, herr⟩ <;> simp [herr]⟩)
  | copyF rd ra hi => exact .inr (.inr ⟨hi ▸ ready_of_class_none rfl rfl s, nofun, nofun, nofun⟩)
  | copyP rd ra d a hi hwf => exact .inr (.inr ⟨ready_of_class_none hwf (hi ▸ rfl) s, nofun, nofun, nofun⟩)
  | error hc =>
    cases hc with
    | illegal hwf => exact .inl ⟨hwf, rfl⟩
    | config hwf hc => exact .inr (.inl ⟨hwf, hc⟩)
    | zero hready | shared hready => exact .inr (.inr ⟨hready, nofun, nofun, nofun⟩)
  | field _ _ hready | affine _ _ _ hready | jacobian _ _ _ hready => exact .inr (.inr ⟨hready, nofun, nofun, nofun⟩)

/-- Settles O25: the prologue is the check of the point numbers, then that of the class. -/
theorem configurationClasses : Obligations.ConfigurationClasses := by
  intro i s t h
  obtain ⟨hwf, herr⟩ | ⟨hwf, herr⟩ | ⟨⟨hwf, hready⟩, hillegal, hfield, hmont⟩ := (answers_of_exec h).prologue
  · simp [hwf, herr]
  · rw [requireConfig_error] at herr
    rcases herr with ⟨hc, hf, herr⟩ | ⟨hf, hm, hc, herr⟩
    · simp [hwf, herr, hc, hf]
    · simp [hwf, herr, hf, hm, hc]
  · obtain ⟨hf, hm, hv⟩ := requireConfig_ok.1 hready
    simp only [hillegal, hfield, hmont, hwf, false_iff, true_and]
    refine ⟨nofun, fun ⟨hc, hf'⟩ => by simp [hf hc] at hf', ?_⟩
    rintro ⟨-, hm', hc | ⟨hc, hvt⟩⟩
    · simp [hm hc] at hm'
    · simp [hv hc hvt] at hm'

/-! ### The arithmetic codes (60_exceptions.md R251) -/

/-- The causes of the other codes. -/
theorem Answers.arithmetic {i : Instr} {s t : State} (h : Answers i s t) :
    (t.err = .configInvalid → i = .cfgcommit) ∧ (t.err = .inverseOfZero → mayInvertZero i = true) ∧
      (t.err = .notInvertible → inverts i = true) := by
  cases h with
  | control hi herr => rcases herr with herr | ⟨hi, herr⟩ <;> simp [*]
  | error hc =>
    cases hc with
    | illegal => exact ⟨nofun, nofun, nofun⟩
    | config _ hc => rcases requireConfig_error.1 hc with ⟨-, -, rfl⟩ | ⟨-, -, -, rfl⟩ <;> exact ⟨nofun, nofun, nofun⟩
    | zero _ hi => exact ⟨nofun, fun _ => hi, nofun⟩
    | shared _ hi => exact ⟨nofun, nofun, fun _ => hi⟩
  | copyF | copyP | field | affine | jacobian => exact ⟨nofun, nofun, nofun⟩

/-- The commands of `mayInvertZero`, named. -/
theorem eq_of_mayInvertZero {i : Instr} (h : mayInvertZero i = true) :
    (∃ d a, i = .finv d a ∨ i = .minv d a ∨ i = .adbl d a) ∨
      ∃ d a b, i = .fdiv d a b ∨ i = .mdiv d a b ∨ i = .aadd d a b ∨ i = .amul d a b := by
  cases i
  case finv d a | minv d a | adbl d a => exact .inl ⟨d, a, by simp⟩
  case fdiv d a b | mdiv d a b => exact .inr ⟨d, a, b, by simp⟩
  case aadd d a b => exact .inr ⟨d, a, b, by simp⟩
  case amul d a b => exact .inr ⟨d, a, b, by simp⟩
  all_goals cases h

/-- The commands of `inverts`, named. -/
theorem eq_of_inverts {i : Instr} (h : inverts i = true) :
    (∃ d a, i = .finv d a ∨ i = .minv d a ∨ i = .adbl d a ∨ i = .jtoa d a) ∨
      ∃ d a b, i = .fdiv d a b ∨ i = .mdiv d a b ∨ i = .aadd d a b ∨ i = .amul d a b := by
  by_cases hz : mayInvertZero i = true
  · refine (eq_of_mayInvertZero hz).imp_left ?_
    rintro ⟨d, a, hi⟩
    exact ⟨d, a, by tauto⟩
  · cases i
    case jtoa d a => exact .inl ⟨d, a, by simp⟩
    all_goals exact absurd h hz

/-- Settles O26: an inversion is the only source of the two inversion codes, and CFGCOMMIT's check of the third. -/
theorem whoRaisesWhichCode : Obligations.WhoRaisesWhichCode := by
  refine ⟨fun i s t h => ?_, fun c => by cases c <;> decide⟩
  obtain ⟨hconfig, hzero, hshared⟩ := (answers_of_exec h).arithmetic
  exact ⟨hconfig, fun herr => eq_of_mayInvertZero (hzero herr), fun herr => eq_of_inverts (hshared herr)⟩

/-! ### What a command leaves unchanged (60_exceptions.md R250) -/

/-- A command writes a field register or a point register, not both. -/
theorem destP_of_destF {i : Instr} {rd : FReg} (h : destF i = some rd) : destP i = none := by
  cases i <;> simp_all [destF, destP]

/-- What every end but CFGCOMMIT's leaves unchanged. -/
theorem Ends.common_frame {i : Instr} {s t : State} (h : Ends i s t) (hi : i ≠ .cfgcommit) :
    SameConfig s t ∧ t.fieldOk = s.fieldOk ∧ t.montOk = s.montOk ∧ t.busyWr = s.busyWr ∧ t.lastCmd = s.lastCmd ∧ SameHost s t ∧
      (t.err = .noError → t.sticky = s.sticky) := by
  cases h with
  | commit hc | reject hc => exact absurd hc hi
  | error c _ hc => exact ⟨⟨rfl, rfl, rfl, rfl, rfl, rfl, rfl, rfl⟩, rfl, rfl, rfl, rfl, ⟨rfl, rfl, rfl⟩, fun herr => absurd herr hc⟩
  | nop | field | point => exact ⟨⟨rfl, rfl, rfl, rfl, rfl, rfl, rfl, rfl⟩, rfl, rfl, rfl, rfl, ⟨rfl, rfl, rfl⟩, fun _ => rfl⟩

/-- Only the destination of a command among the field registers changes. -/
theorem Ends.F_eq {i : Instr} {s t : State} (h : Ends i s t) {r : FReg} (hr : destF i ≠ some r) : t.F r = s.F r := by
  cases h with
  | field rd v hd => exact s.setF_F_of_ne rd r v fun hrd => hr (hrd ▸ hd)
  | nop | commit | reject | error | point => rfl

/-- Only the destination of a command among the point registers changes. -/
theorem Ends.samePoint {i : Instr} {s t : State} (h : Ends i s t) {r : Fin 4} (hr : ∀ rd, destP i = some rd → r.val ≠ rd.val) :
    SamePoint s t r := by
  cases h with
  | point rd d v hd hval =>
    have hne : d ≠ r := fun hdr => hr rd hd (hdr ▸ hval)
    exact ⟨(s.setP_PX d r v).trans (if_neg hne), (s.setP_PY d r v).trans (if_neg hne), (s.setP_PZ d r v).trans (if_neg hne),
      (s.setP_PINF d r v).trans (if_neg hne)⟩
  | nop | commit | reject | error | field => exact ⟨rfl, rfl, rfl, rfl⟩

/-- Settles O27: among the ends of a command only the one that writes its field destination changes a register. -/
theorem fieldCommandFrame : Obligations.FieldCommandFrame := by
  intro i rd s t hd h
  have hends := exec_ends h
  have hi : i ≠ .cfgcommit := by rintro rfl; cases hd
  refine ⟨fun r hr => hends.F_eq fun hrd => hr (Option.some.inj (hrd.symm.trans hd)),
    fun r => hends.samePoint fun rd' hd' => ?_, hends.common_frame hi⟩
  rw [destP_of_destF hd] at hd'
  cases hd'

/-- Settles O28: among the ends of a command only the one that writes its point destination changes a register. -/
theorem pointCommandFrame : Obligations.PointCommandFrame := by
  intro i rd s t hd h
  have hends := exec_ends h
  have hi : i ≠ .cfgcommit := by rintro rfl; cases hd
  refine ⟨fun r hr => hends.samePoint fun rd' hd' => ?_, fun r => hends.F_eq fun hf => ?_, hends.common_frame hi⟩
  · rwa [← Option.some.inj (hd.symm.trans hd')]
  · rw [destP_of_destF hf] at hd
    cases hd

/-! ### What a command writes -/

/-- The four fields of a written point register. -/
theorem writeP_self (s : State) (d : Fin 4) (x y z : Nat) (inf : Bool) :
    (s.writeP d x y z inf).PX d = (Word.ofNat s.width x).toNat ∧ (s.writeP d x y z inf).PY d = (Word.ofNat s.width y).toNat ∧
    (s.writeP d x y z inf).PZ d = (Word.ofNat s.width z).toNat ∧ (s.writeP d x y z inf).PINF d = inf :=
  ⟨(s.setP_PX d d _).trans (if_pos rfl), (s.setP_PY d d _).trans (if_pos rfl), (s.setP_PZ d d _).trans (if_pos rfl),
    (s.setP_PINF d d _).trans (if_pos rfl)⟩

/-- The same for canonical coordinates, which the narrowing does not change. -/
theorem writeP_canonical {s : State} (d : Fin 4) {x y z : Nat} (hx : x < s.M) (hy : y < s.M) (hz : z < s.M) (inf : Bool) :
    (s.writeP d x y z inf).PX d = x ∧ (s.writeP d x y z inf).PY d = y ∧ (s.writeP d x y z inf).PZ d = z ∧
      (s.writeP d x y z inf).PINF d = inf := by
  have hself := writeP_self s d x y z inf
  rwa [s.ofNat_of_lt_M hx, s.ofNat_of_lt_M hy, s.ofNat_of_lt_M hz] at hself

/-- A command that completes raised nothing. -/
theorem Reports.ne_noError {i : Instr} {s : State} {c : StatusCode} (h : Reports i s c) : c ≠ .noError := by
  cases h with
  | illegal | zero | shared => nofun
  | config _ hc => rcases requireConfig_error.1 hc with ⟨-, -, rfl⟩ | ⟨-, -, -, rfl⟩ <;> nofun

/-- A command whose class is not none, past its prologue, has a usable modulus. -/
theorem Ready.two_le_M {i : Instr} {s : State} (h : Ready i s) (hs : s.ConfigSound) (hc : classOf i ≠ .none) : 2 ≤ s.M := by
  obtain ⟨hfield, -⟩ := requireConfig_ok.1 h.2
  exact hs.1 (hfield hc)

theorem kind_of_affineDest {i : Instr} {rd : PReg} (h : affineDest i = some rd) :
    classOf i = .curve ∧ destP i = some rd ∧ jacobianDest i = none := by
  cases i <;> simp_all [affineDest, jacobianDest, classOf, destP]

theorem kind_of_jacobianDest {i : Instr} {rd : PReg} (h : jacobianDest i = some rd) :
    classOf i = .curve ∧ destP i = some rd ∧ affineDest i = none := by
  cases i <;> simp_all [affineDest, jacobianDest, classOf, destP]

/-- Of the commands with a field destination only FMOV has the class none. -/
theorem classOf_ne_none_of_destF {i : Instr} {rd : FReg} (h : destF i = some rd) (hi : ∀ a b, i ≠ .fmov a b) : classOf i ≠ .none := by
  cases i <;> simp_all [destF, classOf]

/-- The answer of a command with a field destination, when it completes. -/
theorem Answers.of_destF {i : Instr} {s t : State} {rd : FReg} (h : Answers i s t) (herr : t.err = .noError)
    (hd : destF i = some rd) (hi : ∀ a b, i ≠ .fmov a b) :
    Ready i s ∧ ∃ v, (2 ≤ s.M → v < s.M) ∧ t = (s.writeF rd v).complete := by
  have hp : destP i = none := destP_of_destF hd
  cases h with
  | control hc => rcases hc with rfl | rfl <;> cases hd
  | copyF rd' ra hc => exact absurd hc (hi rd' ra)
  | copyP rd' ra d a hc => subst hc; cases hd
  | error hc => exact absurd herr hc.ne_noError
  | field rd' v hready hd' hv =>
    cases hd.symm.trans hd'
    exact ⟨hready, v, hv, rfl⟩
  | affine rd' d r _ hd' => rw [(kind_of_affineDest hd').2.1] at hp; cases hp
  | jacobian rd' d J _ hd' => rw [(kind_of_jacobianDest hd').2.1] at hp; cases hp

/-- The answer of a command with a point destination, when it completes: an affine or a Jacobian value in the one register. -/
theorem Answers.of_destP {i : Instr} {s t : State} {rd : PReg} {d : Fin 4} (h : Answers i s t) (herr : t.err = .noError)
    (hd : destP i = some rd) (hval : d.val = rd.val) (hi : ∀ a b, i ≠ .pmov a b) :
    Ready i s ∧ classOf i = .curve ∧
      ((affineDest i = some rd ∧ jacobianDest i = none ∧ ∃ r, (2 ≤ s.M → r.Canonical s.M) ∧ t = (s.writeAff d r).complete) ∨
        (jacobianDest i = some rd ∧ affineDest i = none ∧ ∃ J, (2 ≤ s.M → J.Canonical s.M) ∧ t = (s.writeJac d J).complete)) := by
  cases h with
  | control hc => rcases hc with rfl | rfl <;> cases hd
  | copyF rd' ra hc => subst hc; cases hd
  | copyP rd' ra d a hc => exact absurd hc (hi rd' ra)
  | error hc => exact absurd herr hc.ne_noError
  | field rd' v _ hd' => rw [destP_of_destF hd'] at hd; cases hd
  | affine rd' d' r hready hd' hval' hr =>
    obtain ⟨hc, hp, hj⟩ := kind_of_affineDest hd'
    cases hd.symm.trans hp
    cases Fin.ext (hval.trans hval'.symm)
    exact ⟨hready, hc, .inl ⟨hd', hj, r, hr, rfl⟩⟩
  | jacobian rd' d' J hready hd' hval' hJ =>
    obtain ⟨hc, hp, ha⟩ := kind_of_jacobianDest hd'
    cases hd.symm.trans hp
    cases Fin.ext (hval.trans hval'.symm)
    exact ⟨hready, hc, .inr ⟨hd', ha, J, hJ, rfl⟩⟩

theorem writeAff_canonical {s : State} (d : Fin 4) {r : Affine} (hr : r.Canonical s.M) (hM : 0 < s.M) :
    (s.writeAff d r).PX d < s.M ∧ (s.writeAff d r).PY d < s.M ∧ (s.writeAff d r).PZ d < s.M := by
  cases r with
  | inf =>
    obtain ⟨hx, hy, hz, -⟩ := writeP_canonical d hM hM hM true
    exact ⟨hx.trans_lt hM, hy.trans_lt hM, hz.trans_lt hM⟩
  | pt x y =>
    obtain ⟨hx, hy, hz, -⟩ := writeP_canonical d hr.1 hr.2 hM false
    exact ⟨hx.trans_lt hr.1, hy.trans_lt hr.2, hz.trans_lt hM⟩

theorem writeJac_canonical {s : State} (d : Fin 4) {J : Jacobian} (hJ : J.Canonical s.M) :
    (s.writeJac d J).PX d < s.M ∧ (s.writeJac d J).PY d < s.M ∧ (s.writeJac d J).PZ d < s.M := by
  obtain ⟨hJx, hJy, hJz⟩ := hJ
  obtain ⟨hx, hy, hz, -⟩ := writeP_canonical d hJx hJy hJz false
  exact ⟨hx.trans_lt hJx, hy.trans_lt hJy, hz.trans_lt hJz⟩

/-- Settles O29: every answer but the two raw copies holds a canonical value, which the narrowing does not change. -/
theorem writtenElementsAreCanonical : Obligations.WrittenElementsAreCanonical := by
  intro i s t hs h herr
  have hans := answers_of_exec h
  refine ⟨fun rd hd hi => ?_, fun rd d hd hval hi => ?_⟩
  · obtain ⟨hready, v, hv, rfl⟩ := hans.of_destF herr hd hi
    have hlt : v < s.M := hv (hready.two_le_M hs (classOf_ne_none_of_destF hd hi))
    rw [State.complete_F, State.writeF, State.setF_F_self, s.ofNat_of_lt_M hlt]
    exact hlt
  · obtain ⟨hready, hc, hcases⟩ := hans.of_destP herr hd hval hi
    have hM : 2 ≤ s.M := hready.two_le_M hs (by rw [hc]; nofun)
    obtain ⟨-, -, r, hr, rfl⟩ | ⟨-, -, J, hJ, rfl⟩ := hcases
    · exact writeAff_canonical d (hr hM) (by omega)
    · exact writeJac_canonical d (hJ hM)

/-- An affine result has `Z = 0`, and `X = Y = 0` with the tag. -/
theorem writeAff_view (s : State) (d : Fin 4) (r : Affine) :
    (s.writeAff d r).PZ d = 0 ∧ ((s.writeAff d r).PINF d = true → (s.writeAff d r).PX d = 0 ∧ (s.writeAff d r).PY d = 0) := by
  have hzero : (Word.ofNat s.width 0).toNat = 0 := rfl
  cases r with
  | inf =>
    obtain ⟨hx, hy, hz, -⟩ := writeP_self s d 0 0 0 true
    exact ⟨hz.trans hzero, fun _ => ⟨hx.trans hzero, hy.trans hzero⟩⟩
  | pt x y =>
    obtain ⟨-, -, hz, hinf⟩ := writeP_self s d x y 0 false
    exact ⟨hz.trans hzero, fun htag => by cases hinf.symm.trans htag⟩

/-- Settles O30: a command has an affine or a Jacobian result, and the two are written by `writeAff` and `writeJac`. -/
theorem pointResultViews : Obligations.PointResultViews := by
  intro s t d rd i hval hd h herr
  refine ⟨fun hi => ?_, fun hi => ?_⟩
  · have haff : affineDest i = some rd := by
      obtain ⟨a, b, k, rfl | rfl | rfl | rfl | rfl | rfl⟩ := hi <;> rfl
    have hmov : ∀ a b, i ≠ .pmov a b := by rintro a b rfl; cases haff
    obtain ⟨-, -, ⟨-, -, r, -, rfl⟩ | ⟨-, hnone, -⟩⟩ := (answers_of_exec h).of_destP herr hd hval hmov
    · exact writeAff_view s d r
    · rw [hnone] at haff; cases haff
  · have hjac : jacobianDest i = some rd := by
      obtain ⟨a, b, k, rfl | rfl | rfl | rfl | rfl⟩ := hi <;> rfl
    have hmov : ∀ a b, i ≠ .pmov a b := by rintro a b rfl; cases hjac
    obtain ⟨-, -, ⟨-, hnone, -⟩ | ⟨-, -, J, -, rfl⟩⟩ := (answers_of_exec h).of_destP herr hd hval hmov
    · rw [hnone] at hjac; cases hjac
    · exact (writeP_self s d J.x J.y J.z false).2.2.2

end Sys2Proof.Machine
end

section
/-! The group law's commands on point registers, and the affine group law case by case (44_affine.md R191, R193, R196, R197;
45_jacobian.md R218, R219; 46_scalar_mult.md R232, R233). -/

namespace Sys2Proof.Machine

/-! ### The encoding clause, for the formats of three points and of two points and a scalar -/

/-- An opcode whose words the decoder of format P3 reads as `c`. -/
theorem encodedAs_P3 {opc : BitVec 8} {c : PReg → PReg → PReg → Instr} (hfmt : formatOf opc = some .P3)
    (hdec : ∀ w, opcOf w = opc → decode w = decodeP3 w c) : EncodedAs opc .P3 (fun rd ra rb _ => c rd ra rb) :=
  encodedAs_of_decode_ok hfmt fun w i hopc hi => by
    obtain ⟨-, -, -, -, hc⟩ := decodeP3_ok.1 (hdec w hopc ▸ hi)
    exact hc

/-- An opcode whose words the decoder of format PK reads as `c`. -/
theorem encodedAs_PK {opc : BitVec 8} {c : PReg → PReg → FReg → Instr} (hfmt : formatOf opc = some .PK)
    (hdec : ∀ w, opcOf w = opc → decode w = decodePK w c) : EncodedAs opc .PK (fun rd ra rb _ => c rd ra rb) :=
  encodedAs_of_decode_ok hfmt fun w i hopc hi => by
    obtain ⟨-, -, -, hc⟩ := decodePK_ok.1 (hdec w hopc ▸ hi)
    exact hc

/-! ### The commands on the numbers of point registers: what is left of them is the check of class curve and the result -/

theorem exec_aadd_pnum (s : State) (d a b : Fin 4) :
    exec (.aadd (pnum d) (pnum a) (pnum b)) s = finish s (requireConfig .curve s >>= fun _ =>
      affAdd s.curve s.A (s.readAff a) (s.readAff b) >>= fun r => pure (s.writeAff d r)) := by
  simp only [exec, execAadd, pointNumber_pnum, ok_bind]

theorem exec_adbl_pnum (s : State) (d a : Fin 4) :
    exec (.adbl (pnum d) (pnum a)) s = finish s (requireConfig .curve s >>= fun _ =>
      affAdd s.curve s.A (s.readAff a) (s.readAff a) >>= fun r => pure (s.writeAff d r)) := by
  simp only [exec, execAdbl, pointNumber_pnum, ok_bind]

theorem exec_amul_pnum (s : State) (d a : Fin 4) (k : FReg) :
    exec (.amul (pnum d) (pnum a) k) s = finish s (requireConfig .curve s >>= fun _ =>
      affMul s.curve s.A s.width.bits (s.readAff a) (s.F k) >>= fun r => pure (s.writeAff d r)) := by
  simp only [exec, execAmul, pointNumber_pnum, ok_bind]

theorem exec_jadd_pnum (s : State) (d a b : Fin 4) :
    exec (.jadd (pnum d) (pnum a) (pnum b)) s = finish s (requireConfig .curve s >>= fun _ =>
      pure (s.writeJac d (jacAdd s.curve s.A (s.readJac a) (s.readJac b)))) := by
  simp only [exec, execJadd, pointNumber_pnum, ok_bind]

theorem exec_jdbl_pnum (s : State) (d a : Fin 4) :
    exec (.jdbl (pnum d) (pnum a)) s = finish s (requireConfig .curve s >>= fun _ =>
      pure (s.writeJac d (jacAdd s.curve s.A (s.readJac a) (s.readJac a)))) := by
  simp only [exec, execJdbl, pointNumber_pnum, ok_bind]

theorem exec_jmul_pnum (s : State) (d a : Fin 4) (k : FReg) :
    exec (.jmul (pnum d) (pnum a) k) s = finish s (requireConfig .curve s >>= fun _ =>
      pure (s.writeJac d (jacMul s.curve s.A s.width.bits (s.readJac a) (s.F k)))) := by
  simp only [exec, execJmul, pointNumber_pnum, ok_bind]

/-- ADBL is AADD of the point with itself (44_affine.md R197). -/
theorem exec_adbl_eq_aadd (s : State) (d a : Fin 4) :
    exec (.adbl (pnum d) (pnum a)) s = exec (.aadd (pnum d) (pnum a) (pnum a)) s :=
  (exec_adbl_pnum s d a).trans (exec_aadd_pnum s d a a).symm

/-- JDBL is JADD of the point with itself (45_jacobian.md R219). -/
theorem exec_jdbl_eq_jadd (s : State) (d a : Fin 4) :
    exec (.jdbl (pnum d) (pnum a)) s = exec (.jadd (pnum d) (pnum a) (pnum a)) s :=
  (exec_jdbl_pnum s d a).trans (exec_jadd_pnum s d a a).symm

/-! ### The commands with the curve configured -/

section
variable {s : State} (h : s.CurveReady) (d : Fin 4) {a b : Fin 4} {k : FReg}
include h

theorem exec_aadd_of_ok {r : Affine} (hr : affAdd s.curve s.A (s.readAff a) (s.readAff b) = .ok r) :
    exec (.aadd (pnum d) (pnum a) (pnum b)) s = .next (wroteAff s d r) :=
  (exec_aadd_pnum s d a b).trans (finish_writeAff_of_ok h d hr)

theorem exec_aadd_of_error {c : StatusCode} (hc : affAdd s.curve s.A (s.readAff a) (s.readAff b) = .error c) :
    exec (.aadd (pnum d) (pnum a) (pnum b)) s = .next (failed s c) :=
  (exec_aadd_pnum s d a b).trans (finish_writeAff_of_error h d hc)

theorem exec_adbl_of_ok {r : Affine} (hr : affAdd s.curve s.A (s.readAff a) (s.readAff a) = .ok r) :
    exec (.adbl (pnum d) (pnum a)) s = .next (wroteAff s d r) :=
  (exec_adbl_pnum s d a).trans (finish_writeAff_of_ok h d hr)

theorem exec_amul_of_ok {r : Affine} (hr : affMul s.curve s.A s.width.bits (s.readAff a) (s.F k) = .ok r) :
    exec (.amul (pnum d) (pnum a) k) s = .next (wroteAff s d r) :=
  (exec_amul_pnum s d a k).trans (finish_writeAff_of_ok h d hr)

theorem exec_amul_of_error {c : StatusCode} (hc : affMul s.curve s.A s.width.bits (s.readAff a) (s.F k) = .error c) :
    exec (.amul (pnum d) (pnum a) k) s = .next (failed s c) :=
  (exec_amul_pnum s d a k).trans (finish_writeAff_of_error h d hc)

theorem exec_jadd : exec (.jadd (pnum d) (pnum a) (pnum b)) s =
    let J := jacAdd s.curve s.A (s.readJac a) (s.readJac b)
    .next (wroteP s d J.x J.y J.z false) :=
  (exec_jadd_pnum s d a b).trans (finish_writeJac_of_curveReady h d _)

theorem exec_jdbl : exec (.jdbl (pnum d) (pnum a)) s =
    let J := jacAdd s.curve s.A (s.readJac a) (s.readJac a)
    .next (wroteP s d J.x J.y J.z false) :=
  (exec_jdbl_pnum s d a).trans (finish_writeJac_of_curveReady h d _)

theorem exec_jmul : exec (.jmul (pnum d) (pnum a) k) s =
    let J := jacMul s.curve s.A s.width.bits (s.readJac a) (s.F k)
    .next (wroteP s d J.x J.y J.z false) :=
  (exec_jmul_pnum s d a k).trans (finish_writeJac_of_curveReady h d _)

end

/-! ### The statements: each command writes its function of the views -/

/-- Settles O47: the prologue, then `affAdd` of the two views. -/
theorem aaddAdblApplyGroupLaw : Obligations.AaddAdblApplyGroupLaw :=
  ⟨encodedAs_P3 rfl fun w hopc => by simp only [decode, hopc],
    encodedAs_P2 rfl fun w hopc => by simp only [decode, hopc],
    fun d a b => ⟨needsCurve_of_requireConfig fun s => exec_aadd_pnum s d a b,
      needsCurve_of_requireConfig fun s => exec_adbl_pnum s d a⟩,
    fun s d a _ h => ⟨fun _ => exec_aadd_of_ok h d, fun _ => exec_aadd_of_error h d, fun _ => exec_adbl_of_ok h d,
      exec_adbl_eq_aadd s d a⟩⟩

/-- Settles O54: the prologue, then `jacAdd` of the two views, which cannot fail. -/
theorem jaddJdblApplyGroupLaw : Obligations.JaddJdblApplyGroupLaw :=
  ⟨encodedAs_P3 rfl fun w hopc => by simp only [decode, hopc],
    encodedAs_P2 rfl fun w hopc => by simp only [decode, hopc],
    fun d a b => ⟨needsCurve_of_requireConfig fun s => exec_jadd_pnum s d a b,
      needsCurve_of_requireConfig fun s => exec_jdbl_pnum s d a⟩,
    fun s d a _ h => ⟨exec_jadd h d, exec_jdbl h d, exec_jdbl_eq_jadd s d a⟩⟩

/-- Settles O57: the prologue, then `affMul` of the view and the raw scalar. -/
theorem amulAppliesDoubleAndAdd : Obligations.AmulAppliesDoubleAndAdd :=
  ⟨encodedAs_PK rfl fun w hopc => by simp only [decode, hopc],
    fun d a k => needsCurve_of_requireConfig fun s => exec_amul_pnum s d a k,
    fun _ d _ _ h => ⟨fun _ => exec_amul_of_ok h d, fun _ => exec_amul_of_error h d⟩⟩

/-! ### Writing a view and reading it back -/

section
variable {s : State} (d : Fin 4)

/-- The affine view of a written affine value is the value, when that is canonical. -/
theorem readAff_wroteAff {r : Affine} (hr : r.Canonical s.M) (hM : 0 < s.M) : (wroteAff s d r).readAff d = r := by
  cases r with
  | inf =>
    obtain ⟨-, -, -, hinf⟩ := writeP_self s d 0 0 0 true
    exact if_pos hinf
  | pt x y =>
    obtain ⟨hx, hy⟩ := hr
    obtain ⟨hX, hY, -, hinf⟩ := writeP_canonical d hx hy hM false
    have hfinite : ¬ (s.writeP d x y 0 false).PINF d = true := by rw [hinf]; nofun
    refine (if_neg hfinite).trans (congrArg₂ Affine.pt ?_ ?_)
    · exact (congrArg (red s.M) hX).trans (Nat.mod_eq_of_lt hx)
    · exact (congrArg (red s.M) hY).trans (Nat.mod_eq_of_lt hy)

/-- The Jacobian view of a written Jacobian value is the value, when that is canonical. -/
theorem readJac_wroteP {J : Jacobian} (hJ : J.Canonical s.M) : (wroteP s d J.x J.y J.z false).readJac d = J := by
  obtain ⟨hx, hy, hz⟩ := hJ
  obtain ⟨hX, hY, hZ, -⟩ := writeP_canonical d hx hy hz false
  have hX' := (congrArg (red s.M) hX).trans (Nat.mod_eq_of_lt hx)
  have hY' := (congrArg (red s.M) hY).trans (Nat.mod_eq_of_lt hy)
  have hZ' := (congrArg (red s.M) hZ).trans (Nat.mod_eq_of_lt hz)
  cases J
  exact congr (congrArg₂ Jacobian.mk hX' hY') hZ'

end

theorem Domain.Usable.M_pos {D : Domain} (hD : D.Usable) : 0 < D.M := by
  obtain ⟨hM, -⟩ := hD
  omega

/-- With a prime modulus above 2, 2 is a unit. -/
theorem isUnit_two_of_prime {M : Nat} (hp : M.Prime) (h2 : 2 < M) : IsUnit ((2 : Nat) : ZMod M) :=
  (ZMod.isUnit_iff_coprime 2 M).2 (Nat.coprime_of_lt_prime two_ne_zero h2 hp).symm

/-! ### Units: the canonical values a division accepts -/

section
variable {D : Domain} (hD : D.Usable)
include hD

/-- A residue has no common factor with `M` exactly when its logical value is a unit. -/
theorem coprime_iff_isUnit (b : Nat) : Nat.gcd b D.M = 1 ↔ IsUnit (logical D b) := by
  refine (ZMod.isUnit_iff_coprime b D.M).symm.trans ?_
  cases hm : D.mont
  · rw [logical_standard hm]
  · have hRI : IsUnit (D.RI : ZMod D.M) := IsUnit.of_mul_eq_one _ ((mul_comm _ _).trans (hD.cast hm))
    rw [logical_montgomery hm, IsUnit.mul_iff]
    exact (and_iff_left hRI).symm

/-- With a prime modulus every nonzero residue is a unit. -/
theorem isUnit_logical_of_prime (hp : D.M.Prime) {b : Nat} (hb : b < D.M) (h0 : b ≠ 0) : IsUnit (logical D b) :=
  (coprime_iff_isUnit hD b).1 (Nat.coprime_of_lt_prime h0 hb hp).symm

/-- With a prime modulus different residues differ by a unit. -/
theorem isUnit_logical_sub_of_prime (hp : D.M.Prime) {a b : Nat} (ha : a < D.M) (hb : b < D.M) (hab : a ≠ b) :
    IsUnit (logical D b - logical D a) := by
  have : Fact D.M.Prime := ⟨hp⟩
  exact (sub_ne_zero.2 fun h => hab (eq_of_logical_eq hD hb ha h).symm).isUnit

/-- A unit is not 0, since `M` is at least 2. -/
theorem ne_zero_of_isUnit_logical {b : Nat} (h : IsUnit (logical D b)) : b ≠ 0 := by
  rintro rfl
  have : Fact (1 < D.M) := ⟨hD.1⟩
  rw [logical_zero] at h
  exact not_isUnit_zero h

/-! ### The affine form of a Jacobian form (44_affine.md R192, R193) -/

theorem oneD_lt_M : oneD D < D.M := by
  obtain ⟨hM, hR, -, -⟩ := hD
  exact oneD_lt hM hR

/-- `Z = one_d` is a unit and its own square and cube, so the affine form of `toJac P` is `P`, for every modulus. -/
theorem toAff_toJac {P : Affine} (hP : P.Canonical D.M) : toAff D (toJac D P) = .ok P := by
  cases P with
  | inf => exact toAff_of_z_eq_zero rfl
  | pt x y =>
    obtain ⟨hx, hy⟩ := hP
    have hone : logical D (oneD D) = 1 := logical_oneD hD
    have hunit : Nat.gcd (oneD D) D.M = 1 := (coprime_iff_isUnit hD _).2 (hone ▸ isUnit_one)
    obtain ⟨x', y', hr, hx', hy', hxv, hyv⟩ := toAff_of_coprime (J := toJac D (.pt x y)) hD (oneD_lt_M hD) hunit
    simp only [toJac, hone, one_pow, mul_one, logical_inj hD hx' hx, logical_inj hD hy' hy] at hxv hyv
    rw [hr, hxv, hyv]

end

/-- Settles O52: the written register's Jacobian view is `toJac` of the operand's affine view. -/
theorem atojThenJtoaIsIdentity : Obligations.AtojThenJtoaIsIdentity := by
  intro s t d e a h ht
  rw [exec_atoj h d a] at ht
  obtain rfl := Host.Outcome.next.inj ht
  have hP := h.readAff_canonical a
  have hJ : (toJac s.curve (s.readAff a)).Canonical s.M := toJac_canonical (D := s.curve) h.usable.1 h.usable.2.1 hP
  refine exec_jtoa_of_ok (s := wroteP s d _ _ _ false) h e ?_
  rw [readJac_wroteP d hJ]
  exact toAff_toJac h.usable hP

/-! ### `affAdd` case by case (44_affine.md R191) -/

section
variable {D : Domain} {A : Nat}

theorem affAdd_inf_left (Q : Affine) : affAdd D A .inf Q = .ok Q := by
  cases Q <;> rfl

theorem affAdd_inf_right (P : Affine) : affAdd D A P .inf = .ok P := by
  cases P <;> rfl

/-- Inverse points, and a point with `y = 0` doubled. -/
theorem affAdd_opposite {x y1 y2 : Nat} (h : y1 ≠ y2 ∨ y1 = 0) : affAdd D A (.pt x y1) (.pt x y2) = .ok .inf := by
  simp only [affAdd, if_true]
  by_cases hy : y1 ≠ y2
  · rw [if_pos hy]
  · rw [if_neg hy, if_pos (h.resolve_left hy)]

theorem affAdd_tangent (x : Nat) {y : Nat} (hy : y ≠ 0) : affAdd D A (.pt x y) (.pt x y) =
    (divD D (modAdd D.M (modMulSmall D.M 3 (mulD D x x)) A) (modMulSmall D.M 2 y)).map fun l => affTangent D l x y := by
  simp only [affAdd, if_true, ne_eq, not_true, if_false, hy]
  cases divD D (modAdd D.M (modMulSmall D.M 3 (mulD D x x)) A) (modMulSmall D.M 2 y) <;> rfl

theorem affAdd_chord {x1 x2 : Nat} (y1 y2 : Nat) (hx : x1 ≠ x2) : affAdd D A (.pt x1 y1) (.pt x2 y2) =
    (divD D (modSub D.M y2 y1) (modSub D.M x2 x1)).map fun l => affChord D l x1 y1 x2 := by
  simp only [affAdd, hx, if_false]
  cases divD D (modSub D.M y2 y1) (modSub D.M x2 x1) <;> rfl

end

/-- The line through two points, or the tangent where they are one: the equation of its slope, on logical values. -/
def IsSlope (D : Domain) (A x1 y1 x2 y2 : Nat) (l : ZMod D.M) : Prop :=
  if x1 = x2 then 2 * logical D y1 * l = 3 * logical D x1 ^ 2 + logical D A
  else (logical D x2 - logical D x1) * l = logical D y2 - logical D y1

/-- The third point of that line, reflected. -/
def IsThirdPoint (D : Domain) (x1 y1 x2 x3 y3 : Nat) (l : ZMod D.M) : Prop :=
  logical D x3 = l ^ 2 - logical D x1 - logical D x2 ∧ logical D y3 = l * (logical D x1 - logical D x3) - logical D y1

/-- A mapped answer is the image of an answer. -/
theorem map_eq_ok {ε α β : Type} {f : α → β} {x : Except ε α} {b : β} (h : x.map f = .ok b) : ∃ a, x = .ok a ∧ f a = b := by
  cases x with
  | ok a => exact ⟨a, rfl, Except.ok.inj h⟩
  | error e => cases h

section
variable {D : Domain} (hD : D.Usable) {A l x1 y1 x2 y2 : Nat}
include hD

theorem affTangent_isThirdPoint (hy1 : y1 < D.M) :
    ∃ x3 y3, affTangent D l x1 y1 = .pt x3 y3 ∧ IsThirdPoint D x1 y1 x1 x3 y3 (logical D l) := by
  have hM : 0 < D.M := hD.M_pos
  refine ⟨_, _, rfl, ?_, ?_⟩
  · rw [logical_modSub (modMulSmall_lt hM _ _), logical_mulD, logical_modMulSmall]
    push_cast
    ring
  · rw [logical_modSub hy1, logical_mulD, logical_modSub (modSub_lt (mulD_lt hM _ _))]

theorem affChord_isThirdPoint (hx1 : x1 < D.M) (hy1 : y1 < D.M) (hx2 : x2 < D.M) :
    ∃ x3 y3, affChord D l x1 y1 x2 = .pt x3 y3 ∧ IsThirdPoint D x1 y1 x2 x3 y3 (logical D l) := by
  have hM : 0 < D.M := hD.M_pos
  refine ⟨_, _, rfl, ?_, ?_⟩
  · rw [logical_modSub hx2, logical_modSub hx1, logical_mulD, sq]
  · rw [logical_modSub hy1, logical_mulD, logical_modSub (modSub_lt (modSub_lt (mulD_lt hM _ _)))]

/-- Where neither operand is infinity and they are not inverse, a sum is the third point of their line. -/
theorem affAdd_isThirdPoint (hP : (Affine.pt x1 y1).Canonical D.M) (hQ : (Affine.pt x2 y2).Canonical D.M) {r : Affine}
    (hr : affAdd D A (.pt x1 y1) (.pt x2 y2) = .ok r) (hne : x1 = x2 → y1 = y2 ∧ y1 ≠ 0) :
    ∃ x3 y3 l, r = .pt x3 y3 ∧ IsSlope D A x1 y1 x2 y2 l ∧ IsThirdPoint D x1 y1 x2 x3 y3 l := by
  have hM : 0 < D.M := hD.M_pos
  obtain ⟨hx1, hy1⟩ := hP
  obtain ⟨hx2, hy2⟩ := hQ
  by_cases hx : x1 = x2
  · obtain ⟨rfl, h0⟩ := hne hx
    subst hx
    rw [affAdd_tangent x1 h0] at hr
    obtain ⟨l, hl, rfl⟩ := map_eq_ok hr
    obtain ⟨x3, y3, hpt, hthird⟩ := affTangent_isThirdPoint hD (l := l) (x1 := x1) hy1
    refine ⟨x3, y3, _, hpt, (if_pos rfl).mpr ?_, hthird⟩
    have hslope := (logical_divD hD (modMulSmall_lt hM _ _) hl).2
    rw [logical_modAdd, logical_modMulSmall, logical_modMulSmall, logical_mulD] at hslope
    push_cast at hslope
    linear_combination hslope
  · rw [affAdd_chord y1 y2 hx] at hr
    obtain ⟨l, hl, rfl⟩ := map_eq_ok hr
    obtain ⟨x3, y3, hpt, hthird⟩ := affChord_isThirdPoint hD (l := l) hx1 hy1 hx2
    refine ⟨x3, y3, _, hpt, (if_neg hx).mpr ?_, hthird⟩
    have hslope := (logical_divD hD (modSub_lt hx2) hl).2
    rw [logical_modSub hy1, logical_modSub hx1] at hslope
    linear_combination hslope

/-- With a prime modulus above 2 the divisors of the group law are units, so no sum fails. -/
theorem affAdd_answers_of_prime (hp : D.M.Prime) (h2 : 2 < D.M) {P Q : Affine} (hP : P.Canonical D.M) (hQ : Q.Canonical D.M) :
    ∃ r, affAdd D A P Q = .ok r := by
  have hM : 0 < D.M := by omega
  cases P with
  | inf => exact ⟨Q, affAdd_inf_left Q⟩
  | pt x1 y1 =>
    cases Q with
    | inf => exact ⟨_, affAdd_inf_right _⟩
    | pt x2 y2 =>
      obtain ⟨hx1, hy1⟩ := hP
      obtain ⟨hx2, hy2⟩ := hQ
      by_cases hx : x1 = x2
      · subst hx
        by_cases hy : y1 ≠ y2 ∨ y1 = 0
        · exact ⟨_, affAdd_opposite hy⟩
        · obtain ⟨rfl, h0⟩ : y1 = y2 ∧ y1 ≠ 0 := by tauto
          have hunit : IsUnit (logical D (modMulSmall D.M 2 y1)) := by
            rw [logical_modMulSmall]
            exact (isUnit_two_of_prime hp h2).mul (isUnit_logical_of_prime hD hp hy1 h0)
          obtain ⟨l, hl⟩ := divD_ok hD (modAdd D.M (modMulSmall D.M 3 (mulD D x1 x1)) A) (modMulSmall_lt hM _ _) hunit
          exact ⟨_, by rw [affAdd_tangent x1 h0, hl, Except.map]⟩
      · have hunit : IsUnit (logical D (modSub D.M x2 x1)) := by
          rw [logical_modSub hx1]
          exact isUnit_logical_sub_of_prime hD hp hx1 hx2 hx
        obtain ⟨l, hl⟩ := divD_ok hD (modSub D.M y2 y1) (modSub_lt hx2) hunit
        exact ⟨_, by rw [affAdd_chord y1 y2 hx, hl, Except.map]⟩

end

/-! ### Completed affine commands (44_affine.md R196; 46_scalar_mult.md R232) -/

section
variable {s t : State} (h : s.CurveReady) {d a b : Fin 4} {k : FReg} (herr : t.err = .noError)
include h herr

theorem affAdd_of_exec_aadd (ht : exec (.aadd (pnum d) (pnum a) (pnum b)) s = .next t) :
    ∃ r, affAdd s.curve s.A (s.readAff a) (s.readAff b) = .ok r ∧ t = wroteAff s d r := by
  cases hx : affAdd s.curve s.A (s.readAff a) (s.readAff b) with
  | ok r => exact ⟨r, rfl, (Host.Outcome.next.inj ((exec_aadd_of_ok h d hx).symm.trans ht)).symm⟩
  | error c =>
    obtain rfl := Host.Outcome.next.inj ((exec_aadd_of_error h d hx).symm.trans ht)
    rcases affAdd_error hx with rfl | rfl <;> cases herr

theorem affMul_of_exec_amul (ht : exec (.amul (pnum d) (pnum a) k) s = .next t) :
    ∃ r, affMul s.curve s.A s.width.bits (s.readAff a) (s.F k) = .ok r ∧ t = wroteAff s d r := by
  cases hx : affMul s.curve s.A s.width.bits (s.readAff a) (s.F k) with
  | ok r => exact ⟨r, rfl, (Host.Outcome.next.inj ((exec_amul_of_ok h d hx).symm.trans ht)).symm⟩
  | error c =>
    obtain rfl := Host.Outcome.next.inj ((exec_amul_of_error h d hx).symm.trans ht)
    rcases affMul_error hx with rfl | rfl <;> cases herr

end

/-- Settles O48: the written register's view is the sum, and the sum is taken case by case. -/
theorem aaddFollowsChordAndTangent : Obligations.AaddFollowsChordAndTangent := by
  intro s t d a b h ht herr
  obtain ⟨r, hr, rfl⟩ := affAdd_of_exec_aadd h herr ht
  have hM : 0 < s.M := h.1.M_pos
  have hP := h.readAff_canonical a
  have hQ := h.readAff_canonical b
  rw [readAff_wroteAff d (affAdd_canonical (D := s.curve) hM hP hQ hr) hM]
  refine ⟨fun ha => ?_, fun hb => ?_, fun x1 y1 x2 y2 ha hb => ⟨fun hx hy => ?_, fun hne => ?_⟩⟩
  · rw [ha, affAdd_inf_left] at hr
    exact (Except.ok.inj hr).symm
  · rw [hb, affAdd_inf_right] at hr
    exact (Except.ok.inj hr).symm
  · rw [ha, hb, hx, affAdd_opposite hy] at hr
    exact (Except.ok.inj hr).symm
  · rw [ha, hb] at hr
    obtain ⟨x3, y3, l, hpt, hslope, hx3, hy3⟩ := affAdd_isThirdPoint h.usable (ha ▸ hP) (hb ▸ hQ) hr hne
    exact ⟨x3, y3, l, hpt, hslope, hx3, hy3⟩

/-! ### The double-and-add loop (46_scalar_mult.md R230, R232) -/

section
variable {D : Domain} {A k : Nat}

/-- One turn of the loop. -/
theorem affMulLoop_succ {n i : Nat} {r0 r1 r : Affine} : affMulLoop D A k (n + 1) i r0 r1 = .ok r ↔
    ∃ r0', affAddIf D A (k.testBit i) r0 r1 = .ok r0' ∧ ∃ r1', affAdd D A r1 r1 = .ok r1' ∧
      affMulLoop D A k n (i + 1) r0' r1' = .ok r := by
  simp only [affMulLoop, bind_eq_ok]

/-- Where the scalar has no bit left, the loop answers what it has added up. -/
theorem affMulLoop_of_lt : ∀ {n i : Nat} {r0 r1 r : Affine}, k < 2 ^ i → affMulLoop D A k n i r0 r1 = .ok r → r = r0
  | 0, _, _, _, _, _, h => (Except.ok.inj h).symm
  | n + 1, i, r0, r1, r, hk, h => by
    obtain ⟨r0', h0, r1', -, h⟩ := affMulLoop_succ.1 h
    rw [Nat.testBit_eq_false_of_lt hk] at h0
    have hk' : k < 2 ^ (i + 1) := hk.trans_le (Nat.pow_le_pow_right (by decide) (Nat.le_succ i))
    exact (affMulLoop_of_lt hk' h).trans (Except.ok.inj h0).symm

/-- Infinity doubled and added stays infinity. -/
theorem affMulLoop_inf : ∀ {n i : Nat} {r : Affine}, affMulLoop D A k n i .inf .inf = .ok r → r = .inf
  | 0, _, _, h => (Except.ok.inj h).symm
  | n + 1, i, r, h => by
    obtain ⟨r0', h0, r1', h1, h⟩ := affMulLoop_succ.1 h
    obtain rfl : r0' = .inf := by
      cases hb : k.testBit i <;> rw [hb] at h0 <;> exact (Except.ok.inj h0).symm
    obtain rfl : r1' = .inf := (Except.ok.inj h1).symm
    exact affMulLoop_inf h

section
variable {W : Nat} {P r : Affine}

theorem affMul_by_zero (h : affMul D A W P 0 = .ok r) : r = .inf := affMulLoop_of_lt (by decide) h

theorem affMul_by_one (h : affMul D A (W + 1) P 1 = .ok r) : r = P := by
  obtain ⟨r0, h0, r1, -, h⟩ := affMulLoop_succ.1 h
  obtain rfl : r = r0 := affMulLoop_of_lt (by decide) h
  exact (Except.ok.inj ((affAdd_inf_left P).symm.trans h0)).symm

/-- The first bit of 2 is 0, so what the loop adds to infinity is the first double. -/
theorem affMul_by_two (h : affMul D A (W + 2) P 2 = .ok r) : affAdd D A P P = .ok r := by
  obtain ⟨r0, h0, r1, h1, h⟩ := affMulLoop_succ.1 h
  obtain rfl : Affine.inf = r0 := Except.ok.inj h0
  obtain ⟨r0', h0', r1', -, h⟩ := affMulLoop_succ.1 h
  obtain rfl : r = r0' := affMulLoop_of_lt (by decide) h
  rwa [← Except.ok.inj ((affAdd_inf_left r1).symm.trans h0')]

theorem affMul_of_inf (h : affMul D A W .inf k = .ok r) : r = .inf := affMulLoop_inf h

end

/-- With a prime modulus above 2 no turn of the loop fails. -/
theorem affMulLoop_answers_of_prime (hD : D.Usable) (hp : D.M.Prime) (h2 : 2 < D.M) :
    ∀ {n i : Nat} {r0 r1 : Affine}, r0.Canonical D.M → r1.Canonical D.M → ∃ r, affMulLoop D A k n i r0 r1 = .ok r
  | 0, _, r0, _, _, _ => ⟨r0, rfl⟩
  | n + 1, i, r0, r1, hr0, hr1 => by
    have hM : 0 < D.M := by omega
    obtain ⟨r1', h1⟩ := affAdd_answers_of_prime hD (A := A) hp h2 hr1 hr1
    obtain ⟨r0', h0, hr0'⟩ : ∃ r0', affAddIf D A (k.testBit i) r0 r1 = .ok r0' ∧ r0'.Canonical D.M := by
      cases k.testBit i with
      | false => exact ⟨r0, rfl, hr0⟩
      | true =>
        obtain ⟨r0', h0⟩ := affAdd_answers_of_prime hD (A := A) hp h2 hr0 hr1
        exact ⟨r0', h0, affAdd_canonical hM hr0 hr1 h0⟩
    obtain ⟨r, h⟩ := affMulLoop_answers_of_prime hD hp h2 hr0' (affAdd_canonical hM hr1 hr1 h1)
    exact ⟨r, affMulLoop_succ.2 ⟨r0', h0, r1', h1, h⟩⟩

end

theorem affMul_answers_of_prime {D : Domain} (hD : D.Usable) (hp : D.M.Prime) (h2 : 2 < D.M) {P : Affine} (hP : P.Canonical D.M)
    (A W k : Nat) : ∃ r, affMul D A W P k = .ok r :=
  affMulLoop_answers_of_prime hD hp h2 (r0 := .inf) trivial hP

/-- Either width has the two bits that the small scalars need. -/
theorem bits_eq_add_two (w : Width) : ∃ n, w.bits = n + 2 := by
  cases w
  · exact ⟨62, rfl⟩
  · exact ⟨254, rfl⟩

/-- Settles O58: the loop adds nothing where the scalar has no bit left. -/
theorem amulBySmallScalars : Obligations.AmulBySmallScalars := by
  intro s t d a k h ht herr
  obtain ⟨r, hr, rfl⟩ := affMul_of_exec_amul h herr ht
  obtain ⟨n, hn⟩ := bits_eq_add_two s.width
  rw [hn] at hr
  refine ⟨fun hk => ?_, fun hk => ?_, fun hk => ?_, fun ha => ?_⟩
  · rw [hk] at hr
    rw [affMul_by_zero hr]
  · rw [hk] at hr
    rw [affMul_by_one hr]
  · rw [hk] at hr
    exact exec_adbl_of_ok h d (affMul_by_two hr)
  · rw [ha] at hr
    rw [affMul_of_inf hr]

/-! ### A prime modulus (43_inverse.md R172 to R175) -/

/-- With a prime modulus every Jacobian value has an affine form. -/
theorem toAff_answers_of_prime {D : Domain} (hD : D.Usable) (hp : D.M.Prime) {J : Jacobian} (hz : J.z < D.M) :
    ∃ r, toAff D J = .ok r := by
  by_cases h0 : J.z = 0
  · exact ⟨_, toAff_of_z_eq_zero h0⟩
  · obtain ⟨x, y, hr, -⟩ := toAff_of_coprime hD hz (Nat.coprime_of_lt_prime h0 hz hp).symm
    exact ⟨_, hr⟩

/-- Settles O49: a nonzero residue of a prime is a unit, and so are the divisors of the group law. -/
theorem primeModulusNeverFailsInversion : Obligations.PrimeModulusNeverFailsInversion := by
  refine ⟨fun s rd ra rb h hp h2 h0 => ?_, fun s d a b k h hp h2 => ?_⟩
  · have hg : Nat.gcd (s.F rb) s.M = 1 :=
      (gcd_red s.M (s.F rb)).symm.trans (Nat.coprime_of_lt_prime h0 (red_lt h.M_pos _) hp).symm
    obtain ⟨-, -, hfinv⟩ := finvComputesInverse
    obtain ⟨-, -, hfdiv⟩ := fdivComputesQuotient
    obtain ⟨-, -, -, hmont⟩ := minvMdivInMontgomeryForm
    refine ⟨?_, ?_, fun hm => ?_⟩
    · obtain ⟨x, hx, -⟩ := (hfinv s rd rb h).2.2 hg
      exact ⟨x, hx⟩
    · obtain ⟨x, hx, -⟩ := (hfdiv s rd ra rb h).2.2 hg
      exact ⟨x, hx⟩
    · obtain ⟨⟨x, hx, -⟩, y, hy, -⟩ := (hmont s rd ra rb hm).2.2 hg
      exact ⟨⟨x, hx⟩, y, hy⟩
  · have hD := h.usable
    have hP := h.readAff_canonical a
    have hQ := h.readAff_canonical b
    obtain ⟨-, -, hz⟩ := h.readJac_canonical a
    obtain ⟨r, hr⟩ := affAdd_answers_of_prime hD (A := s.A) hp h2 hP hQ
    obtain ⟨r', hr'⟩ := affAdd_answers_of_prime hD (A := s.A) hp h2 hP hP
    obtain ⟨m, hm⟩ := affMul_answers_of_prime hD hp h2 hP s.A s.width.bits (s.F k)
    obtain ⟨c, hc⟩ := toAff_answers_of_prime hD hp hz
    exact ⟨⟨r, exec_aadd_of_ok h d hr⟩, ⟨r', exec_adbl_of_ok h d hr'⟩, ⟨m, exec_amul_of_ok h d hm⟩, c, exec_jtoa_of_ok h d hc⟩

end Sys2Proof.Machine
end

section
/-! The Jacobian group law case by case, and its agreement with the affine one (45_jacobian.md R215, R216; 46_scalar_mult.md R231,
R233). -/

namespace Sys2Proof.Machine

/-! ### `jacAdd` case by case (45_jacobian.md R216) -/

section
variable {D : Domain} {A : Nat} {P Q : Jacobian}

theorem jacAdd_both_infinite (hP : P.z = 0) (hQ : Q.z = 0) : jacAdd D A P Q = jacInf D := if_pos ⟨hP, hQ⟩

theorem jacAdd_left_infinite (hP : P.z = 0) (hQ : Q.z ≠ 0) : jacAdd D A P Q = Q := by
  rw [jacAdd, if_neg fun h => hQ h.2, if_pos hP]

theorem jacAdd_right_infinite (hP : P.z ≠ 0) (hQ : Q.z = 0) : jacAdd D A P Q = P := by
  rw [jacAdd, if_neg fun h => hP h.1, if_neg hP, if_pos hQ]

/-- `X1·Z2²` of R216: the abscissa of the first operand over the common denominator. -/
def crossX (D : Domain) (P Q : Jacobian) : Nat := mulD D P.x (mulD D Q.z Q.z)

/-- `Y1·Z2³` of R216: the ordinate of the first operand over the common denominator. -/
def crossY (D : Domain) (P Q : Jacobian) : Nat := mulD D P.y (mulD D (mulD D Q.z Q.z) Q.z)

/-- Two finite operands: compared over the common denominator, then the chord, the doubling or infinity. -/
theorem jacAdd_finite (hP : P.z ≠ 0) (hQ : Q.z ≠ 0) : jacAdd D A P Q =
    if crossX D P Q = crossX D Q P then
      if crossY D P Q ≠ crossY D Q P then jacInf D else jacDouble D A P (mulD D P.z P.z)
    else jacChord D (crossX D P Q) (crossX D Q P) (crossY D P Q) (crossY D Q P) P.z Q.z := by
  rw [jacAdd, if_neg fun h => hP h.1, if_neg hP, if_neg hQ]
  rfl

theorem logical_crossX : logical D (crossX D P Q) = logical D P.x * logical D Q.z ^ 2 := by
  rw [crossX, logical_mulD, logical_mulD, sq]

theorem logical_crossY : logical D (crossY D P Q) = logical D P.y * logical D Q.z ^ 3 := by
  rw [crossY, logical_mulD, logical_mulD, logical_mulD, ← sq, ← pow_succ]

end

/-! ### The formulas on logical values -/

section
variable {D : Domain} (hM : 0 < D.M) {A : Nat} {P : Jacobian}
include hM

/-- The doubling formulas. -/
theorem logical_jacDouble :
    let v := logical D
    let J := jacDouble D A P (mulD D P.z P.z)
    let m := 3 * v P.x ^ 2 + v A * v P.z ^ 4
    let w := 4 * v P.x * v P.y ^ 2
    v J.x = m ^ 2 - 2 * w ∧ v J.y = m * (w - v J.x) - 8 * v P.y ^ 4 ∧ v J.z = 2 * v P.y * v P.z := by
  have hsmall (k a : Nat) : modMulSmall D.M k a < D.M := modMulSmall_lt hM k a
  dsimp only [jacDouble]
  refine ⟨?_, ?_, ?_⟩
  · rw [logical_modSub (hsmall _ _)]
    simp only [logical_mulD, logical_modAdd, logical_modMulSmall]
    push_cast
    ring
  · rw [logical_modSub (hsmall _ _), logical_mulD, logical_modSub (modSub_lt (mulD_lt hM _ _))]
    simp only [logical_mulD, logical_modAdd, logical_modMulSmall]
    push_cast
    ring
  · simp only [logical_mulD, logical_modMulSmall]
    push_cast
    ring

theorem crossX_lt (P Q : Jacobian) : crossX D P Q < D.M := mulD_lt hM _ _

theorem crossY_lt (P Q : Jacobian) : crossY D P Q < D.M := mulD_lt hM _ _

/-- The formulas of the general case. -/
theorem logical_jacChord (P Q : Jacobian) :
    let v := logical D
    let J := jacChord D (crossX D P Q) (crossX D Q P) (crossY D P Q) (crossY D Q P) P.z Q.z
    let u1 := v P.x * v Q.z ^ 2
    let h := v Q.x * v P.z ^ 2 - u1
    let s1 := v P.y * v Q.z ^ 3
    let r := v Q.y * v P.z ^ 3 - s1
    v J.x = r ^ 2 - h ^ 3 - 2 * u1 * h ^ 2 ∧ v J.y = r * (u1 * h ^ 2 - v J.x) - s1 * h ^ 3 ∧ v J.z = h * v P.z * v Q.z := by
  have hprod (a b : Nat) : mulD D a b < D.M := mulD_lt hM a b
  have hu1 := crossX_lt hM P Q
  have hs1 := crossY_lt hM P Q
  dsimp only [jacChord]
  refine ⟨?_, ?_, ?_⟩
  · rw [logical_modSub (modMulSmall_lt hM _ _), logical_modSub (hprod _ _), logical_modMulSmall]
    simp only [logical_mulD, logical_modSub hu1, logical_modSub hs1, logical_crossX, logical_crossY]
    push_cast
    ring
  · rw [logical_modSub (hprod _ _), logical_mulD, logical_modSub (modSub_lt (modSub_lt (hprod _ _)))]
    simp only [logical_mulD, logical_modSub hu1, logical_modSub hs1, logical_crossX, logical_crossY]
    ring
  · simp only [logical_mulD, logical_modSub hu1, logical_crossX]
    ring

end

section
variable {D : Domain} (hD : D.Usable) (P Q : Jacobian)
include hD

/-- Operands compared over the common denominator are compared by their logical values. -/
theorem crossX_eq_iff : crossX D P Q = crossX D Q P ↔ logical D P.x * logical D Q.z ^ 2 = logical D Q.x * logical D P.z ^ 2 := by
  rw [← logical_inj hD (crossX_lt hD.M_pos P Q) (crossX_lt hD.M_pos Q P), logical_crossX, logical_crossX]

theorem crossY_eq_iff : crossY D P Q = crossY D Q P ↔ logical D P.y * logical D Q.z ^ 3 = logical D Q.y * logical D P.z ^ 3 := by
  rw [← logical_inj hD (crossY_lt hD.M_pos P Q) (crossY_lt hD.M_pos Q P), logical_crossY, logical_crossY]

end

/-- Settles O55: the comparison over the common denominator is that of the logical values, and each branch has its formulas. -/
theorem jacobianFormulas : Obligations.JacobianFormulas := by
  intro s a b h D P Q J v u1 u2 s1 s2
  have hD : D.Usable := h.usable
  have hM : 0 < D.M := h.1.M_pos
  refine ⟨jacAdd_both_infinite, jacAdd_left_infinite, jacAdd_right_infinite, fun hP hQ hu hs => ?_, fun hP hQ hu hs => ?_,
    fun hP hQ hu => ?_⟩
  · have hJ : J = jacInf D := by
      rw [show J = _ from jacAdd_finite hP hQ, if_pos ((crossX_eq_iff hD P Q).2 hu), if_pos (mt (crossY_eq_iff hD P Q).1 hs)]
    exact hJ
  · have hJ : J = jacDouble D s.A P (mulD D P.z P.z) := by
      rw [show J = _ from jacAdd_finite hP hQ, if_pos ((crossX_eq_iff hD P Q).2 hu),
        if_neg (not_not.2 ((crossY_eq_iff hD P Q).2 hs))]
    rw [hJ]
    exact logical_jacDouble hM
  · have hJ : J = jacChord D (crossX D P Q) (crossX D Q P) (crossY D P Q) (crossY D Q P) P.z Q.z := by
      rw [show J = _ from jacAdd_finite hP hQ, if_neg (mt (crossX_eq_iff hD P Q).1 hu)]
    rw [hJ]
    exact logical_jacChord hM P Q

/-! ### The affine form under a prime modulus (45_jacobian.md R215) -/

section
variable {D : Domain} (hD : D.Usable) (hp : D.M.Prime)
include hD hp

theorem hasAffineForm_inf_iff {J : Jacobian} (hz : J.z < D.M) : HasAffineForm D J .inf ↔ J.z = 0 := by
  refine ⟨fun h => ?_, toAff_of_z_eq_zero⟩
  by_contra h0
  obtain ⟨x, y, hr, -⟩ := toAff_of_coprime hD hz (Nat.coprime_of_lt_prime h0 hz hp).symm
  cases h.symm.trans hr

/-- The affine form of a finite value is known by its two equations, since `Z` is a unit. -/
theorem hasAffineForm_pt_iff {J : Jacobian} (hz : J.z < D.M) {x y : Nat} : HasAffineForm D J (.pt x y) ↔
    J.z ≠ 0 ∧ x < D.M ∧ y < D.M ∧
      logical D x * logical D J.z ^ 2 = logical D J.x ∧ logical D y * logical D J.z ^ 3 = logical D J.y := by
  by_cases h0 : J.z = 0
  · refine ⟨fun h => ?_, fun h => absurd h0 h.1⟩
    cases (toAff_of_z_eq_zero h0).symm.trans h
  · have hunit := isUnit_logical_of_prime hD hp hz h0
    obtain ⟨x', y', hr, hx', hy', hxv', hyv'⟩ := toAff_of_coprime hD hz (Nat.coprime_of_lt_prime h0 hz hp).symm
    refine ⟨fun h => ?_, fun ⟨_, hx, hy, hxv, hyv⟩ => ?_⟩
    · cases hr.symm.trans h
      exact ⟨h0, hx', hy', hxv', hyv'⟩
    · have hxx : x' = x := eq_of_logical_eq hD hx' hx ((hunit.pow 2).mul_right_cancel (hxv'.trans hxv.symm))
      have hyy : y' = y := eq_of_logical_eq hD hy' hy ((hunit.pow 3).mul_right_cancel (hyv'.trans hyv.symm))
      rw [HasAffineForm, hr, hxx, hyy]

end

theorem hasAffineForm_jacInf (D : Domain) : HasAffineForm D (jacInf D) .inf := toAff_of_z_eq_zero rfl

/-! ### The sum of two finite values -/

section
variable {D : Domain} (hD : D.Usable) (hp : D.M.Prime) {A x1 y1 x2 y2 : Nat} {P Q : Jacobian}
  (hPc : P.Canonical D.M) (hQc : Q.Canonical D.M) (hP : HasAffineForm D P (.pt x1 y1)) (hQ : HasAffineForm D Q (.pt x2 y2))
include hD hp hPc hQc hP hQ

/-- Over the common denominator the abscissas agree as the affine ones do. -/
theorem crossX_eq_iff_of_form : crossX D P Q = crossX D Q P ↔ x1 = x2 := by
  obtain ⟨hP0, hx1, -, hX1, -⟩ := (hasAffineForm_pt_iff hD hp hPc.2.2).1 hP
  obtain ⟨hQ0, hx2, -, hX2, -⟩ := (hasAffineForm_pt_iff hD hp hQc.2.2).1 hQ
  have hunit := ((isUnit_logical_of_prime hD hp hPc.2.2 hP0).pow 2).mul ((isUnit_logical_of_prime hD hp hQc.2.2 hQ0).pow 2)
  rw [crossX_eq_iff hD, ← hX1, ← hX2, ← logical_inj hD hx1 hx2, mul_assoc, mul_assoc, mul_comm (logical D Q.z ^ 2)]
  exact hunit.mul_left_inj

/-- Over the common denominator the ordinates agree as the affine ones do. -/
theorem crossY_eq_iff_of_form : crossY D P Q = crossY D Q P ↔ y1 = y2 := by
  obtain ⟨hP0, -, hy1, -, hY1⟩ := (hasAffineForm_pt_iff hD hp hPc.2.2).1 hP
  obtain ⟨hQ0, -, hy2, -, hY2⟩ := (hasAffineForm_pt_iff hD hp hQc.2.2).1 hQ
  have hunit := ((isUnit_logical_of_prime hD hp hPc.2.2 hP0).pow 3).mul ((isUnit_logical_of_prime hD hp hQc.2.2 hQ0).pow 3)
  rw [crossY_eq_iff hD, ← hY1, ← hY2, ← logical_inj hD hy1 hy2, mul_assoc, mul_assoc, mul_comm (logical D Q.z ^ 3)]
  exact hunit.mul_left_inj

/-- The chord: with `z = Z1·Z2` and `δ = x2 - x1`, `H = δ·z²` and `r = δ·l·z³`. -/
theorem jacChord_hasAffineForm (hx : x1 ≠ x2) {r : Affine} (hr : affAdd D A (.pt x1 y1) (.pt x2 y2) = .ok r) :
    HasAffineForm D (jacChord D (crossX D P Q) (crossX D Q P) (crossY D P Q) (crossY D Q P) P.z Q.z) r := by
  obtain ⟨hP0, hx1, hy1, hX1, hY1⟩ := (hasAffineForm_pt_iff hD hp hPc.2.2).1 hP
  obtain ⟨hQ0, hx2, hy2, hX2, hY2⟩ := (hasAffineForm_pt_iff hD hp hQc.2.2).1 hQ
  obtain ⟨x3, y3, l, rfl, hslope, hx3, hy3⟩ := affAdd_isThirdPoint hD ⟨hx1, hy1⟩ ⟨hx2, hy2⟩ hr fun h => absurd h hx
  obtain ⟨hx3M, hy3M⟩ := affAdd_canonical hD.M_pos (P := .pt x1 y1) (Q := .pt x2 y2) ⟨hx1, hy1⟩ ⟨hx2, hy2⟩ hr
  obtain ⟨hJx, hJy, hJz⟩ := logical_jacChord hD.M_pos P Q
  have hdelta : logical D y2 = logical D y1 + (logical D x2 - logical D x1) * l := by
    rw [IsSlope, if_neg hx] at hslope
    linear_combination -hslope
  rw [← hX1, ← hX2] at hJz
  rw [← hX1, ← hX2, ← hY1, ← hY2, hdelta] at hJx hJy
  refine (hasAffineForm_pt_iff hD hp (mulD_lt hD.M_pos _ _)).2 ⟨?_, hx3M, hy3M, ?_, ?_⟩
  · have hunit := (isUnit_logical_sub_of_prime hD hp hx1 hx2 hx).mul
      (((isUnit_logical_of_prime hD hp hPc.2.2 hP0).pow 3).mul ((isUnit_logical_of_prime hD hp hQc.2.2 hQ0).pow 3))
    refine ne_zero_of_isUnit_logical hD (hJz ▸ ?_)
    convert hunit using 1
    ring
  · rw [hJx, hJz, hx3]
    ring
  · rw [hJy, hJz, hJx, hy3, hx3]
    ring

omit hQc hQ

/-- The tangent: `M = 2·y·l·Z⁴` and `Z3 = 2·y·Z⁴`. -/
theorem jacDouble_hasAffineForm (h2 : 2 < D.M) (hy : y1 ≠ 0) {r : Affine} (hr : affAdd D A (.pt x1 y1) (.pt x1 y1) = .ok r) :
    HasAffineForm D (jacDouble D A P (mulD D P.z P.z)) r := by
  obtain ⟨hP0, hx1, hy1, hX1, hY1⟩ := (hasAffineForm_pt_iff hD hp hPc.2.2).1 hP
  obtain ⟨x3, y3, l, rfl, hslope, hx3, hy3⟩ := affAdd_isThirdPoint hD ⟨hx1, hy1⟩ ⟨hx1, hy1⟩ hr fun _ => ⟨rfl, hy⟩
  obtain ⟨hx3M, hy3M⟩ := affAdd_canonical hD.M_pos (P := .pt x1 y1) (Q := .pt x1 y1) ⟨hx1, hy1⟩ ⟨hx1, hy1⟩ hr
  obtain ⟨hJx, hJy, hJz⟩ := logical_jacDouble hD.M_pos (A := A) (P := P)
  have hA : logical D A = 2 * logical D y1 * l - 3 * logical D x1 ^ 2 := by
    rw [IsSlope, if_pos rfl] at hslope
    linear_combination -hslope
  rw [← hY1] at hJz
  rw [← hX1, ← hY1, hA] at hJx hJy
  refine (hasAffineForm_pt_iff hD hp (modMulSmall_lt hD.M_pos _ _)).2 ⟨?_, hx3M, hy3M, ?_, ?_⟩
  · have hunit := ((isUnit_two_of_prime hp h2).mul (isUnit_logical_of_prime hD hp hy1 hy)).mul
      ((isUnit_logical_of_prime hD hp hPc.2.2 hP0).pow 4)
    refine ne_zero_of_isUnit_logical hD (hJz ▸ ?_)
    convert hunit using 1
    push_cast
    ring
  · rw [hJx, hJz, hx3]
    ring
  · rw [hJy, hJz, hJx, hy3, hx3]
    ring

end

/-- A double of a value with `Y = 0` is infinite. -/
theorem jacDouble_z_eq_zero {D : Domain} (hD : D.Usable) {A : Nat} {P : Jacobian} (hy : logical D P.y = 0) :
    (jacDouble D A P (mulD D P.z P.z)).z = 0 := by
  obtain ⟨-, -, hJz⟩ := logical_jacDouble hD.M_pos (A := A) (P := P)
  refine (logical_eq_zero hD (modMulSmall_lt hD.M_pos _ _)).1 (hJz.trans ?_)
  rw [hy, mul_zero, zero_mul]

/-! ### The two units agree -/

section
variable {D : Domain} (hD : D.Usable) (hp : D.M.Prime) (h2 : 2 < D.M) {A : Nat}
include hD hp h2

/-- The affine form of the Jacobian sum is the sum of the affine forms, when that is taken. -/
theorem jacAdd_hasAffineForm {P Q : Jacobian} {p q r : Affine} (hPc : P.Canonical D.M) (hQc : Q.Canonical D.M)
    (hP : HasAffineForm D P p) (hQ : HasAffineForm D Q q) (hr : affAdd D A p q = .ok r) : HasAffineForm D (jacAdd D A P Q) r := by
  cases p with
  | inf =>
    have hP0 := (hasAffineForm_inf_iff hD hp hPc.2.2).1 hP
    obtain rfl := Except.ok.inj ((affAdd_inf_left q).symm.trans hr)
    by_cases hQ0 : Q.z = 0
    · rw [jacAdd_both_infinite hP0 hQ0]
      obtain rfl := Except.ok.inj ((toAff_of_z_eq_zero hQ0).symm.trans hQ)
      exact hasAffineForm_jacInf D
    · rwa [jacAdd_left_infinite hP0 hQ0]
  | pt x1 y1 =>
    obtain ⟨hP0, -⟩ := (hasAffineForm_pt_iff hD hp hPc.2.2).1 hP
    cases q with
    | inf =>
      obtain rfl := Except.ok.inj ((affAdd_inf_right (.pt x1 y1)).symm.trans hr)
      rwa [jacAdd_right_infinite hP0 ((hasAffineForm_inf_iff hD hp hQc.2.2).1 hQ)]
    | pt x2 y2 =>
      obtain ⟨hQ0, -⟩ := (hasAffineForm_pt_iff hD hp hQc.2.2).1 hQ
      have hX := crossX_eq_iff_of_form hD hp hPc hQc hP hQ
      have hY := crossY_eq_iff_of_form hD hp hPc hQc hP hQ
      rw [jacAdd_finite hP0 hQ0]
      by_cases hx : x1 = x2
      · rw [if_pos (hX.2 hx)]
        subst hx
        by_cases hy : y1 = y2
        · rw [if_neg (not_not.2 (hY.2 hy))]
          subst hy
          by_cases hy0 : y1 = 0
          · obtain rfl := Except.ok.inj ((affAdd_opposite (.inr hy0)).symm.trans hr)
            refine toAff_of_z_eq_zero (jacDouble_z_eq_zero hD ?_)
            obtain ⟨-, -, -, -, hY1⟩ := (hasAffineForm_pt_iff hD hp hPc.2.2).1 hP
            rw [← hY1, hy0, logical_zero, zero_mul]
          · exact jacDouble_hasAffineForm hD hp hPc hP h2 hy0 hr
        · rw [if_pos (mt hY.1 hy)]
          obtain rfl := Except.ok.inj ((affAdd_opposite (.inl hy)).symm.trans hr)
          exact hasAffineForm_jacInf D
      · rw [if_neg (mt hX.1 hx)]
        exact jacChord_hasAffineForm hD hp hPc hQc hP hQ hx hr

/-- The two loops keep in step, turn by turn. -/
theorem jacMulLoop_hasAffineForm {k : Nat} :
    ∀ {n i : Nat} {R0 R1 : Jacobian} {r0 r1 r : Affine}, R0.Canonical D.M → R1.Canonical D.M →
    HasAffineForm D R0 r0 → HasAffineForm D R1 r1 → affMulLoop D A k n i r0 r1 = .ok r →
    HasAffineForm D (jacMulLoop D A k n i R0 R1) r
  | 0, _, _, _, _, _, _, _, _, h0, _, h => Except.ok.inj h ▸ h0
  | n + 1, i, R0, R1, r0, r1, r, hR0, hR1, h0, h1, h => by
    have hM : 1 < D.M := hD.1
    have hR : D.R < D.M := hD.2.1
    obtain ⟨r0', hr0, r1', hr1, h⟩ := affMulLoop_succ.1 h
    have hstep1 := jacAdd_hasAffineForm hD hp h2 hR1 hR1 h1 h1 hr1
    have hcanon1 : (jacAdd D A R1 R1).Canonical D.M := jacAdd_canonical hM hR hR1 hR1
    rw [jacMulLoop]
    cases hb : k.testBit i with
    | false =>
      rw [hb] at hr0
      obtain rfl := Except.ok.inj hr0
      exact jacMulLoop_hasAffineForm hR0 hcanon1 h0 hstep1 h
    | true =>
      rw [hb] at hr0
      exact jacMulLoop_hasAffineForm (jacAdd_canonical hM hR hR0 hR1) hcanon1
        (jacAdd_hasAffineForm hD hp h2 hR0 hR1 h0 h1 hr0) hstep1 h

end

/-- Settles O56: the sum of the affine forms exists under a prime modulus, and it is the affine form of the Jacobian sum. -/
theorem jacobianAddAgreesWithAffine : Obligations.JacobianAddAgreesWithAffine := by
  intro s a b h hp h2
  have hD := h.usable
  have hP := h.readJac_canonical a
  have hQ := h.readJac_canonical b
  obtain ⟨p, hp'⟩ := toAff_answers_of_prime hD hp hP.2.2
  obtain ⟨q, hq⟩ := toAff_answers_of_prime hD hp hQ.2.2
  obtain ⟨r, hr⟩ := affAdd_answers_of_prime hD (A := s.A) hp h2 (toAff_canonical hD.M_pos hp') (toAff_canonical hD.M_pos hq)
  exact ⟨p, q, r, hp', hq, hr, jacAdd_hasAffineForm hD hp h2 hP hQ hp' hq hr⟩

/-- Settles O60: the two loops keep in step from infinity and the point. -/
theorem jmulAgreesWithAmul : Obligations.JmulAgreesWithAmul := by
  intro s a k h hp h2
  have hD := h.usable
  have hP := h.readJac_canonical a
  obtain ⟨p, hp'⟩ := toAff_answers_of_prime hD hp hP.2.2
  obtain ⟨r, hr⟩ := affMul_answers_of_prime hD hp h2 (toAff_canonical hD.M_pos hp') s.A s.width.bits (s.F k)
  exact ⟨p, r, hp', hr, jacMulLoop_hasAffineForm hD hp h2 (jacInf_canonical hD.1 hD.2.1) hP (hasAffineForm_jacInf _) hp' hr⟩

/-! ### Small scalars (46_scalar_mult.md R233) -/

section
variable {D : Domain} {A k : Nat}

/-- Where the scalar has no bit left, the loop answers what it has added up. -/
theorem jacMulLoop_of_lt : ∀ {n i : Nat} {r0 r1 : Jacobian}, k < 2 ^ i → jacMulLoop D A k n i r0 r1 = r0
  | 0, _, _, _, _ => rfl
  | n + 1, i, r0, r1, hk => by
    have hk' : k < 2 ^ (i + 1) := hk.trans_le (Nat.pow_le_pow_right (by decide) (Nat.le_succ i))
    rw [jacMulLoop, Nat.testBit_eq_false_of_lt hk]
    exact jacMulLoop_of_lt hk'

/-- An infinite value doubled and added to `JInf_d` gives `JInf_d`. -/
theorem jacMulLoop_inf : ∀ {n i : Nat} {r1 : Jacobian}, r1.z = 0 → jacMulLoop D A k n i (jacInf D) r1 = jacInf D
  | 0, _, _, _ => rfl
  | n + 1, i, r1, hz => by
    rw [jacMulLoop, jacAdd_both_infinite rfl hz, jacAdd_both_infinite hz hz, ite_self]
    exact jacMulLoop_inf rfl

section
variable {W : Nat} {P : Jacobian}

theorem jacMul_by_zero : jacMul D A W P 0 = jacInf D := jacMulLoop_of_lt (by decide)

theorem jacMul_of_infinite (hz : P.z = 0) : jacMul D A W P k = jacInf D := jacMulLoop_inf hz

theorem jacMul_by_one (hz : P.z ≠ 0) : jacMul D A (W + 1) P 1 = P :=
  (jacMulLoop_of_lt (i := 1) (by decide)).trans (jacAdd_left_infinite (P := jacInf D) rfl hz)

/-- The first bit of 2 is 0, so what the loop adds to `JInf_d` is the first double. -/
theorem jacMul_by_two (hz : (jacAdd D A P P).z ≠ 0) : jacMul D A (W + 2) P 2 = jacAdd D A P P :=
  (jacMulLoop_of_lt (i := 2) (by decide)).trans (jacAdd_left_infinite (P := jacInf D) rfl hz)

end

end

/-- Settles O59: the prologue, then `jacMul`, whose loop adds nothing where the scalar has no bit left. -/
theorem jmulAppliesDoubleAndAdd : Obligations.JmulAppliesDoubleAndAdd := by
  refine ⟨encodedAs_PK rfl fun w hopc => by simp only [decode, hopc],
    fun d a k => needsCurve_of_requireConfig fun s => exec_jmul_pnum s d a k, fun s d a k h => ?_⟩
  obtain ⟨n, hn⟩ := bits_eq_add_two s.width
  refine ⟨exec_jmul h d, ?_, fun hz hk => ?_, fun hk hz => ?_⟩
  · rintro (hk | hz)
    · rw [hk]
      exact jacMul_by_zero
    · exact jacMul_of_infinite hz
  · rw [hk, hn]
    exact jacMul_by_one hz
  · rw [exec_jmul h d, exec_jdbl h d, hk, hn, jacMul_by_two hz]

end Sys2Proof.Machine
end

section
/-! The Montgomery domain mirrors the standard one (42_multiplier.md R143 to R147): what is computed of entered values is the entered
result. A canonical residue is known by its logical value, which an entered value takes from the number it was entered from. -/

namespace Sys2Proof.Machine

/-- The standard domain with the constants of `D`. -/
def Domain.standard (D : Domain) : Domain := { D with mont := false }

theorem Domain.Usable.standard {D : Domain} (hD : D.Usable) : D.standard.Usable := ⟨hD.1, hD.2.1, hD.2.2.1, nofun⟩

/-! ### Answers mapped, mirrored step by step -/

section
variable {ε α α' β β' : Type} {g : α → α'} {f : β → β'}

theorem map_map {γ : Type} (h : β → γ) (k : α → β) (x : Except ε α) : (x.map k).map h = x.map fun a => h (k a) := by
  cases x <;> rfl

/-- A mapped answer continued is the continued answer mapped, when the continuations mirror each other. -/
theorem bind_map_mirror {x : Except ε α} {y : Except ε α'} {k : α → Except ε β} {k' : α' → Except ε β'} (hx : y = x.map g)
    (hk : ∀ a, x = .ok a → k' (g a) = (k a).map f) : (y >>= k') = (x >>= k).map f := by
  subst hx
  cases x with
  | ok a => exact hk a rfl
  | error e => rfl

end

theorem affAddIf_canonical {D : Domain} {A : Nat} {b : Bool} {P Q r : Affine} (hM : 0 < D.M) (hP : P.Canonical D.M)
    (hQ : Q.Canonical D.M) (h : affAddIf D A b P Q = .ok r) : r.Canonical D.M := by
  cases b with
  | false => exact Except.ok.inj h ▸ hP
  | true => exact affAdd_canonical hM hP hQ h

/-! ### The primitives -/

section
variable {D : Domain} (hD : D.Usable) (hm : D.mont = true)
include hD hm

theorem encD_lt_M (x : Nat) : encD D x < D.M := by
  rw [encD, if_pos hm]
  exact modMul_lt hD.M_pos _ _

/-- An entered value is the canonical residue with that logical value. -/
theorem eq_encD_of_logical {b x : Nat} (hb : b < D.M) (h : logical D b = x) : b = encD D x :=
  eq_of_logical_eq hD hb (encD_lt_M hD hm x) (h.trans (logical_encD hD x).symm)

omit hm in
theorem encD_inj {x y : Nat} (hx : x < D.M) (hy : y < D.M) : encD D x = encD D y ↔ x = y := by
  refine ⟨fun h => eq_of_cast_eq hx hy ?_, congrArg _⟩
  rw [← logical_encD hD, ← logical_encD hD, h]

theorem encD_zero : encD D 0 = 0 :=
  (eq_encD_of_logical hD hm hD.M_pos (logical_zero.trans Nat.cast_zero.symm)).symm

theorem encD_eq_zero {x : Nat} (hx : x < D.M) : encD D x = 0 ↔ x = 0 := by
  rw [← encD_inj hD hx hD.M_pos, encD_zero hD hm]

theorem decD_encD {x : Nat} (hx : x < D.M) : decD D (encD D x) = x :=
  eq_of_cast_eq (decD_lt hD.M_pos (encD_lt_M hD hm x)) hx (logical_encD hD x)

theorem encD_decD {x : Nat} (hx : x < D.M) : encD D (decD D x) = x :=
  (eq_encD_of_logical hD hm hx rfl).symm

theorem oneD_enc : oneD D = encD D (oneD D.standard) :=
  eq_encD_of_logical hD hm (oneD_lt_M hD) ((logical_oneD hD).trans Nat.cast_one.symm)

theorem mulD_enc (x y : Nat) : mulD D (encD D x) (encD D y) = encD D (mulD D.standard x y) := by
  refine eq_encD_of_logical hD hm (mulD_lt hD.M_pos _ _) ?_
  rw [logical_mulD, logical_encD hD, logical_encD hD]
  exact (modMul_cast D.M x y).symm

theorem modAdd_enc (x y : Nat) : modAdd D.M (encD D x) (encD D y) = encD D (modAdd D.M x y) := by
  refine eq_encD_of_logical hD hm (modAdd_lt hD.M_pos _ _) ?_
  rw [logical_modAdd, logical_encD hD, logical_encD hD, modAdd_cast]

theorem modSub_enc {y : Nat} (x : Nat) (hy : y < D.M) : modSub D.M (encD D x) (encD D y) = encD D (modSub D.M x y) := by
  refine eq_encD_of_logical hD hm (modSub_lt (encD_lt_M hD hm x)) ?_
  rw [logical_modSub (encD_lt_M hD hm y), logical_encD hD, logical_encD hD, modSub_cast hy.le]

theorem modNeg_enc {x : Nat} (hx : x < D.M) : modNeg D.M (encD D x) = encD D (modNeg D.M x) := by
  refine eq_encD_of_logical hD hm (modNeg_lt hD.M_pos _) ?_
  rw [logical_montgomery hm, modNeg_cast (encD_lt_M hD hm x).le, neg_mul, ← logical_montgomery hm, logical_encD hD, modNeg_cast hx.le]

theorem modMulSmall_enc (k x : Nat) : modMulSmall D.M k (encD D x) = encD D (modMulSmall D.M k x) := by
  refine eq_encD_of_logical hD hm (modMulSmall_lt hD.M_pos _ _) ?_
  rw [logical_modMulSmall, logical_encD hD, modMulSmall_cast]

/-- Both powers read the same low `W` bits of the exponent. -/
theorem powD_enc (W x e : Nat) : powD D W (encD D x) e = encD D (powD D.standard W x e) := by
  refine eq_encD_of_logical hD hm (powD_lt hD W _ e) ?_
  have hstandard : ((powD D.standard W x e : Nat) : ZMod D.M) = (x : ZMod D.M) ^ (e % 2 ^ W) := by
    refine (powLoop_standard (D := D.standard) rfl x e W (oneD D.standard)).trans ?_
    rw [show oneD D.standard = 1 from rfl, Nat.cast_one, one_pow, one_mul]
    rfl
  rw [powD, logical_powLoop, logical_oneD hD, logical_encD hD, one_pow, one_mul, hstandard]

/-- The divisor is 0, shares a factor with `M` or is a unit in both domains at once, and a quotient by a unit is unique. -/
theorem divD_enc (x : Nat) {y : Nat} (hy : y < D.M) : divD D (encD D x) (encD D y) = (divD D.standard x y).map (encD D) := by
  have hS := hD.standard
  by_cases h0 : y = 0
  · subst h0
    rw [encD_zero hD hm, divD_eq_error.2 (modInv_zero D.M), divD_eq_error.2 (modInv_zero D.standard.M), Except.map]
  · have h0' : encD D y ≠ 0 := mt (encD_eq_zero hD hm hy).1 h0
    have hgcd : Nat.gcd (encD D y) D.M = 1 ↔ Nat.gcd y D.M = 1 := by
      rw [coprime_iff_isUnit hD, logical_encD hD, ZMod.isUnit_iff_coprime]
    by_cases hg : Nat.gcd y D.M = 1
    · obtain ⟨l', hl'⟩ := divD_ok hD (encD D x) (encD_lt_M hD hm y) ((coprime_iff_isUnit hD _).1 (hgcd.2 hg))
      obtain ⟨l, hl⟩ := divD_ok hS x hy ((coprime_iff_isUnit hS y).1 hg)
      obtain ⟨hunit, hquot'⟩ := logical_divD hD (encD_lt_M hD hm y) hl'
      obtain ⟨-, hquot⟩ := logical_divD hS hy hl
      rw [hl', hl, Except.map]
      refine congrArg Except.ok (eq_encD_of_logical hD hm (divD_lt hD.M_pos hl') (hunit.mul_right_cancel ?_))
      rw [logical_standard rfl, logical_standard rfl, logical_standard rfl] at hquot
      rw [hquot', logical_encD hD, logical_encD hD]
      exact hquot.symm
    · rw [divD_eq_error.2 (modInv_of_not_coprime h0' hD.1 (mt hgcd.1 hg)),
        divD_eq_error.2 (modInv_of_not_coprime h0 hS.1 hg), Except.map]

/-! ### The affine group law (44_affine.md R191, R192) -/

theorem affTangent_enc (l x : Nat) {y : Nat} (hy : y < D.M) :
    affTangent D (encD D l) (encD D x) (encD D y) = encAffine D (affTangent D.standard l x y) := by
  have hx3 := modSub_lt (M := D.M) (b := modMulSmall D.M 2 x) (mulD_lt (D := D.standard) hD.M_pos l l)
  simp only [affTangent, mulD_enc hD hm, modMulSmall_enc hD hm, modSub_enc hD hm _ (modMulSmall_lt hD.M_pos 2 x),
    modSub_enc hD hm _ hx3, modSub_enc hD hm _ hy]
  rfl

theorem affChord_enc (l : Nat) {x1 y1 x2 : Nat} (hx1 : x1 < D.M) (hy1 : y1 < D.M) (hx2 : x2 < D.M) :
    affChord D (encD D l) (encD D x1) (encD D y1) (encD D x2) = encAffine D (affChord D.standard l x1 y1 x2) := by
  have hx3 := modSub_lt (M := D.M) (b := x2) (modSub_lt (M := D.M) (b := x1) (mulD_lt (D := D.standard) hD.M_pos l l))
  simp only [affChord, mulD_enc hD hm, modSub_enc hD hm _ hx1, modSub_enc hD hm _ hx2, modSub_enc hD hm _ hx3,
    modSub_enc hD hm _ hy1]
  rfl

theorem affAdd_enc (A : Nat) {P Q : Affine} (hP : P.Canonical D.M) (hQ : Q.Canonical D.M) :
    affAdd D (encD D A) (encAffine D P) (encAffine D Q) = (affAdd D.standard A P Q).map (encAffine D) := by
  cases P with
  | inf => exact (affAdd_inf_left _).trans (congrArg (Except.map _) (affAdd_inf_left Q).symm)
  | pt x1 y1 =>
    cases Q with
    | inf => exact affAdd_inf_right (encAffine D (.pt x1 y1))
    | pt x2 y2 =>
      obtain ⟨hx1, hy1⟩ := hP
      obtain ⟨hx2, hy2⟩ := hQ
      simp only [encAffine]
      by_cases hx : x1 = x2
      · subst hx
        by_cases hy : y1 ≠ y2 ∨ y1 = 0
        · have hy' : encD D y1 ≠ encD D y2 ∨ encD D y1 = 0 :=
            hy.imp (mt (encD_inj hD hy1 hy2).1) (encD_eq_zero hD hm hy1).2
          rw [affAdd_opposite hy, affAdd_opposite hy']
          rfl
        · obtain ⟨rfl, h0⟩ : y1 = y2 ∧ y1 ≠ 0 := by tauto
          rw [affAdd_tangent x1 h0, affAdd_tangent _ (mt (encD_eq_zero hD hm hy1).1 h0), mulD_enc hD hm, modMulSmall_enc hD hm,
            modMulSmall_enc hD hm, modAdd_enc hD hm, divD_enc hD hm _ (modMulSmall_lt hD.M_pos 2 y1), map_map, map_map]
          simp only [affTangent_enc hD hm _ x1 hy1]
          rfl
      · rw [affAdd_chord y1 y2 hx, affAdd_chord _ _ (mt (encD_inj hD hx1 hx2).1 hx), modSub_enc hD hm y2 hy1, modSub_enc hD hm x2 hx1,
          divD_enc hD hm _ (modSub_lt hx2), map_map, map_map]
        simp only [affChord_enc hD hm _ hx1 hy1 hx2]
        rfl

theorem toJac_enc (P : Affine) : toJac D (encAffine D P) = encJacobian D (toJac D.standard P) := by
  cases P with
  | inf => simp only [encAffine, toJac, jacInf, encJacobian, encD_zero hD hm, ← oneD_enc hD hm]
  | pt x y => simp only [encAffine, toJac, encJacobian, ← oneD_enc hD hm]

theorem affMulLoop_enc (A k : Nat) : ∀ (n i : Nat) {r0 r1 : Affine}, r0.Canonical D.M → r1.Canonical D.M →
    affMulLoop D (encD D A) k n i (encAffine D r0) (encAffine D r1) = (affMulLoop D.standard A k n i r0 r1).map (encAffine D)
  | 0, _, _, _, _, _ => rfl
  | n + 1, i, r0, r1, h0, h1 => by
    have hadd : affAddIf D (encD D A) (k.testBit i) (encAffine D r0) (encAffine D r1) =
        (affAddIf D.standard A (k.testBit i) r0 r1).map (encAffine D) := by
      cases k.testBit i with
      | false => rfl
      | true => exact affAdd_enc hD hm A h0 h1
    refine bind_map_mirror hadd fun r0' hr0 => bind_map_mirror (affAdd_enc hD hm A h1 h1) fun r1' hr1 => ?_
    exact affMulLoop_enc A k n (i + 1) (affAddIf_canonical (D := D.standard) hD.M_pos h0 h1 hr0)
      (affAdd_canonical (D := D.standard) hD.M_pos h1 h1 hr1)

/-! ### The Jacobian group law (44_affine.md R193; 45_jacobian.md R216) -/

theorem jacInf_enc : jacInf D = encJacobian D (jacInf D.standard) := by
  simp only [jacInf, encJacobian, encD_zero hD hm, ← oneD_enc hD hm]

theorem jacDouble_enc (A : Nat) (P : Jacobian) (z1s : Nat) :
    jacDouble D (encD D A) (encJacobian D P) (encD D z1s) = encJacobian D (jacDouble D.standard A P z1s) := by
  have hsmall (k a : Nat) : modMulSmall D.M k a < D.M := modMulSmall_lt hD.M_pos k a
  have hx3 (a b : Nat) : modSub D.M (mulD D.standard a a) b < D.M := modSub_lt (mulD_lt (D := D.standard) hD.M_pos a a)
  simp only [jacDouble, encJacobian, mulD_enc hD hm, modMulSmall_enc hD hm, modAdd_enc hD hm, modSub_enc hD hm _ (hsmall _ _),
    modSub_enc hD hm _ (hx3 _ _)]
  rfl

theorem jacChord_enc {u1 s1 : Nat} (u2 s2 z1 z2 : Nat) (hu1 : u1 < D.M) (hs1 : s1 < D.M) :
    jacChord D (encD D u1) (encD D u2) (encD D s1) (encD D s2) (encD D z1) (encD D z2) =
      encJacobian D (jacChord D.standard u1 u2 s1 s2 z1 z2) := by
  have hsmall (k a : Nat) : modMulSmall D.M k a < D.M := modMulSmall_lt hD.M_pos k a
  have hprod (a b : Nat) : mulD D.standard a b < D.M := mulD_lt (D := D.standard) hD.M_pos a b
  have hx3 (a b c d : Nat) : modSub D.M (modSub D.M (mulD D.standard a b) c) d < D.M := modSub_lt (modSub_lt (hprod a b))
  simp only [jacChord, encJacobian, mulD_enc hD hm, modMulSmall_enc hD hm, modSub_enc hD hm _ hu1, modSub_enc hD hm _ hs1,
    modSub_enc hD hm _ (hsmall _ _), modSub_enc hD hm _ (hprod _ _), modSub_enc hD hm _ (hx3 _ _ _ _)]
  rfl

theorem crossX_enc (P Q : Jacobian) : crossX D (encJacobian D P) (encJacobian D Q) = encD D (crossX D.standard P Q) := by
  simp only [crossX, encJacobian, mulD_enc hD hm]

theorem crossY_enc (P Q : Jacobian) : crossY D (encJacobian D P) (encJacobian D Q) = encD D (crossY D.standard P Q) := by
  simp only [crossY, encJacobian, mulD_enc hD hm]

theorem jacAdd_enc (A : Nat) {P Q : Jacobian} (hP : P.Canonical D.M) (hQ : Q.Canonical D.M) :
    jacAdd D (encD D A) (encJacobian D P) (encJacobian D Q) = encJacobian D (jacAdd D.standard A P Q) := by
  obtain ⟨-, -, hPz⟩ := hP
  obtain ⟨-, -, hQz⟩ := hQ
  have hP0 : (encJacobian D P).z = 0 ↔ P.z = 0 := encD_eq_zero hD hm hPz
  have hQ0 : (encJacobian D Q).z = 0 ↔ Q.z = 0 := encD_eq_zero hD hm hQz
  by_cases hp : P.z = 0
  · by_cases hq : Q.z = 0
    · rw [jacAdd_both_infinite hp hq, jacAdd_both_infinite (hP0.2 hp) (hQ0.2 hq), jacInf_enc hD hm]
    · rw [jacAdd_left_infinite hp hq, jacAdd_left_infinite (hP0.2 hp) (mt hQ0.1 hq)]
  · by_cases hq : Q.z = 0
    · rw [jacAdd_right_infinite hp hq, jacAdd_right_infinite (mt hP0.1 hp) (hQ0.2 hq)]
    · have hX := crossX_lt (D := D.standard) hD.M_pos
      have hY := crossY_lt (D := D.standard) hD.M_pos
      rw [jacAdd_finite hp hq, jacAdd_finite (mt hP0.1 hp) (mt hQ0.1 hq)]
      simp only [crossX_enc hD hm, crossY_enc hD hm, encD_inj hD (hX P Q) (hX Q P), ne_eq, encD_inj hD (hY P Q) (hY Q P)]
      split
      · split
        · exact jacInf_enc hD hm
        · rw [show mulD D (encJacobian D P).z (encJacobian D P).z = encD D (mulD D.standard P.z P.z) from mulD_enc hD hm P.z P.z]
          exact jacDouble_enc hD hm A P _
      · exact jacChord_enc hD hm _ _ _ _ (hX P Q) (hY P Q)

theorem toAff_enc {P : Jacobian} (hP : P.Canonical D.M) :
    toAff D (encJacobian D P) = (toAff D.standard P).map (encAffine D) := by
  obtain ⟨-, -, hz⟩ := hP
  have hz0 : (encJacobian D P).z = 0 ↔ P.z = 0 := encD_eq_zero hD hm hz
  by_cases h0 : P.z = 0
  · rw [toAff_of_z_eq_zero h0, toAff_of_z_eq_zero (hz0.2 h0)]
    rfl
  · rw [toAff, if_neg (mt hz0.1 h0), toAff, if_neg h0, oneD_enc hD hm]
    refine bind_map_mirror (divD_enc hD hm _ hz) fun zi _ => ?_
    simp only [encJacobian, mulD_enc hD hm]
    rfl

theorem jacMulLoop_enc (A k : Nat) : ∀ (n i : Nat) {r0 r1 : Jacobian}, r0.Canonical D.M → r1.Canonical D.M →
    jacMulLoop D (encD D A) k n i (encJacobian D r0) (encJacobian D r1) = encJacobian D (jacMulLoop D.standard A k n i r0 r1)
  | 0, _, _, _, _, _ => rfl
  | n + 1, i, r0, r1, h0, h1 => by
    have hcanon {P Q : Jacobian} (hP : P.Canonical D.M) (hQ : Q.Canonical D.M) : (jacAdd D.standard A P Q).Canonical D.M :=
      jacAdd_canonical (D := D.standard) hD.1 hD.2.1 hP hQ
    rw [jacMulLoop, jacMulLoop, jacAdd_enc hD hm A h1 h1]
    cases k.testBit i with
    | false => exact jacMulLoop_enc A k n (i + 1) h0 (hcanon h1 h1)
    | true =>
      simp only [if_true, jacAdd_enc hD hm A h0 h1]
      exact jacMulLoop_enc A k n (i + 1) (hcanon h0 h1) (hcanon h1 h1)

end

/-- Settles O42: each primitive by its logical value, each formula by its primitives, each loop turn by turn. -/
theorem montgomeryMirrorsStandard : Obligations.MontgomeryMirrorsStandard := by
  intro M R RI hM hR hRI hone S D
  have hD : D.Usable := ⟨hM, hR, hRI, fun _ => hone⟩
  have hm : D.mont = true := rfl
  refine ⟨fun x y k e W hx hy => ⟨decD_encD hD hm hx, encD_decD hD hm hx, mulD_enc hD hm x y, modAdd_enc hD hm x y,
      modSub_enc hD hm x hy, modNeg_enc hD hm hx, modMulSmall_enc hD hm k x, powD_enc hD hm W x e, divD_enc hD hm x hy⟩,
    fun A k W P Q _ hP hQ => ⟨affAdd_enc hD hm A hP hQ, toJac_enc hD hm P, affMulLoop_enc hD hm A k W 0 (r0 := .inf) trivial hP⟩,
    fun A k W P Q _ hP hQ => ⟨jacAdd_enc hD hm A hP hQ, toAff_enc hD hm hP, ?_⟩⟩
  have hinf : (jacInf D.standard).Canonical D.M := jacInf_canonical (D := D.standard) hM hR
  rw [jacMul, jacInf_enc hD hm]
  exact jacMulLoop_enc hD hm A k W 0 hinf hP

end Sys2Proof.Machine
end
